-- ==== Sys2Proof/Word.lean ====
section
/-!
DEFINITION. The word types of the data space (spec R10, R40, R51): bytes, 16-bit words, and the numbers of the sixteen
working registers. Arithmetic that a rule of the spec describes is not here but in the files under Machine/.
-/
namespace Sys2Proof

/-- One byte of the data space (R40). -/
abbrev Byte := BitVec 8

/-- The 16-bit data width and the 16-bit byte address (R1, R40). -/
abbrev Word := BitVec 16

/-- The number of a working register W0..W15 (R10). -/
abbrev Reg := Fin 16

/-- The ASCII bytes of a text (R84 gives statements as text). -/
def ascii (t : String) : List Byte := t.toList.map fun c => BitVec.ofNat 8 c.toNat

end Sys2Proof
end

