-- ==== Sys2Proof/Syntax.lean ====
section
/-!
DEFINITION. The instructions of spec/opcode_table.json as syntax, one constructor per row (spec R86), and their operand
forms (R83). Addresses and literals are already numbers here: the decoder has resolved names (R84).
-/
namespace Sys2Proof

/-- The width of an access (R51). -/
inductive Size where
  | byte
  | word
deriving DecidableEq, Repr

/-- The addressing modes of an MCU-class memory operand (R83, R105), all but the pointer register. -/
inductive McuMode where
  /-- `[Wn]` -/
  | indirect
  /-- `[Wn++]` -/
  | postInc
  /-- `[Wn--]` -/
  | postDec
  /-- `[++Wn]` -/
  | preInc
  /-- `[--Wn]` -/
  | preDec
  /-- `[Wb + Wn]`: the pointer is `Wb`, `wn` the index (R107) -/
  | indexed (wn : Reg)
  /-- `[Wn + lit]`: a signed literal of unstated width (R107) -/
  | offset (lit : Int)
deriving DecidableEq, Repr

/-- An MCU-class memory operand: its pointer register and its mode. -/
structure MemOperand where
  ptr : Reg
  mode : McuMode
deriving DecidableEq, Repr

/-- The sources of the general MOV (R187). -/
inductive MovSrc where
  | reg (s : Reg)
  | lit (k : Word)
  | direct (f : Word)
  | mem (o : MemOperand)
deriving DecidableEq, Repr

/-- The destinations of the general MOV (R187), also how POP's destination is written (a DESIGN CHOICE, log 39). -/
inductive MovDst where
  | reg (d : Reg)
  | direct (f : Word)
  | mem (o : MemOperand)
deriving DecidableEq, Repr

/-- The X prefetch pointers of a DSP-class instruction, W8 and W9 and no other (R45). -/
inductive XPtr where
  | w8
  | w9
deriving DecidableEq, Repr

/-- The Y prefetch pointers of a DSP-class instruction, W10 and W11 and no other (R45). -/
inductive YPtr where
  | w10
  | w11
deriving DecidableEq, Repr

/-- The register an X prefetch pointer names. -/
def XPtr.reg : XPtr → Reg
  | .w8 => 8
  | .w9 => 9

/-- The register a Y prefetch pointer names. -/
def YPtr.reg : YPtr → Reg
  | .w10 => 10
  | .w11 => 11

/-- The instructions: one constructor per row of spec/opcode_table.json, in the table's order. -/
inductive Instr where
  /-- `MOV #lit16, Wd` (R180) -/
  | movLitW (lit16 : Word) (d : Reg)
  /-- `MOV Ws, f` (R182) -/
  | movWF (s : Reg) (f : Word)
  /-- `MOV [Ws], Wd` (R183) -/
  | movIndW (s d : Reg)
  /-- `MOV [Ws++], Wd` (R184) -/
  | movPostincW (s d : Reg)
  /-- `MOV Ws, [Wd++]` (R185) -/
  | movWPostinc (s d : Reg)
  /-- `MOV [Ws++], [Wd++]` (R186) -/
  | movPostincPostinc (s d : Reg)
  /-- `MOV src, dst` and `MOV.B [..], [..]` (R187) -/
  | movGeneral (size : Size) (src : MovSrc) (dst : MovDst)
  /-- `NOP` (R189) -/
  | nop
  /-- `REPEAT #lit` (R190); the count is unsigned, of unstated width -/
  | repeatLit (lit : Nat)
  /-- `DO #lit, label` (R191) -/
  | doLitLabel (lit : Nat) (label : List Byte)
  /-- `MAC Wm*Wn, A, [Wx]+=kx, Wxd, [Wy]+=ky, Wyd, [W13]+=kw` (R195) -/
  | macPrefetchWb (m n : Reg) (x : XPtr) (kx : Int) (xd : Reg) (y : YPtr) (ky : Int) (yd : Reg) (kw : Int)
  /-- `POP dst` (R200). That it is written with one destination of MOV's forms is a DESIGN CHOICE (log 39). -/
  | pop (dst : MovDst)
  /-- `RETURN` (R201). That it is written with no operand is PRESUMED (log 39). -/
  | returnCall
  /-- `RETFIE` (R202). That it is written with no operand is PRESUMED (log 39). -/
  | retfie
  /-- `RETLW #lit, Wn` (R203). That it is written with a literal and a register is PRESUMED (log 39). -/
  | retlw (lit : Nat) (d : Reg)
  /-- `ULNK` (R204). That it is written with no operand is PRESUMED (log 39). -/
  | ulnk
deriving DecidableEq, Repr

end Sys2Proof
end

