-- ==== Sys2Proof/Config.lean ====
section
/-!
DEFINITION. What a device fixes (the record Dev of spec R3, as plain data) and the free values (opaque constants
with no body, so that nothing can prove one of their values).
-/
namespace Sys2Proof

/-- The six control registers of R15 to R24. -/
inductive CtrlReg where
  | modcon
  | xmodsrt
  | xmodend
  | ymodsrt
  | ymodend
  | xbrev
deriving DecidableEq, Repr

/-- What stands behind a byte address: the values of `Dev.kind` (R3). -/
inductive AddrKind where
  | sfr
  | ram
  | dpsram
  | psv
  | absent
deriving DecidableEq, Repr

/-- The block of the data space an address is in for the split view: the values of `Dev.space` (R3, R46). -/
inductive Space where
  | x
  | y
deriving DecidableEq, Repr

/-- What a region above the SFR range holds (R3). -/
inductive RegionKind where
  | ram
  | dpsram
  | psv
deriving DecidableEq, Repr

/-- One region of a device's memory map above the SFR range: the byte addresses `first` to `last`, both included. -/
structure Region where
  first : Nat
  last : Nat
  kind : RegionKind
  space : Space
deriving DecidableEq, Repr

/-- Whether a device gives an open parameter of R3, SfrRead, SfrWrite or PsvRead, a behaviour of its own, or leaves it at
its default (decisions D21 and D23). -/
inductive OpenBehaviour where
  /-- the default: the access is refused -/
  | refuse
  /-- the device answers, as the free value of that parameter says -/
  | given
deriving DecidableEq, Repr

/-- The device record of R3 as plain data. `Dev.kind` and `Dev.space` are computed from the regions
(Machine/DevMap.lean). A parameter that is a function is a free value below (`Config.sfrRead`, `Config.sfrWrite`,
`Config.psvRead`, `Config.macArith`); whether a device supplies the first three is a field here (log 22). -/
structure Dev where
  regions : List Region
  addrModcon : Word
  addrXmodsrt : Word
  addrXmodend : Word
  addrYmodsrt : Word
  addrYmodend : Word
  addrXbrev : Word
  hasDmaRam : Bool
  sfrRead : OpenBehaviour
  sfrWrite : OpenBehaviour
  psvRead : OpenBehaviour
deriving DecidableEq, Repr

/-- PRESUMED (log 6): the example device of R3 (00_scope section 5, general knowledge G4) with the default register
addresses (general knowledge G2); SfrRead, SfrWrite and PsvRead are at their defaults (log 22). -/
def Config.exampleDev : Dev where
  regions :=
    [⟨0x0800, 0x47FF, .ram, .x⟩, ⟨0x4800, 0x77FF, .ram, .y⟩, ⟨0x7800, 0x7FFF, .dpsram, .y⟩]
  addrModcon := 0x0046
  addrXmodsrt := 0x0048
  addrXmodend := 0x004A
  addrYmodsrt := 0x004C
  addrYmodend := 0x004E
  addrXbrev := 0x0050
  hasDmaRam := true
  sfrRead := .refuse
  sfrWrite := .refuse
  psvRead := .refuse

/-- The contents of the accumulators: the one named A, which MAC targets, and one that is not targeted. R12 says that at
least two exist and their number is missing (N16): exactly two is a DESIGN CHOICE (log 9). Their width and format are not
in the spec either, so a content is a bare number on which the model computes nothing. -/
structure Accumulators where
  a : Nat
  other : Nat
deriving DecidableEq, Repr, Inhabited

/-- FREE VALUE (log 9): `Dev.MacArith` of R195. From the two multiplicands and the accumulators it gives the new
accumulators and the word that accumulator write back stores. -/
opaque Config.macArith : Word → Word → Accumulators → Accumulators × Word

/-- FREE VALUE (logs 12, 13 and 40): the word drawn when the `n`-th open value is needed. -/
opaque Config.freeWord : Nat → Word

/-- FREE VALUE (log 12): the accumulators after a MAC whose write back trapped, drawn as the `n`-th open value. -/
opaque Config.freeAccumulators : Nat → Accumulators

/-- FREE VALUE (log 22): `Dev.SfrRead` of R3. From the count of free values, what the other SFRs hold, the address and the
size it gives the value read and what the SFRs hold after the read (R74: such a read may have a side effect on them). -/
opaque Config.sfrRead : Nat → Nat → Word → Size → Word × Nat

/-- FREE VALUE (log 22): `Dev.SfrWrite` of R3. From the count of free values, what the other SFRs hold, the address, the
size and the value written it gives what the SFRs hold after the write. -/
opaque Config.sfrWrite : Nat → Nat → Word → Size → Word → Nat

/-- FREE VALUE (log 22): `Dev.PsvRead` of R3. From the count of free values, what the other SFRs hold, the address and the
size it gives the value read. -/
opaque Config.psvRead : Nat → Nat → Word → Size → Word

end Sys2Proof
end

