-- ==== Sys2Proof/WellFormed.lean ====
section
/-!
DEFINITION. Which terms of Instr are instruction forms the spec admits (R86, R187, decision D1): the check the decoder
makes of every instruction it reads.
-/
namespace Sys2Proof

/-- A digit, ASCII 0 to 9. -/
def isDigit (b : Byte) : Bool := 48 ≤ b.toNat && b.toNat ≤ 57

/-- A letter A to Z or a to z, or the underscore. -/
def isLetter (b : Byte) : Bool :=
  (65 ≤ b.toNat && b.toNat ≤ 90) || (97 ≤ b.toNat && b.toNat ≤ 122) || b.toNat == 95

/-- A character that may stand inside a name, a mnemonic or a number. The full stop is one for the `.B` suffix
(R84; PRESUMED, log 2). -/
def isWordByte (b : Byte) : Bool := isDigit b || isLetter b || b.toNat == 46

/-- A name: it begins with a letter or an underscore and goes on with word characters (R84, log 2). -/
def isName : List Byte → Bool
  | [] => false
  | b :: bs => isLetter b && bs.all isWordByte

/-- A memory-operand source. -/
def MovSrc.isMem : MovSrc → Bool
  | .reg _ => false
  | .lit _ => false
  | .direct _ => false
  | .mem _ => true

/-- A memory-operand destination. -/
def MovDst.isMem : MovDst → Bool
  | .reg _ => false
  | .direct _ => false
  | .mem _ => true

/-- The word-sized operand pairs that are one of the six forms R86 gives rows of their own: `MOV_general` is every other
combination. -/
def shownForm : MovSrc → MovDst → Bool
  | .lit _, .reg _ => true
  | .reg _, .direct _ => true
  | .mem ⟨_, .indirect⟩, .reg _ => true
  | .mem ⟨_, .postInc⟩, .reg _ => true
  | .reg _, .mem ⟨_, .postInc⟩ => true
  | .mem ⟨_, .postInc⟩, .mem ⟨_, .postInc⟩ => true
  | _, _ => false

/-- The combinations of the general MOV: for words every combination of the operand forms of R83 that is not one of R86's
six shown forms, as R86 lists them and R187's pseudocode gives them their effect (D1; DESIGN CHOICE where R187 would have a
model admit registers and memory operands only, log 18), for bytes memory to memory (D27). -/
def admittedGeneral : Size → MovSrc → MovDst → Bool
  | .word, src, dst => !shownForm src dst
  | .byte, src, dst => src.isMem && dst.isMem

/-- The instruction forms a program may hold: every shown form, the general MOV as R86 lists it, a DO with a label
that is a name, and a MAC whose post-modification constants are even (G12, log 19). -/
def Instr.wellFormed : Instr → Bool
  | .movLitW _ _ => true
  | .movWF _ _ => true
  | .movIndW _ _ => true
  | .movPostincW _ _ => true
  | .movWPostinc _ _ => true
  | .movPostincPostinc _ _ => true
  | .movGeneral size src dst => admittedGeneral size src dst
  | .nop => true
  | .repeatLit _ => true
  | .doLitLabel _ label => isName label
  | .macPrefetchWb _ _ _ kx _ _ ky _ kw => kx % 2 == 0 && ky % 2 == 0 && kw % 2 == 0
  | .pop _ => true
  | .returnCall => true
  | .retfie => true
  | .retlw _ _ => true
  | .ulnk => true

end Sys2Proof
end

