-- ==== Sys2Proof/Decode.lean ====
section
/-!
DEFINITION. Decode. The spec gives no instruction word (R82): a program is a list of assembly statements (R2), so the
bytes an instruction is read from are the characters of one statement, and the decoder is a reader of the statement
syntax of R83 to R85. It is total on any bytes and rejects by name. After it, the encoder: the statement an instruction
is written as. What the syntax leaves open is in logs 1 to 3.
-/
namespace Sys2Proof

/-- The names that stand for addresses (R84): each with its address. -/
abbrev SymbolTable := List (List Byte × Word)

/-- Why a text is no statement of the model (R86, decision D1). -/
inductive DecodeError where
  /-- a character that no statement of D0 holds -/
  | badCharacter (b : Byte)
  /-- a word that begins with a digit and is no decimal number and no `0x` hexadecimal number -/
  | badNumber
  /-- nothing before the end of the line or the comment -/
  | noInstruction
  /-- a mnemonic R86 does not list -/
  | unknownMnemonic
  /-- operands that are none of the forms R83 and R85 show for the mnemonic, or a name that stands for no address -/
  | badOperands
  /-- operands of known form in a combination that R187 does not admit -/
  | formNotAdmitted
deriving DecidableEq, Repr

/-- The lexical elements of a statement (R83, R84). -/
inductive Token where
  | word (bs : List Byte)
  | num (n : Nat)
  | comma
  | hash
  | lbr
  | rbr
  | plus
  | minus
  | star
  | equals
  | colon
deriving DecidableEq, Repr

/-- The punctuation of R83 to R85. -/
def punctuation (b : Byte) : Option Token :=
  if b.toNat == 44 then some .comma
  else if b.toNat == 35 then some .hash
  else if b.toNat == 91 then some .lbr
  else if b.toNat == 93 then some .rbr
  else if b.toNat == 43 then some .plus
  else if b.toNat == 45 then some .minus
  else if b.toNat == 42 then some .star
  else if b.toNat == 61 then some .equals
  else if b.toNat == 58 then some .colon
  else none

/-- White space inside a statement: a space or a tab (log 2). -/
def isBlank (b : Byte) : Bool := b.toNat == 32 || b.toNat == 9

/-- `;` begins a comment that runs to the end of the line (R84). -/
def stripComment (bs : List Byte) : List Byte := bs.takeWhile fun b => b.toNat != 59

/-- The value of a hexadecimal digit. -/
def hexDigitValue (b : Byte) : Option Nat :=
  if 48 ≤ b.toNat && b.toNat ≤ 57 then some (b.toNat - 48)
  else if 65 ≤ b.toNat && b.toNat ≤ 70 then some (b.toNat - 55)
  else if 97 ≤ b.toNat && b.toNat ≤ 102 then some (b.toNat - 87)
  else none

/-- The value of a decimal digit. -/
def decDigitValue (b : Byte) : Option Nat :=
  if isDigit b then some (b.toNat - 48) else none

/-- The number a list of digits spells after `acc`, most significant digit first. -/
def digitsValue (base : Nat) (digit : Byte → Option Nat) : List Byte → Nat → Option Nat
  | [], acc => some acc
  | b :: bs, acc =>
    match digit b with
    | some d => digitsValue base digit bs (base * acc + d)
    | none => none

/-- Numbers (R84): hexadecimal after `0x`, otherwise decimal. -/
def numberValue : List Byte → Option Nat
  | 48#8 :: 120#8 :: b :: bs => digitsValue 16 hexDigitValue (b :: bs) 0
  | bs => digitsValue 10 decDigitValue bs 0

/-- A maximal run of word characters is a number if it begins with a digit, else a word. -/
def classify (bs : List Byte) : Except DecodeError Token :=
  match bs with
  | [] => .error .noInstruction
  | b :: _ =>
    if isDigit b then
      match numberValue bs with
      | some n => .ok (.num n)
      | none => .error .badNumber
    else .ok (.word bs)

/-- Put the word collected so far (its characters in reverse) before the tokens that follow. -/
def flushWord (cur : List Byte) (rest : Except DecodeError (List Token)) : Except DecodeError (List Token) :=
  match cur with
  | [] => rest
  | b :: bs =>
    match classify (b :: bs).reverse with
    | .error e => .error e
    | .ok t =>
      match rest with
      | .error e => .error e
      | .ok ts => .ok (t :: ts)

/-- The tokens of a text, with `cur` the word collected so far, reversed. -/
def lexFrom : List Byte → List Byte → Except DecodeError (List Token)
  | [], cur => flushWord cur (.ok [])
  | b :: bs, cur =>
    if isWordByte b then lexFrom bs (b :: cur)
    else if isBlank b then flushWord cur (lexFrom bs [])
    else
      match punctuation b with
      | some t =>
        flushWord cur
          (match lexFrom bs [] with
          | .ok ts => .ok (t :: ts)
          | .error e => .error e)
      | none => .error (.badCharacter b)

/-- The tokens of a statement, its comment taken off. -/
def tokens (text : List Byte) : Except DecodeError (List Token) := lexFrom (stripComment text) []

/-- The number of a working register written `Wn` or `wn` (R83). -/
def regOfName : List Byte → Option Reg
  | [w, d] =>
    if (w.toNat == 87 || w.toNat == 119) && isDigit d then some (Fin.ofNat 16 (d.toNat - 48)) else none
  | [w, t, d] =>
    if (w.toNat == 87 || w.toNat == 119) && t.toNat == 49 && 48 ≤ d.toNat && d.toNat ≤ 53 then
      some (Fin.ofNat 16 (d.toNat - 38))
    else none
  | _ => none

/-- The address a name stands for (R84). -/
def lookupSymbol (syms : SymbolTable) (name : List Byte) : Option Word :=
  match syms with
  | [] => none
  | (n, a) :: rest => if n == name then some a else lookupSymbol rest name

/-- A number as a 16-bit value, where it is one. -/
def wordOfNat (n : Nat) : Option Word := if n < 65536 then some (BitVec.ofNat 16 n) else none

/-- A memory operand between brackets (R83): its tokens without the opening bracket, the closing one included. -/
def memOperandOf : List Token → Option MemOperand
  | [.word p, .rbr] => (regOfName p).map fun r => ⟨r, .indirect⟩
  | [.word p, .plus, .plus, .rbr] => (regOfName p).map fun r => ⟨r, .postInc⟩
  | [.word p, .minus, .minus, .rbr] => (regOfName p).map fun r => ⟨r, .postDec⟩
  | [.plus, .plus, .word p, .rbr] => (regOfName p).map fun r => ⟨r, .preInc⟩
  | [.minus, .minus, .word p, .rbr] => (regOfName p).map fun r => ⟨r, .preDec⟩
  | [.word p, .plus, .word i, .rbr] =>
    match regOfName p, regOfName i with
    | some r, some x => some ⟨r, .indexed x⟩
    | _, _ => none
  | [.word p, .plus, .num n, .rbr] => (regOfName p).map fun r => ⟨r, .offset (Int.ofNat n)⟩
  | [.word p, .plus, .minus, .num n, .rbr] => (regOfName p).map fun r => ⟨r, .offset (-(Int.ofNat n))⟩
  | _ => none

/-- An operand of MOV (R83). A literal is told apart from a direct address by its `#` (R84). -/
def operandOf (syms : SymbolTable) : List Token → Option MovSrc
  | [.word w] =>
    match regOfName w with
    | some r => some (.reg r)
    | none => (lookupSymbol syms w).map .direct
  | [.num n] => (wordOfNat n).map .direct
  | [.hash, .num n] => (wordOfNat n).map .lit
  | [.hash, .word w] => (lookupSymbol syms w).map .lit
  | .lbr :: rest => (memOperandOf rest).map .mem
  | _ => none

/-- The same operand as a destination: a literal is none. -/
def MovSrc.asDst : MovSrc → Option MovDst
  | .reg r => some (.reg r)
  | .lit _ => none
  | .direct f => some (.direct f)
  | .mem o => some (.mem o)

/-- The operands of a statement, between commas. -/
def splitCommas : List Token → List (List Token)
  | [] => [[]]
  | t :: ts =>
    if t = .comma then [] :: splitCommas ts
    else
      match splitCommas ts with
      | [] => [[t]]
      | g :: gs => (t :: g) :: gs

/-- The row of spec/opcode_table.json a MOV of the given size and operands is: one of the six shown forms, else the
general one (R86). -/
def movOf : Size → MovSrc → MovDst → Instr
  | .word, .lit k, .reg d => .movLitW k d
  | .word, .reg s, .direct f => .movWF s f
  | .word, .mem ⟨s, .indirect⟩, .reg d => .movIndW s d
  | .word, .mem ⟨s, .postInc⟩, .reg d => .movPostincW s d
  | .word, .reg s, .mem ⟨d, .postInc⟩ => .movWPostinc s d
  | .word, .mem ⟨s, .postInc⟩, .mem ⟨d, .postInc⟩ => .movPostincPostinc s d
  | size, src, dst => .movGeneral size src dst

/-- The X prefetch pointer a register name gives: W8 or W9 (R45). -/
def xPtrOf (name : List Byte) : Option XPtr :=
  match regOfName name with
  | some r => if r = 8 then some .w8 else if r = 9 then some .w9 else none
  | none => none

/-- The Y prefetch pointer a register name gives: W10 or W11 (R45). -/
def yPtrOf (name : List Byte) : Option YPtr :=
  match regOfName name with
  | some r => if r = 10 then some .w10 else if r = 11 then some .w11 else none
  | none => none

/-- A DSP-class post-modified operand `[Wn]+=k` (R83): the register's name and the constant. -/
def postModOf : List Token → Option (List Byte × Int)
  | [.lbr, .word w, .rbr, .plus, .equals, .num n] => some (w, Int.ofNat n)
  | [.lbr, .word w, .rbr, .plus, .equals, .minus, .num n] => some (w, -(Int.ofNat n))
  | _ => none

/-- A single register name. -/
def regOf : List Token → Option Reg
  | [.word w] => regOfName w
  | _ => none

/-- MOV and MOV.B: source first, destination last (R84). -/
def movStatement (syms : SymbolTable) (size : Size) : List (List Token) → Option Instr
  | [src, dst] =>
    match operandOf syms src, (operandOf syms dst).bind MovSrc.asDst with
    | some s, some d => some (movOf size s d)
    | _, _ => none
  | _ => none

/-- `MAC Wm*Wn, A, [Wx]+=kx, Wxd, [Wy]+=ky, Wyd, [W13]+=kw` (R85). -/
def macStatement : List (List Token) → Option Instr
  | [[.word m, .star, .word n], [.word acc], xs, xd, ys, yd, ws] =>
    if acc == ascii "A" then
      match regOfName m, regOfName n, postModOf xs, regOf xd, postModOf ys, regOf yd, postModOf ws with
      | some m, some n, some (px, kx), some xd, some (py, ky), some yd, some (pw, kw) =>
        match xPtrOf px, yPtrOf py, regOfName pw with
        | some x, some y, some w => if w = 13 then some (.macPrefetchWb m n x kx xd y ky yd kw) else none
        | _, _, _ => none
      | _, _, _, _, _, _, _ => none
    else none
  | _ => none

/-- The one operand `#lit` of REPEAT (R190). The surviving line `REPEAT #49,` of Figure 3-5 (R144) ends it with a comma, and
the source does not say whether that is syntax or a misprint: that a text with the comma is no statement is a DESIGN CHOICE
(log 42). -/
def repeatStatement : List (List Token) → Option Instr
  | [[.hash, .num n]] => some (.repeatLit n)
  | _ => none

/-- The operands `#lit, label` of DO (R191). -/
def doStatement : List (List Token) → Option Instr
  | [[.hash, .num n], [.word l]] => some (.doLitLabel n l)
  | _ => none

/-- The operand of POP. R86 and R200 show no operand form ("operand forms: not in D0"): that the statement has one
destination, and that it is any of MOV's forms, is a DESIGN CHOICE (log 39). -/
def popStatement (syms : SymbolTable) : List (List Token) → Option Instr
  | [dst] => ((operandOf syms dst).bind MovSrc.asDst).map .pop
  | _ => none

/-- The operands of RETLW. R86 and R203 show none: the form `#lit, Wn` is PRESUMED from the general-knowledge table of
30_encoding.md section 6 (log 39). -/
def retlwStatement : List (List Token) → Option Instr
  | [[.hash, .num n], [.word w]] => (regOfName w).map (.retlw n)
  | _ => none

/-- A statement with no operands: NOP (R189), and, PRESUMED from the general-knowledge table of 30_encoding.md section 6,
RETURN, RETFIE and ULNK, whose operand forms R86 does not show (log 39). -/
def bareStatement (i : Instr) : List (List Token) → Option Instr
  | [[]] => some i
  | _ => none

/-- The instruction a mnemonic and its operands are (R86), or none where the operands are no form of it; the outer none
is a mnemonic R86 does not list. The operand forms R86 does not show, those of POP, RETURN, RETFIE, RETLW and ULNK, are the
model's choice (log 39). -/
def statementOf (syms : SymbolTable) (mnemonic : List Byte) (ops : List (List Token)) : Option (Option Instr) :=
  if mnemonic == ascii "MOV" then some (movStatement syms .word ops)
  else if mnemonic == ascii "MOV.B" then some (movStatement syms .byte ops)
  else if mnemonic == ascii "NOP" then some (bareStatement .nop ops)
  else if mnemonic == ascii "REPEAT" then some (repeatStatement ops)
  else if mnemonic == ascii "DO" then some (doStatement ops)
  else if mnemonic == ascii "MAC" then some (macStatement ops)
  else if mnemonic == ascii "POP" then some (popStatement syms ops)
  else if mnemonic == ascii "RETURN" then some (bareStatement .returnCall ops)
  else if mnemonic == ascii "RETFIE" then some (bareStatement .retfie ops)
  else if mnemonic == ascii "RETLW" then some (retlwStatement ops)
  else if mnemonic == ascii "ULNK" then some (bareStatement .ulnk ops)
  else none

/-- A label before the instruction, `name:`, is passed over (R84). -/
def dropLabel : List Token → List Token
  | .word _ :: .colon :: rest => rest
  | ts => ts

/-- The instruction a list of tokens is. -/
def instrOf (syms : SymbolTable) (ts : List Token) : Except DecodeError Instr :=
  match dropLabel ts with
  | .word mnemonic :: rest =>
    match statementOf syms mnemonic (splitCommas rest) with
    | none => .error .unknownMnemonic
    | some none => .error .badOperands
    | some (some i) => if i.wellFormed then .ok i else .error .formNotAdmitted
  | [] => .error .noInstruction
  | _ => .error .badOperands

/-- The decoder: the instruction one line of text states, or the name of what is wrong with it (R86: any other mnemonic
or operand combination is refused). -/
def decode (syms : SymbolTable) (text : List Byte) : Except DecodeError Instr :=
  match tokens text with
  | .error e => .error e
  | .ok ts => instrOf syms ts

/-- The names of the six control registers, each with its address on a device (R41, R84). -/
def Dev.symbols (d : Dev) : SymbolTable :=
  [(ascii "MODCON", d.addrModcon), (ascii "XMODSRT", d.addrXmodsrt), (ascii "XMODEND", d.addrXmodend),
    (ascii "YMODSRT", d.addrYmodsrt), (ascii "YMODEND", d.addrYmodend), (ascii "XBREV", d.addrXbrev)]

/-! The encoder: the statement an instruction is written as. -/

/-- A decimal or hexadecimal digit, capital letters for ten and more. -/
def digitByte (n : Nat) : Byte := if n < 10 then BitVec.ofNat 8 (48 + n) else BitVec.ofNat 8 (55 + n)

/-- The decimal digits of `n`; `fuel` more than `n` is enough. -/
def decimalFrom : Nat → Nat → List Byte
  | 0, _ => []
  | fuel + 1, n => if n < 10 then [digitByte n] else decimalFrom fuel (n / 10) ++ [digitByte (n % 10)]

/-- A number in decimal, as D0 writes counts (`#15`, `#49`). -/
def decimal (n : Nat) : List Byte := decimalFrom (n + 1) n

/-- A 16-bit value in hexadecimal, as D0 writes addresses and register values (`0x8FF4`). -/
def hexWord (v : Word) : List Byte :=
  [48#8, 120#8, digitByte (v.toNat / 4096), digitByte (v.toNat / 256 % 16), digitByte (v.toNat / 16 % 16),
    digitByte (v.toNat % 16)]

/-- A signed number: its sign, where it is negative, and its decimal digits. -/
def signedDecimal : Int → List Byte
  | .ofNat n => decimal n
  | .negSucc n => 45#8 :: decimal (n + 1)

/-- The name of a working register, `W0` to `W15`. -/
def regName (r : Reg) : List Byte := 87#8 :: decimal r.val

/-- A memory operand as R83 writes it. -/
def memText (o : MemOperand) : List Byte :=
  match o.mode with
  | .indirect => ascii "[" ++ regName o.ptr ++ ascii "]"
  | .postInc => ascii "[" ++ regName o.ptr ++ ascii "++]"
  | .postDec => ascii "[" ++ regName o.ptr ++ ascii "--]"
  | .preInc => ascii "[++" ++ regName o.ptr ++ ascii "]"
  | .preDec => ascii "[--" ++ regName o.ptr ++ ascii "]"
  | .indexed x => ascii "[" ++ regName o.ptr ++ ascii "+" ++ regName x ++ ascii "]"
  | .offset k => ascii "[" ++ regName o.ptr ++ ascii "+" ++ signedDecimal k ++ ascii "]"

/-- A MOV source as R83 writes it. -/
def srcText : MovSrc → List Byte
  | .reg r => regName r
  | .lit k => ascii "#" ++ hexWord k
  | .direct f => hexWord f
  | .mem o => memText o

/-- A MOV or POP destination as R83 writes it. -/
def dstText : MovDst → List Byte
  | .reg r => regName r
  | .direct f => hexWord f
  | .mem o => memText o

/-- A DSP-class post-modified operand as R85 writes it. -/
def postModText (r : Reg) (k : Int) : List Byte := ascii "[" ++ regName r ++ ascii "]+=" ++ signedDecimal k

/-- The encoder: the statement an instruction is written as. -/
def encode : Instr → List Byte
  | .movLitW k d => ascii "MOV " ++ srcText (.lit k) ++ ascii ", " ++ regName d
  | .movWF s f => ascii "MOV " ++ regName s ++ ascii ", " ++ hexWord f
  | .movIndW s d => ascii "MOV " ++ memText ⟨s, .indirect⟩ ++ ascii ", " ++ regName d
  | .movPostincW s d => ascii "MOV " ++ memText ⟨s, .postInc⟩ ++ ascii ", " ++ regName d
  | .movWPostinc s d => ascii "MOV " ++ regName s ++ ascii ", " ++ memText ⟨d, .postInc⟩
  | .movPostincPostinc s d => ascii "MOV " ++ memText ⟨s, .postInc⟩ ++ ascii ", " ++ memText ⟨d, .postInc⟩
  | .movGeneral .word src dst => ascii "MOV " ++ srcText src ++ ascii ", " ++ dstText dst
  | .movGeneral .byte src dst => ascii "MOV.B " ++ srcText src ++ ascii ", " ++ dstText dst
  | .nop => ascii "NOP"
  | .repeatLit n => ascii "REPEAT #" ++ decimal n
  | .doLitLabel n label => ascii "DO #" ++ decimal n ++ ascii ", " ++ label
  | .macPrefetchWb m n x kx xd y ky yd kw =>
    ascii "MAC " ++ regName m ++ ascii "*" ++ regName n ++ ascii ", A, " ++ postModText x.reg kx ++ ascii ", " ++
      regName xd ++ ascii ", " ++ postModText y.reg ky ++ ascii ", " ++ regName yd ++ ascii ", " ++ postModText 13 kw
  | .pop dst => ascii "POP " ++ dstText dst
  | .returnCall => ascii "RETURN"
  | .retfie => ascii "RETFIE"
  | .retlw n d => ascii "RETLW #" ++ decimal n ++ ascii ", " ++ regName d
  | .ulnk => ascii "ULNK"

/-- The bytes of a text laid out in one number, the first byte in bits 7..0. -/
def bytesOfBits (nbits w : Nat) : List Byte :=
  (List.range (nbits / 8)).map fun k => BitVec.ofNat 8 (w >>> (8 * k))

/-- The instruction the decoder reads from the text whose bytes are the bits of `w`. The opcode table gives its rows no
bits at all (R82), so no row of it has a word of its own (log 3). -/
def decodeTableWord (nbits w : Nat) : Option Instr :=
  match decode Config.exampleDev.symbols (bytesOfBits nbits w) with
  | .ok i => some i
  | .error _ => none

end Sys2Proof
end

