-- ==== Sys2Proof/Machine/State.lean ====
section
/-!
DEFINITION. The state of the machine as plain data, holding every piece of state spec 10_state names (R10 to R32), the
parameters of the step relation (R33), the ways a step can stop, and the state after reset (R240).
-/
namespace Sys2Proof.Machine

/-- The causes of the address error trap (R220). -/
inductive AddressErrorCause where
  | misalignedRead
  | misalignedWrite
  | unimplementedRead
  | unimplementedWrite
deriving DecidableEq, Repr

/-- Why the machine stops with a fault. -/
inductive Fault where
  /-- Raised by every step from a state whose fault record holds a cause: the address error trap is terminal (R223).
  Safe: the run ends, nothing is said of what a handler would do. -/
  | addressError (cause : AddressErrorCause)
  /-- Raised by an instruction that reads indirectly in the shadow of a control-register write (R252). Safe: the
  incorrect address is not computed. -/
  | hazardViolated
  /-- Raised by a data-space read of a RAM byte that nothing has written since reset (R240, decision D31). Safe: the
  byte has no value. -/
  | unwrittenRead
deriving DecidableEq, Repr

/-- Why the machine gives an instruction or a statement no meaning. All of them are safe: the step stops. -/
inductive Refusal where
  /-- Raised by `exec` for an instruction that has no meaning yet. Safe. -/
  | notModelled (mnemonic : String)
  /-- Raised by the fetch where the program has no statement at the index (D19, log 34). Safe. -/
  | noStatement
  /-- Raised by the fetch where the text is no statement of the model (R86). Safe. -/
  | notAStatement (e : DecodeError)
  /-- Raised by an instruction that modifies a register through one operand and uses it through another (R114). Safe. -/
  | registerConflict
  /-- Raised by a modulo pointer move where the end address is below the start address (R136). Safe. -/
  | moduloEndBelowStart
  /-- Raised by a modulo pointer move from outside the buffer (R136, R141). Safe. -/
  | moduloPointerOutside
  /-- Raised by an upward move in a buffer whose start is not on a zero boundary (R136, R137). Safe. -/
  | moduloStartNotOnZeros
  /-- Raised by a downward move in a buffer whose end is not on a ones boundary (R136, R137). Safe. -/
  | moduloEndNotOnOnes
  /-- Raised by a move longer than the buffer (R136, R139). Safe. -/
  | moduloJumpTooLong
  /-- Raised by a write through a register selected for bit reversal and X modulo where bit reversal does not act
  (R112). Safe. -/
  | bitReversalOrModulo
  /-- Raised by a bit-reversed write with an XB modifier that is not in Table 3-2 (R163, R164). Safe. -/
  | modifierNotValid
  /-- Raised by a Y prefetch while YMODEN = 1 and YWM is a reserved setting (R134). Safe. -/
  | reservedYwm
  /-- Raised by a read or write of an SFR that is none of the six control registers, on a device that leaves SfrRead or
  SfrWrite at its default (R41, decision D21). Safe. -/
  | otherSfr
  /-- Raised by a read of a PSV-mapped address on a device that leaves PsvRead at its default (R47, decision D23).
  Safe. -/
  | psvRead
  /-- Raised by a write to a PSV-mapped address (R61). Safe. -/
  | psvWrite
  /-- Raised by a Y prefetch of a PSV-mapped address (R63, decision D23). Safe. -/
  | psvYPrefetch
  /-- Raised by a byte MOV with a register, literal or direct operand (R187, decision D27). Safe. -/
  | byteFormNotDescribed
  /-- Raised by DO, which the spec says a model refuses (R191). Safe. -/
  | doNotDescribed
  /-- Raised by POP, whose stack discipline is not in the source (R200, decision D1). Safe. -/
  | popNotDescribed
  /-- Raised by RETURN, of which nothing but the implicit indirect read is in the source (R201). Safe. -/
  | returnNotDescribed
  /-- Raised by RETFIE, of which nothing but the implicit indirect read is in the source (R202). Safe. -/
  | retfieNotDescribed
  /-- Raised by RETLW, of which nothing but the implicit indirect read is in the source (R203). Safe. -/
  | retlwNotDescribed
  /-- Raised by ULNK, of which nothing but the implicit indirect read is in the source (R204). Safe. -/
  | ulnkNotDescribed
deriving DecidableEq, Repr

/-- The bytes of data RAM and DMA RAM that have been written, by address, strictly rising (R13). An address that is not
listed holds no value: D0 gives RAM no reset value (R28). -/
abbrev Memory := List Host.Cell

/-- The hazard latch `hz`: which of the six control registers the preceding instruction wrote (R30). -/
structure HazardLatch where
  modcon : Bool
  xmodsrt : Bool
  xmodend : Bool
  ymodsrt : Bool
  ymodend : Bool
  xbrev : Bool
deriving DecidableEq, Repr

/-- The empty latch. -/
def HazardLatch.empty : HazardLatch := ⟨false, false, false, false, false, false⟩

/-- One byte the DMA controller writes (R70). -/
structure DmaWrite where
  addr : Nat
  value : Byte
deriving DecidableEq, Repr

/-- The state of the machine. -/
structure State where
  /-- W0 to W15 (R10) -/
  w : Vector Word 16
  /-- data RAM and DMA RAM (R13) -/
  mem : Memory
  /-- MODCON (R15) -/
  modcon : Word
  /-- XMODSRT (R20) -/
  xmodsrt : Word
  /-- XMODEND (R21) -/
  xmodend : Word
  /-- YMODSRT (R22) -/
  ymodsrt : Word
  /-- YMODEND (R23) -/
  ymodend : Word
  /-- XBREV (R24) -/
  xbrev : Word
  /-- the hazard latch (R30) -/
  hz : HazardLatch
  /-- `hz_old`, MODCON as it was before the preceding instruction (R30) -/
  hzOldModcon : Word
  /-- `hz_old`, XBREV as it was before the preceding instruction (R30) -/
  hzOldXbrev : Word
  /-- the repeat counter (R31) -/
  rc : Nat
  /-- the fault record (R32) -/
  faultRecord : Option AddressErrorCause
  /-- the accumulators (R12, R195) -/
  acc : Accumulators
  /-- what the SFRs other than the six control registers hold, all of it in one abstract content (R41, R3's SfrRead and
  SfrWrite; log 22) -/
  sfrs : Nat
  /-- the statement index that stands in for a program counter (R12, decision D19) -/
  pc : Nat
  /-- the device, a parameter of the step (R3, R33; log 4) -/
  dev : Dev
  /-- the program text, a parameter of the step: one statement a line (R2, R33; log 4) -/
  program : List (List Byte)
  /-- the addresses the program's own names stand for (R84; log 4) -/
  symbols : SymbolTable
  /-- what the DMA controller will write: one burst before each instruction and one between every two operand accesses of
  an instruction (R70, the model's own field; log 23) -/
  dma : List (List DmaWrite)
  /-- how many free values have been drawn (the model's own field; log 36) -/
  freeCount : Nat
deriving DecidableEq, Repr

/-- The machine right after reset (R240). The values the spec does not give are logged: W0 to W15 PRESUMED (log 7), the
five registers of R28 and `hz_old` DESIGN CHOICE (log 8), the accumulators DESIGN CHOICE (log 9), the other SFRs DESIGN CHOICE (log 22), the device PRESUMED
(log 6), no program and no symbols (log 5), no DMA action (log 23), no free value drawn (log 36). -/
def State.reset : State where
  w := (Vector.replicate 16 0).set 15 0x0800
  mem := []
  modcon := 0
  xmodsrt := 0
  xmodend := 1
  ymodsrt := 0
  ymodend := 1
  xbrev := 0
  hz := HazardLatch.empty
  hzOldModcon := 0
  hzOldXbrev := 0
  rc := 0
  faultRecord := none
  acc := ⟨0, 0⟩
  sfrs := 0
  pc := 0
  dev := Config.exampleDev
  program := []
  symbols := []
  dma := []
  freeCount := 0

end Sys2Proof.Machine
end

