-- ==== Sys2Proof/Machine/DevMap.lean ====
section
/-!
DEFINITION. The device's memory map: `Dev.kind`, `Dev.space`, `Dev.impl` of spec R3 computed from the regions of a
device, the control register at an address (R41), and which device records are admitted (R3, U37).
-/
namespace Sys2Proof

/-- The region of the map a byte address above the SFR range lies in. -/
def Dev.regionAt (d : Dev) (a : Nat) : Option Region :=
  d.regions.find? fun r => r.first ≤ a && a ≤ r.last

/-- `Dev.kind` (R3): SFR exactly below 0x0800 (R41), elsewhere what the region holds, else nothing. -/
def Dev.kind (d : Dev) (a : Nat) : AddrKind :=
  if a ≤ 0x07FF then .sfr
  else
    match d.regionAt a with
    | none => .absent
    | some r =>
      match r.kind with
      | .ram => .ram
      | .dpsram => .dpsram
      | .psv => .psv

/-- `Dev.space` (R3, R46): X for every address that is not in the Y block. -/
def Dev.space (d : Dev) (a : Nat) : Space :=
  if a ≤ 0x07FF then .x
  else
    match d.regionAt a with
    | none => .x
    | some r => r.space

/-- `Dev.impl` (R3): a register or RAM backs the word that holds the address. -/
def Dev.impl (d : Dev) (a : Nat) : Bool :=
  match d.kind a with
  | .sfr => true
  | .ram => true
  | .dpsram => true
  | .psv => false
  | .absent => false

/-- The address of a control register on the device (R3, R41). -/
def Dev.addrOf (d : Dev) : CtrlReg → Word
  | .modcon => d.addrModcon
  | .xmodsrt => d.addrXmodsrt
  | .xmodend => d.addrXmodend
  | .ymodsrt => d.addrYmodsrt
  | .ymodend => d.addrYmodend
  | .xbrev => d.addrXbrev

/-- The control register whose word is at an even address, if one is (R41). -/
def Dev.ctrlAt (d : Dev) (a : Word) : Option CtrlReg :=
  if a = d.addrModcon then some .modcon
  else if a = d.addrXmodsrt then some .xmodsrt
  else if a = d.addrXmodend then some .xmodend
  else if a = d.addrYmodsrt then some .ymodsrt
  else if a = d.addrYmodend then some .ymodend
  else if a = d.addrXbrev then some .xbrev
  else none

/-- A region R3 admits: word-aligned, above the SFR range, PSV only in the upper half and on the X side (R47, R63), DMA
RAM only on a device that has it (R70). -/
def Region.wf (hasDmaRam : Bool) (r : Region) : Bool :=
  r.first % 2 == 0 && r.last % 2 == 1 && decide (0x0800 ≤ r.first) && decide (r.first ≤ r.last) &&
    decide (r.last ≤ 0xFFFF) &&
    match r.kind with
    | .ram => true
    | .dpsram => hasDmaRam
    | .psv => decide (0x8000 ≤ r.first) && decide (r.space = .x)

/-- The device's control-register addresses. -/
def Dev.addrs (d : Dev) : List Word :=
  [d.addrModcon, d.addrXmodsrt, d.addrXmodend, d.addrYmodsrt, d.addrYmodend, d.addrXbrev]

/-- The device records R3 admits (U37): admitted regions, even and distinct register addresses in SFR space, and RAM in
the X block at 0x0800 (R43). -/
def Dev.wf (d : Dev) : Bool :=
  d.regions.all (Region.wf d.hasDmaRam) && d.addrs.all (fun a => a.toNat % 2 == 0 && decide (a.toNat ≤ 0x07FE)) &&
    decide d.addrs.Nodup && decide (d.kind 0x0800 = .ram) && decide (d.space 0x0800 = .x)

/-- Near data memory (R42): the addresses a 13-bit absolute address field reaches. -/
def isNear (a : Word) : Bool := decide (a.toNat ≤ 0x1FFF)

end Sys2Proof
end

