-- ==== Sys2Proof/Machine/Ops.lean ====
section
/-!
DEFINITION. The named operations over registers and memory: the working registers (spec R10), the control registers with
their access types (R14), the bytes of data memory (R13), the four access primitives MemRead, MemWrite, MemReadX and
MemReadY (R60 to R63), recording an address error (R220, R223), free values, the pc and the repeat counter (R181, R190),
and the DMA controller's turn (R70). There is no exception entry and no return in the spec (R223, R225, R226): the record
is all an address error does.
-/
namespace Sys2Proof.Machine

/-- A computation that gives a value and a state, or stops. -/
abbrev Result (α : Type) := Host.Outcome (α × State) Fault Refusal

/-- What an instruction gives: a state, or a stop. -/
abbrev StepResult := Host.Outcome State Fault Refusal

/-- Go on with the value and state of a computation that did not stop. A later stop is the outcome, although an earlier
read of the same instruction has recorded an address error: no state is left to hold the record (DESIGN CHOICE, log 41;
R224 orders two address errors only). -/
def andThen {α β : Type} (r : Result α) (k : α → State → Host.Outcome β Fault Refusal) :
    Host.Outcome β Fault Refusal :=
  match r with
  | .next p => k p.1 p.2
  | .fault f => .fault f
  | .refused q => .refused q

/-! ### Working registers (R10) -/

/-- `W[r]` (R10): no alias, no hard-wired value, no bank. -/
def State.getW (s : State) (r : Reg) : Word := s.w[r.val]

/-- `W[r] <- v` (R10). -/
def State.setW (s : State) (r : Reg) (v : Word) : State := { s with w := s.w.set r.val v }

/-! ### Control registers (R14) -/

/-- What a control register holds of a 16-bit value (R14, R15, R20 to R24): MODCON[13:12] read 0, bit 0 of the start
registers is fixed at 0 and of the end registers at 1. -/
def CtrlReg.fix (r : CtrlReg) (v : Word) : Word :=
  match r with
  | .modcon => v &&& 0xCFFF
  | .xmodsrt => v &&& 0xFFFE
  | .xmodend => v ||| 0x0001
  | .ymodsrt => v &&& 0xFFFE
  | .ymodend => v ||| 0x0001
  | .xbrev => v

/-- The stored bits of a control register. -/
def State.storedCtrl (s : State) : CtrlReg → Word
  | .modcon => s.modcon
  | .xmodsrt => s.xmodsrt
  | .xmodend => s.xmodend
  | .ymodsrt => s.ymodsrt
  | .ymodend => s.ymodend
  | .xbrev => s.xbrev

/-- A read of a control register (R14): the stored bits, with the unimplemented and fixed bits as printed. It has no side
effect (R74). -/
def State.readCtrl (s : State) (r : CtrlReg) : Word := CtrlReg.fix r (s.storedCtrl r)

/-- Put a register into the hazard latch (R250). -/
def HazardLatch.add (h : HazardLatch) : CtrlReg → HazardLatch
  | .modcon => { h with modcon := true }
  | .xmodsrt => { h with xmodsrt := true }
  | .xmodend => { h with xmodend := true }
  | .ymodsrt => { h with ymodsrt := true }
  | .ymodend => { h with ymodend := true }
  | .xbrev => { h with xbrev := true }

/-- Store the writable bits of a control register (R14). -/
def State.storeCtrl (s : State) (r : CtrlReg) (v : Word) : State :=
  match r with
  | .modcon => { s with modcon := CtrlReg.fix .modcon v }
  | .xmodsrt => { s with xmodsrt := CtrlReg.fix .xmodsrt v }
  | .xmodend => { s with xmodend := CtrlReg.fix .xmodend v }
  | .ymodsrt => { s with ymodsrt := CtrlReg.fix .ymodsrt v }
  | .ymodend => { s with ymodend := CtrlReg.fix .ymodend v }
  | .xbrev => { s with xbrev := CtrlReg.fix .xbrev v }

/-- A write of a control register: its writable bits are stored (R14) and the register is recorded in the hazard latch
(R61, R250). -/
def State.writeCtrl (s : State) (r : CtrlReg) (v : Word) : State :=
  { s.storeCtrl r v with hz := s.hz.add r }

/-! ### Bytes of memory (R13) -/

/-- The byte at an address, if something has written it. -/
def Memory.read (m : Memory) (a : Nat) : Option Byte :=
  match m with
  | [] => none
  | c :: rest => if c.1 = a then some c.2 else Memory.read rest a

/-- Write one byte, keeping the addresses strictly rising. -/
def Memory.write (m : Memory) (a : Nat) (b : Byte) : Memory :=
  match m with
  | [] => [(a, b)]
  | c :: rest =>
    if a < c.1 then (a, b) :: c :: rest
    else if a = c.1 then (a, b) :: rest
    else c :: Memory.write rest a b

/-- Every listed address is above `lo`, and the addresses rise strictly. -/
def Memory.risingFrom (lo : Nat) (m : Memory) : Bool :=
  match m with
  | [] => true
  | c :: rest => decide (lo < c.1) && Memory.risingFrom c.1 rest

/-- The canonical form of memory: strictly rising addresses. An unlisted address holds no value, so no listed byte can
equal what an unlisted address reads as. -/
def Memory.wf (m : Memory) : Bool :=
  match m with
  | [] => true
  | c :: rest => Memory.risingFrom c.1 rest

/-- Write one byte of memory. -/
def State.setByte (s : State) (a : Nat) (b : Byte) : State := { s with mem := Memory.write s.mem a b }

/-- Write a word at an even address, least significant byte at the even address (R50). -/
def State.setWord (s : State) (a : Nat) (v : Word) : State :=
  (s.setByte a (v.extractLsb' 0 8)).setByte (a + 1) (v.extractLsb' 8 8)

/-! ### Recording an address error, free values -/

/-- `raise AddressError(cause)` (R220, R223): the cause is recorded; a record already there is kept, since it is never
cleared and the first cause is the one reported (R32, R224; log 14). -/
def State.raise (s : State) (c : AddressErrorCause) : State :=
  { s with
    faultRecord :=
      match s.faultRecord with
      | none => some c
      | some c₀ => some c₀ }

/-- Load a free value into a working register (logs 12 and 40). -/
def State.drawInto (s : State) (r : Reg) : State :=
  { s.setW r (Config.freeWord s.freeCount) with freeCount := s.freeCount + 1 }

/-- Load free values into working registers, one after the other. -/
def State.drawAll (s : State) : List Reg → State
  | [] => s
  | r :: rs => (s.drawInto r).drawAll rs

/-- What the SFRs other than the six control registers hold after an access to one, drawn as a free value (R41, log 22). -/
def State.setSfrs (s : State) (content : Nat) : State := { s with sfrs := content, freeCount := s.freeCount + 1 }

/-! ### Addresses and bytes of words -/

/-- Bit 0 of a byte address (R53). -/
def isOdd (a : Word) : Bool := a.getLsbD 0

/-- The address of the word that holds a byte: bit 0 cleared. -/
def wordAddr (a : Word) : Word := a &&& 0xFFFE

/-- Two bytes as a word, the second the less significant (R50). -/
def wordOfBytes (hi lo : Byte) : Word := hi ++ lo

/-- What a 16-bit cell delivers on the data bus (R52, R60): the word, or the addressed byte on the lower 8 bits. -/
def onBus (sz : Size) (a : Word) (v : Word) : Word :=
  match sz with
  | .word => v
  | .byte => if isOdd a then (v.extractLsb' 8 8).zeroExtend 16 else (v.extractLsb' 0 8).zeroExtend 16

/-- The `8n` bits of an access of a size, on the lower bits of the bus (R52). -/
def onLowBits (sz : Size) (v : Word) : Word :=
  match sz with
  | .word => v
  | .byte => (v.extractLsb' 0 8).zeroExtend 16

/-- A 16-bit cell after a write of the bus value `v` (R61): the word, or one of its bytes replaced. -/
def merged (sz : Size) (a : Word) (old v : Word) : Word :=
  match sz with
  | .word => v
  | .byte =>
    if isOdd a then wordOfBytes (v.extractLsb' 0 8) (old.extractLsb' 0 8)
    else wordOfBytes (old.extractLsb' 8 8) (v.extractLsb' 0 8)

/-! ### The access primitives (R60 to R63) -/

/-- RAM bytes (R50, R52): a byte, or the word `M[a+1] ++ M[a]`. A byte nothing has written has no value (R240). -/
def readRam (s : State) (a : Word) (sz : Size) : Result Word :=
  match sz with
  | .byte =>
    match Memory.read s.mem a.toNat with
    | some b => .next (b.zeroExtend 16, s)
    | none => .fault .unwrittenRead
  | .word =>
    match Memory.read s.mem (a.toNat + 1), Memory.read s.mem a.toNat with
    | some hi, some lo => .next (wordOfBytes hi lo, s)
    | _, _ => .fault .unwrittenRead

/-- `Dev.SfrRead(a, n)` (R41, decision D21): refused where the device leaves it at its default, else a free value, which
may change what the SFRs hold (log 22). A byte is delivered on the lower 8 bits (R52). -/
def readOtherSfr (s : State) (a : Word) (sz : Size) : Result Word :=
  match s.dev.sfrRead with
  | .refuse => .refused .otherSfr
  | .given =>
    let r := Config.sfrRead s.freeCount s.sfrs a sz
    .next (onLowBits sz r.1, s.setSfrs r.2)

/-- `Dev.PsvRead(a, n)` (R47, decision D23): refused where the device leaves it at its default, else a free value
(log 22). -/
def readPsv (s : State) (a : Word) (sz : Size) : Result Word :=
  match s.dev.psvRead with
  | .refuse => .refused .psvRead
  | .given =>
    .next (onLowBits sz (Config.psvRead s.freeCount s.sfrs a sz), { s with freeCount := s.freeCount + 1 })

/-- `Dev.SfrWrite(a, n, v)` (R41, decision D21): refused where the device leaves it at its default, else the SFRs hold
what the free value of that parameter says (log 22). -/
def writeOtherSfr (s : State) (a : Word) (sz : Size) (v : Word) : StepResult :=
  match s.dev.sfrWrite with
  | .refuse => .refused .otherSfr
  | .given =>
    .next (s.setSfrs (Config.sfrWrite s.freeCount s.sfrs a sz (onLowBits sz v)))

/-- The part of MemRead after the alignment test (R60). -/
def readAligned (s : State) (a : Word) (sz : Size) : Result Word :=
  match s.dev.kind (wordAddr a).toNat with
  | .absent => .next (0, s.raise .unimplementedRead)
  | .psv => readPsv s a sz
  | .sfr =>
    match s.dev.ctrlAt (wordAddr a) with
    | some r => .next (onBus sz a (s.readCtrl r), s)
    | none => readOtherSfr s a sz
  | .ram => readRam s a sz
  | .dpsram => readRam s a sz

/-- The split-view X read after the alignment test (R62). -/
def readAlignedX (s : State) (a : Word) : Result Word :=
  match s.dev.kind a.toNat with
  | .absent => .next (0, s.raise .unimplementedRead)
  | .psv => readPsv s a .word
  | .sfr => readAligned s a .word
  | .ram => if s.dev.space a.toNat = .y then .next (0, s) else readAligned s a .word
  | .dpsram => if s.dev.space a.toNat = .y then .next (0, s) else readAligned s a .word

/-- The split-view Y read after the alignment test (R63). -/
def readAlignedY (s : State) (a : Word) : Result Word :=
  match s.dev.kind a.toNat with
  | .absent => .next (0, s.raise .unimplementedRead)
  | .psv => .refused .psvYPrefetch
  | .sfr => .next (0, s)
  | .ram => if s.dev.space a.toNat = .x then .next (0, s) else readRam s a .word
  | .dpsram => if s.dev.space a.toNat = .x then .next (0, s) else readRam s a .word

/-- A misaligned word read (R53, R222): the error is recorded and the read completes with what the aligned read
delivers; where nothing is known of that word, a free value is delivered (log 13). -/
def completeMisaligned (s : State) (aligned : State → Result Word) : Result Word :=
  match aligned (s.raise .misalignedRead) with
  | .next p => .next p
  | .fault _ =>
    .next (Config.freeWord s.freeCount, { s.raise .misalignedRead with freeCount := s.freeCount + 1 })
  | .refused _ =>
    .next (Config.freeWord s.freeCount, { s.raise .misalignedRead with freeCount := s.freeCount + 1 })

/-- `MemRead(a, n)` (R60), the combined view. A byte is delivered on the lower 8 bits of the bus (R52). -/
def memRead (s : State) (a : Word) (sz : Size) : Result Word :=
  if sz = .word ∧ isOdd a = true then completeMisaligned s fun t => readAligned t (wordAddr a) .word
  else readAligned s a sz

/-- `MemReadX(a)` (R62): the X prefetch of a DSP-class instruction. -/
def memReadX (s : State) (a : Word) : Result Word :=
  if isOdd a = true then completeMisaligned s fun t => readAlignedX t (wordAddr a) else readAlignedX s a

/-- `MemReadY(a)` (R63): the Y prefetch of a DSP-class instruction. -/
def memReadY (s : State) (a : Word) : Result Word :=
  if isOdd a = true then completeMisaligned s fun t => readAlignedY t (wordAddr a) else readAlignedY s a

/-- The address error a read raises, if any (R60, R62, R63, R220): the alignment test comes first (R224). -/
def readTrap (d : Dev) (a : Word) (sz : Size) : Option AddressErrorCause :=
  if sz = .word ∧ isOdd a = true then some .misalignedRead
  else if d.kind (wordAddr a).toNat = .absent then some .unimplementedRead
  else none

/-- The address error a write raises, if any (R61, R220): the alignment test comes first (R224). -/
def writeTrap (d : Dev) (a : Word) (sz : Size) : Option AddressErrorCause :=
  if sz = .word ∧ isOdd a = true then some .misalignedWrite
  else if d.kind (wordAddr a).toNat = .absent then some .unimplementedWrite
  else none

/-- RAM bytes written: the word's two bytes, or the addressed byte, which leaves the other half of its word (R52, R61). -/
def writeRam (s : State) (a : Word) (sz : Size) (v : Word) : State :=
  match sz with
  | .byte => s.setByte a.toNat (v.extractLsb' 0 8)
  | .word => s.setWord a.toNat v

/-- `MemWrite(a, n, v)` (R61), the combined view: every write of every instruction class uses it (R44). -/
def memWrite (s : State) (a : Word) (sz : Size) (v : Word) : StepResult :=
  match writeTrap s.dev a sz with
  | some c => .next (s.raise c)
  | none =>
    match s.dev.kind (wordAddr a).toNat with
    | .absent => .next (s.raise .unimplementedWrite)
    | .psv => .refused .psvWrite
    | .sfr =>
      match s.dev.ctrlAt (wordAddr a) with
      | some r => .next (s.writeCtrl r (merged sz a (s.readCtrl r) v))
      | none => writeOtherSfr s a sz v
    | .ram => .next (writeRam s a sz v)
    | .dpsram => .next (writeRam s a sz v)

/-- The read of an operand whose address generation has updated the pointer registers `touched`. Where the read is an
offending one, nothing is to be said of a pointer after it (R115, U34): each then holds a free value (log 40). The read
itself completes, and the instruction with it (R222). -/
def readOperand (s : State) (a : Word) (sz : Size) (touched : List Reg) (read : State → Result Word) : Result Word :=
  match readTrap s.dev a sz with
  | some _ => read (s.drawAll touched)
  | none => read s

/-- The write of an instruction that has updated the registers `touched`. Where the write is an offending one, whether
those updates have taken place is not in the spec (R115, R222): each register then holds a free value (log 12). -/
def storeOperand (s : State) (a : Word) (sz : Size) (v : Word) (touched : List Reg) : StepResult :=
  match writeTrap s.dev a sz with
  | some _ => memWrite (s.drawAll touched) a sz v
  | none => memWrite s a sz v

/-! ### Beginning and ending an instruction (R181, R190, R250) -/

/-- What every instruction begins with after its hazard check (R250): the latch is emptied, to be filled with the
registers this instruction writes, and `hz_old` takes the values MODCON and XBREV have before it. -/
def State.start (s : State) : State :=
  { s with
    hz := HazardLatch.empty
    hzOldModcon := s.readCtrl .modcon
    hzOldXbrev := s.readCtrl .xbrev }

/-- The end of an executed instruction (R181 c, R190): to the next statement, or, while the repeat counter is not zero,
to the same statement again with the counter one less. -/
def State.advance (s : State) : State :=
  { s with
    pc := if s.rc = 0 then s.pc + 1 else s.pc
    rc := s.rc - 1 }

/-- End an instruction whose effect gave a state. -/
def finish (r : StepResult) : StepResult :=
  match r with
  | .next s => .next s.advance
  | .fault f => .fault f
  | .refused q => .refused q

/-! ### The DMA controller (R70, decision D16) -/

/-- One byte written by the DMA controller: it reaches the DPSRAM and nothing else. -/
def dmaWrite (d : Dev) (m : Memory) (x : DmaWrite) : Memory :=
  if d.hasDmaRam = true ∧ d.kind x.addr = .dpsram then Memory.write m x.addr x.value else m

/-- A burst of bytes written by the DMA controller. -/
def dmaBurst (d : Dev) (m : Memory) : List DmaWrite → Memory
  | [] => m
  | x :: xs => dmaBurst d (dmaWrite d m x) xs

/-- The DMA controller's turn, before an instruction and between two operand accesses of one (R70, log 23): the next
burst of its schedule, if there is one, reaches memory. -/
def State.dmaTurn (s : State) : State :=
  { s with mem := dmaBurst s.dev s.mem (s.dma.headD []), dma := s.dma.tail }

end Sys2Proof.Machine
end

