-- ==== Sys2Proof/Machine/Flags.lean ====
section
/-!
DEFINITION. The conditions instructions test. The spec describes no status flags and no instruction that writes one
(R12, R181 b), so there is no flag computation; what stands here are the select predicates over the control registers
(R29), the reserved settings of YWM (R18), and the hazard check over the latch (R205, R252).
-/
namespace Sys2Proof.Machine

/-- MODCON[15], XMODEN (R16). -/
def State.xmoden (s : State) : Bool := (s.readCtrl .modcon).getLsbD 15

/-- MODCON[14], YMODEN (R16). -/
def State.ymoden (s : State) : Bool := (s.readCtrl .modcon).getLsbD 14

/-- MODCON[11:8], BWM (R17). -/
def State.bwm (s : State) : BitVec 4 := (s.readCtrl .modcon).extractLsb' 8 4

/-- MODCON[7:4], YWM (R18). -/
def State.ywm (s : State) : BitVec 4 := (s.readCtrl .modcon).extractLsb' 4 4

/-- MODCON[3:0], XWM (R19). -/
def State.xwm (s : State) : BitVec 4 := (s.readCtrl .modcon).extractLsb' 0 4

/-- XBREV[15], BREN (R24). -/
def State.bren (s : State) : Bool := (s.readCtrl .xbrev).getLsbD 15

/-- XBREV[14:0], XB (R24). -/
def State.xb (s : State) : BitVec 15 := (s.readCtrl .xbrev).extractLsb' 0 15

/-- A 4-bit register select field selects register `n`: it is not `1111`, which disables, and it is `n` (R17 to R19). -/
def selects (field : BitVec 4) (n : Reg) : Bool := field != 15#4 && field.toNat == n.val

/-- `XModSel(n)` (R29). -/
def State.xModSel (s : State) (n : Reg) : Bool := s.xmoden && selects s.xwm n

/-- `YModSel(n)` (R29). -/
def State.yModSel (s : State) (n : Reg) : Bool := s.ymoden && selects s.ywm n

/-- `BitRevSel(n)` (R29). -/
def State.bitRevSel (s : State) (n : Reg) : Bool := s.bren && selects s.bwm n

/-- The settings of YWM that are reserved (R18): all but `1010`, `1011` and `1111`. -/
def ywmReserved (ywm : BitVec 4) : Bool := ywm != 10#4 && ywm != 11#4 && ywm != 15#4

/-- The pointer registers of an instruction's indirect reads (R205): none, a list, or, for the four instructions whose
pointer is not in the source, every register (R252). -/
inductive ReadPointers where
  | noRead
  | through (rs : List Reg)
  | every
deriving DecidableEq, Repr

/-- The register a select field names is a pointer of the instruction's reads. -/
def ReadPointers.selectedBy (p : ReadPointers) (field : BitVec 4) : Bool :=
  match p with
  | .noRead => false
  | .through rs => rs.any fun r => selects field r
  | .every => field != 15#4

/-- Whether the instruction reads indirectly at all (R205). -/
def ReadPointers.reads (p : ReadPointers) : Bool :=
  match p with
  | .noRead => false
  | .through _ => true
  | .every => true

/-- `HazardCheck` (R252) finds a violation: an indirect read after a MODCON write (a), after a write of a start or end
register of an enabled modulo buffer through the designated register (b), after an XBREV write with BREN set before it
through the designated register (c). -/
def hazardViolated (s : State) (p : ReadPointers) : Bool :=
  p.reads &&
    (s.hz.modcon ||
      ((s.hz.xmodsrt || s.hz.xmodend) && s.xmoden && p.selectedBy s.xwm) ||
      ((s.hz.ymodsrt || s.hz.ymodend) && s.ymoden && p.selectedBy s.ywm) ||
      (s.hz.xbrev && s.hzOldXbrev.getLsbD 15 && p.selectedBy s.bwm))

/-- What every instruction does around its own effect (R181 d): the hazard check first; if it holds, the effect on the
state whose latch has been emptied. A violation is a fault of the model (R252). -/
def guarded (p : ReadPointers) (s : State) (effect : State → StepResult) : StepResult :=
  if hazardViolated s p = true then .fault .hazardViolated else effect s.start

end Sys2Proof.Machine
end

