-- ==== Sys2Proof/Machine/Operands.lean ====
section
/-!
DEFINITION. The address generator units (spec R100 to R116): the mode table R105, the modulo adjustment R136, the
reverse-carry addition R163, `Operand` R110, and the operand forms of MOV (R187) and of a DSP-class instruction (R195)
over them.
-/
namespace Sys2Proof.Machine

/-- The three address generators (R100). -/
inductive Agu where
  | xRagu
  | xWagu
  | yAgu
deriving DecidableEq, Repr

/-- Every addressing mode of R105: the MCU modes, and the DSP-class post-modification `[Wn]+=k`. -/
inductive AddrMode where
  | mcu (m : McuMode)
  | postMod (k : Int)
deriving DecidableEq, Repr

/-- The kind column of R105. -/
inductive MoveKind where
  | still
  | post
  | pre
  | offset
deriving DecidableEq, Repr

/-- `step(size)` (R104). -/
def stepOf : Size → Int
  | .byte => 1
  | .word => 2

/-- The amount by which an access moves the address, and how (the delta and kind columns of R105). An index register's
contents are signed (R107). -/
def moveOf (s : State) (sz : Size) : AddrMode → Int × MoveKind
  | .mcu .indirect => (0, .still)
  | .mcu .postInc => (stepOf sz, .post)
  | .mcu .postDec => (-stepOf sz, .post)
  | .mcu .preInc => (stepOf sz, .pre)
  | .mcu .preDec => (-stepOf sz, .pre)
  | .mcu (.indexed x) => ((s.getW x).toInt, .offset)
  | .mcu (.offset k) => (k, .offset)
  | .postMod k => (k, .post)

/-- The least `n` from `n` on, within `fuel` steps, with `2^n ≥ len`. -/
def leastExponentFrom : Nat → Nat → Nat → Nat
  | 0, n, _ => n
  | fuel + 1, n, len => if len ≤ 2 ^ n then n else leastExponentFrom fuel (n + 1) len

/-- The least `n` with `2^n ≥ len`, for a length of at most 65536 bytes (R131, R136). -/
def leastExponent (len : Nat) : Nat := leastExponentFrom 16 0 len

/-- `ModAdjust(S, E, p, delta, size)` (R136): the address that replaces `p + delta` in the buffer from `start` to
`stop`. The size does not enter the computation. -/
def modAdjust (start stop p : Nat) (delta : Int) : Except Refusal Int :=
  let len : Int := (stop : Int) - start + 1
  let n := leastExponent len.toNat
  let a : Int := p + delta
  if len < 2 then .error .moduloEndBelowStart
  else if p < start ∨ stop < p then .error .moduloPointerOutside
  else if 0 < delta then
    if start % 2 ^ n ≠ 0 then .error .moduloStartNotOnZeros
    else if stop + len < a then .error .moduloJumpTooLong
    else .ok (if (stop : Int) < a then a - len else a)
  else if delta < 0 then
    if stop % 2 ^ n ≠ 2 ^ n - 1 then .error .moduloEndNotOnOnes
    else if a < start - len then .error .moduloJumpTooLong
    else .ok (if a < (start : Int) then a + len else a)
  else .ok a

/-- Table 3-2 (R25): the modifier values that give valid bit-reversed sequences, with their buffer sizes in words. -/
def modifierTable : List (BitVec 15 × Nat) :=
  [(0x4000, 32768), (0x2000, 16384), (0x1000, 8192), (0x0800, 4096), (0x0400, 2048), (0x0200, 1024), (0x0100, 512),
    (0x0080, 256), (0x0040, 128), (0x0020, 64), (0x0010, 32), (0x0008, 16), (0x0004, 8), (0x0002, 4), (0x0001, 2)]

/-- A modifier is one of Table 3-2 (R164). -/
def modifierValid (xb : BitVec 15) : Bool := modifierTable.any fun row => row.1 == xb

/-- The addition of `RevCarryAdd` (R163): the word address and the modifier mirrored, added, and mirrored back; bit 0 of
the pointer is not changed. -/
def revCarrySum (p : Word) (xb : BitVec 15) : Word :=
  (BitVec.reverse (BitVec.reverse (p.extractLsb' 1 15) + BitVec.reverse xb) ++ p.extractLsb' 0 1 : BitVec 16)

/-- `RevCarryAdd(p, xb)` (R163), refused for a modifier that is not in Table 3-2 (R164). -/
def revCarryAdd (p : Word) (xb : BitVec 15) : Except Refusal Word :=
  if modifierValid xb = true then .ok (revCarrySum p xb) else .error .modifierNotValid

/-- The bounds of the modulo buffer an access is subject to, if any (R110 step 2, R133): the X registers for both halves
of the X AGU, the Y registers for the Y AGU. -/
def moduloBounds (s : State) (agu : Agu) (n : Reg) : Option (Word × Word) :=
  match agu with
  | .xRagu => if s.xModSel n = true then some (s.readCtrl .xmodsrt, s.readCtrl .xmodend) else none
  | .xWagu => if s.xModSel n = true then some (s.readCtrl .xmodsrt, s.readCtrl .xmodend) else none
  | .yAgu => if s.yModSel n = true then some (s.readCtrl .ymodsrt, s.readCtrl .ymodend) else none

/-- The end of `Operand` (R110): with the moved address `a` of the pointer `p`, the effective address, and the pointer
register updated in the modes that update it (R105, R140). -/
def placeAddress (s : State) (n : Reg) (p a : Word) : MoveKind → Word × State
  | .still => (p, s)
  | .post => (p, s.setW n a)
  | .pre => (a, s.setW n a)
  | .offset => (a, s)

/-- Steps 2 and 3 of `Operand` (R110): modulo addressing where the register is selected for it, else linear addressing,
which wraps modulo 2^16 (R106). -/
def plainOperand (s : State) (agu : Agu) (mode : AddrMode) (n : Reg) (sz : Size) : Result Word :=
  let p := s.getW n
  let mv := moveOf s sz mode
  match moduloBounds s agu n with
  | none => .next (placeAddress s n p (BitVec.ofInt 16 (p.toNat + mv.1)) mv.2)
  | some (lo, hi) =>
    if mv.1 = 0 then .next (placeAddress s n p p mv.2)
    else
      match modAdjust lo.toNat hi.toNat p.toNat mv.1 with
      | .error r => .refused r
      | .ok a => .next (placeAddress s n p (BitVec.ofInt 16 a) mv.2)

/-- Bit-reversed addressing acts on word writes with `[Wn++]` and `[++Wn]` only (R161). -/
def bitReversible (sz : Size) (mode : AddrMode) : Option MoveKind :=
  match sz, mode with
  | .word, .mcu .postInc => some .post
  | .word, .mcu .preInc => some .pre
  | _, _ => none

/-- `Operand(agu, mode, n, size)` (R110): the effective address of one operand and the pointer's update; bit-reversed
addressing for writes first (R111), refused where it is selected with X modulo and does not act (R112). -/
def operand (s : State) (agu : Agu) (mode : AddrMode) (n : Reg) (sz : Size) : Result Word :=
  if agu = .xWagu ∧ s.bitRevSel n = true then
    match bitReversible sz mode with
    | some kind =>
      match revCarryAdd (s.getW n) s.xb with
      | .error r => .refused r
      | .ok a => .next (placeAddress s n (s.getW n) a kind)
    | none => if s.xModSel n = true then .refused .bitReversalOrModulo else plainOperand s agu mode n sz
  else plainOperand s agu mode n sz

/-- `Operand` for the Y prefetch, refused while YMODEN = 1 with a reserved YWM (R134). -/
def operandY (s : State) (k : Int) (n : Reg) : Result Word :=
  if s.ymoden = true ∧ ywmReserved s.ywm = true then .refused .reservedYwm
  else operand s .yAgu (.postMod k) n .word

/-! ### The operands of MOV (R187) -/

/-- The register a memory operand updates, if its mode updates one (the upd column of R105). -/
def MemOperand.updates (o : MemOperand) : List Reg :=
  match o.mode with
  | .indirect => []
  | .postInc => [o.ptr]
  | .postDec => [o.ptr]
  | .preInc => [o.ptr]
  | .preDec => [o.ptr]
  | .indexed _ => []
  | .offset _ => []

/-- The registers a memory operand names: its pointer and its index. -/
def MemOperand.names (o : MemOperand) : List Reg :=
  match o.mode with
  | .indirect => [o.ptr]
  | .postInc => [o.ptr]
  | .postDec => [o.ptr]
  | .preInc => [o.ptr]
  | .preDec => [o.ptr]
  | .indexed x => [o.ptr, x]
  | .offset _ => [o.ptr]

/-- The pointer register a source updates. -/
def MovSrc.updates : MovSrc → List Reg
  | .reg _ => []
  | .lit _ => []
  | .direct _ => []
  | .mem o => MemOperand.updates o

/-- The registers a source names. -/
def MovSrc.names : MovSrc → List Reg
  | .reg r => [r]
  | .lit _ => []
  | .direct _ => []
  | .mem o => MemOperand.names o

/-- The pointer register a destination updates. -/
def MovDst.updates : MovDst → List Reg
  | .reg _ => []
  | .direct _ => []
  | .mem o => MemOperand.updates o

/-- The registers a destination names. -/
def MovDst.names : MovDst → List Reg
  | .reg r => [r]
  | .direct _ => []
  | .mem o => MemOperand.names o

/-- A source is read from the data space. -/
def MovSrc.accesses : MovSrc → Bool
  | .reg _ => false
  | .lit _ => false
  | .direct _ => true
  | .mem _ => true

/-- A destination is written in the data space. -/
def MovDst.accesses : MovDst → Bool
  | .reg _ => false
  | .direct _ => true
  | .mem _ => true

/-- The DMA controller's turn between the read and the write of a MOV that makes both (R70, decision D16). -/
def turnBetween (src : MovSrc) (dst : MovDst) (s : State) : State :=
  if (MovSrc.accesses src && MovDst.accesses dst) = true then s.dmaTurn else s

/-- The register conflicts of R114 (decision D25): one operand updates a pointer register that the other names in any
role. -/
def movConflict (src : MovSrc) (dst : MovDst) : Bool :=
  (MovSrc.updates src).any (fun r => (MovDst.names dst).contains r) ||
    (MovDst.updates dst).any (fun r => (MovSrc.names src).contains r)

/-- The indirect reads of a MOV (R205): a memory source reads through its pointer, the base in the indexed mode; nothing
else of a MOV is an indirect read. -/
def MovSrc.readPointers : MovSrc → ReadPointers
  | .reg _ => .noRead
  | .lit _ => .noRead
  | .direct _ => .noRead
  | .mem o => .through [o.ptr]

/-- The value of a MOV's source (R187): memory operands through the X RAGU (R101), direct addresses with no AGU (R113). Of a
pointer updated before a read that traps nothing is to be said (R115). -/
def loadSource (s : State) (sz : Size) : MovSrc → Result Word
  | .reg r => .next (s.getW r, s)
  | .lit k => .next (k, s)
  | .direct f => memRead s f sz
  | .mem o => andThen (operand s .xRagu (.mcu o.mode) o.ptr sz) fun ea t =>
      readOperand t ea sz (MemOperand.updates o) fun u => memRead u ea sz

/-- The effect of a MOV's destination (R187): memory operands through the X WAGU (R101), direct addresses with no AGU
(R113). `touched` is the pointer register the source has updated, if any. -/
def storeDestination (s : State) (sz : Size) (v : Word) (touched : List Reg) : MovDst → StepResult
  | .reg r => .next (s.setW r v)
  | .direct f => storeOperand s f sz v touched
  | .mem o =>
    andThen (operand s .xWagu (.mcu o.mode) o.ptr sz) fun ea t =>
      storeOperand t ea sz v (touched ++ MemOperand.updates o)

/-- A byte MOV has a meaning from memory operand to memory operand only (R187, decision D27). -/
def byteFormDescribed (sz : Size) (src : MovSrc) (dst : MovDst) : Bool :=
  match sz with
  | .word => true
  | .byte => src.isMem && dst.isMem

/-- MOV, every form (R180 to R187): the read operand first, then the write operand (R64, R114), with the DMA controller's
turn between the two accesses (R70). -/
def moveOp (s : State) (sz : Size) (src : MovSrc) (dst : MovDst) : StepResult :=
  guarded (MovSrc.readPointers src) s fun t =>
    if byteFormDescribed sz src dst = false then .refused .byteFormNotDescribed
    else if movConflict src dst = true then .refused .registerConflict
    else
      finish
        (andThen (loadSource t sz src) fun v u =>
          storeDestination (turnBetween src dst u) sz v (MovSrc.updates src) dst)

end Sys2Proof.Machine
end

