-- ==== Sys2Proof/Machine/Control.lean ====
section
/-!
DEFINITION. NOP, REPEAT and DO (spec R189 to R191).
-/
namespace Sys2Proof.Machine

/-- `NOP` (R189): only the pc, and the latch is left empty. -/
def execNop (s : State) : StepResult := guarded .noRead s fun t => finish (.next t)

/-- `REPEAT #lit` (R190): `rc := lit`, `pc <- next`. A REPEAT that is itself being repeated loads the counter like any
other (log 20). -/
def execRepeatLit (lit : Nat) (s : State) : StepResult :=
  guarded .noRead s fun t => .next { t with rc := lit, pc := t.pc + 1 }

/-- `DO #lit, label` (R191): "a model refuses it". It is in no row of R205 and its operands read no memory. -/
def execDoLitLabel (_lit : Nat) (_label : List Byte) (s : State) : StepResult :=
  guarded .noRead s fun _ => .refused .doNotDescribed

end Sys2Proof.Machine
end

