-- ==== Sys2Proof/Machine/Dsp.lean ====
section
/-!
DEFINITION. MAC with two prefetches and accumulator write back (spec R195), the one DSP-class instruction of the table.
-/
namespace Sys2Proof.Machine

/-- The register conflicts of a MAC (R114): the pointers Wx, Wy and W13 are updated, so none of them may be a
multiplicand or a prefetch destination, and the two prefetch destinations differ (log 17). -/
def macConflict (m n x xd y yd : Reg) : Bool :=
  [m, n, xd, yd].any (fun r => [x, y, 13].contains r) || xd == yd

/-- The accumulator write back of a MAC (R195): the word `wb` written in the combined view and the accumulators updated.
Where the write is an offending one, the pointers, the prefetch destinations and the accumulators hold free values
(R115, R222; log 12). -/
def macWriteBack (s : State) (wa wb : Word) (acc : Accumulators) (touched : List Reg) : StepResult :=
  match writeTrap s.dev wa .word with
  | some _ =>
    let t := s.drawAll touched
    memWrite { t with acc := Config.freeAccumulators t.freeCount, freeCount := t.freeCount + 1 } wa .word wb
  | none => memWrite { s with acc := acc } wa .word wb

/-- The two prefetches of a MAC (R195): the X prefetch, the Y prefetch, each a split-view read through its pointer, and the
words loaded into their registers. The DMA controller has its turn after each access (R70, decision D16). Of a pointer
after a prefetch that traps nothing is to be said (R115). -/
def macPrefetches (s : State) (x : XPtr) (kx : Int) (xd : Reg) (y : YPtr) (ky : Int) (yd : Reg) : Result Unit :=
  andThen (operand s .xRagu (.postMod kx) x.reg .word) fun xa t₁ =>
    andThen (readOperand t₁ xa .word [x.reg] fun u => memReadX u xa) fun xv t₂ =>
      andThen (operandY t₂.dmaTurn ky y.reg) fun ya t₃ =>
        andThen (readOperand t₃ ya .word [y.reg] fun u => memReadY u ya) fun yv t₄ =>
          .next ((), (t₄.dmaTurn.setW xd xv).setW yd yv)

/-- `MAC Wm*Wn, A, [Wx]+=kx, Wxd, [Wy]+=ky, Wyd, [W13]+=kw` (R195): the multiply uses the registers as they are before
the prefetches; the write back goes through W13 and the X WAGU. The arithmetic is `Dev.MacArith`, opaque (decision
D24). -/
def execMacPrefetchWb (m n : Reg) (x : XPtr) (kx : Int) (xd : Reg) (y : YPtr) (ky : Int) (yd : Reg) (kw : Int)
    (s : State) : StepResult :=
  guarded (.through [x.reg, y.reg]) s fun t =>
    if macConflict m n x.reg xd y.reg yd = true then .refused .registerConflict
    else
      let arith := Config.macArith (t.getW m) (t.getW n) t.acc
      finish
        (andThen (macPrefetches t x kx xd y ky yd) fun _ u =>
          andThen (operand u .xWagu (.postMod kw) 13 .word) fun wa w =>
            macWriteBack w wa arith.2 arith.1 [x.reg, y.reg, xd, yd, 13])

end Sys2Proof.Machine
end

