-- ==== Sys2Proof/Machine/Implicit.lean ====
section
/-!
DEFINITION. The five instructions the spec names only as implicit indirect reads (R200 to R204): each is classified for
the hazard check, which is made first (R181 d), and its execution is refused, since nothing else of it is in the source
(decision D1).
-/
namespace Sys2Proof.Machine

/-- `POP dst` (R200): an indirect read through W15; its stack discipline is not in the source. -/
def execPop (_dst : MovDst) (s : State) : StepResult :=
  guarded (.through [15]) s fun _ => .refused .popNotDescribed

/-- `RETURN` (R201): an implicit indirect read and nothing else in the source. -/
def execReturnCall (s : State) : StepResult := guarded .every s fun _ => .refused .returnNotDescribed

/-- `RETFIE` (R202): an implicit indirect read and nothing else in the source. -/
def execRetfie (s : State) : StepResult := guarded .every s fun _ => .refused .retfieNotDescribed

/-- `RETLW` (R203): an implicit indirect read and nothing else in the source. -/
def execRetlw (_lit : Nat) (_d : Reg) (s : State) : StepResult :=
  guarded .every s fun _ => .refused .retlwNotDescribed

/-- `ULNK` (R204): an implicit indirect read and nothing else in the source. -/
def execUlnk (s : State) : StepResult := guarded .every s fun _ => .refused .ulnkNotDescribed

end Sys2Proof.Machine
end

