-- ==== Sys2Proof/Machine/Move.lean ====
section
/-!
DEFINITION. The MOV family (spec R180 to R187): each row of the table is the one operation `moveOp` at its operand forms.
No flag is written (R181 b).
-/
namespace Sys2Proof.Machine

/-- `MOV #lit16, Wn` (R180): `W[n] <- lit16`. -/
def execMovLitW (lit16 : Word) (d : Reg) (s : State) : StepResult := moveOp s .word (.lit lit16) (.reg d)

/-- `MOV Wn, f` (R182): `MemWrite(f, 2, W[n])`. -/
def execMovWF (src : Reg) (f : Word) (s : State) : StepResult := moveOp s .word (.reg src) (.direct f)

/-- `MOV [Ws], Wd` (R183). -/
def execMovIndW (src d : Reg) (s : State) : StepResult := moveOp s .word (.mem ⟨src, .indirect⟩) (.reg d)

/-- `MOV [Ws++], Wd` (R184); `s = d` is refused. -/
def execMovPostincW (src d : Reg) (s : State) : StepResult := moveOp s .word (.mem ⟨src, .postInc⟩) (.reg d)

/-- `MOV Ws, [Wd++]` (R185); `s = d` is refused. -/
def execMovWPostinc (src d : Reg) (s : State) : StepResult := moveOp s .word (.reg src) (.mem ⟨d, .postInc⟩)

/-- `MOV [Ws++], [Wd++]` (R186); `s = d` is refused. -/
def execMovPostincPostinc (src d : Reg) (s : State) : StepResult :=
  moveOp s .word (.mem ⟨src, .postInc⟩) (.mem ⟨d, .postInc⟩)

/-- `MOV src, dst`, the general form, and the byte form from memory to memory (R187). -/
def execMovGeneral (size : Size) (src : MovSrc) (dst : MovDst) (s : State) : StepResult := moveOp s size src dst

end Sys2Proof.Machine
end

