-- ==== Sys2Proof/Machine/Dispatch.lean ====
section
/-!
DEFINITION. Which meaning each constructor of Instr has: one arm a constructor, one call an arm.
-/
namespace Sys2Proof.Machine

def exec (i : Instr) (s : State) : Host.Outcome State Fault Refusal :=
  match i with
  | .movLitW lit d => Sys2Proof.Machine.execMovLitW lit d s
  | .movWF r f => Sys2Proof.Machine.execMovWF r f s
  | .movIndW r d => Sys2Proof.Machine.execMovIndW r d s
  | .movPostincW r d => Sys2Proof.Machine.execMovPostincW r d s
  | .movWPostinc r d => Sys2Proof.Machine.execMovWPostinc r d s
  | .movPostincPostinc r d => Sys2Proof.Machine.execMovPostincPostinc r d s
  | .movGeneral size src dst => Sys2Proof.Machine.execMovGeneral size src dst s
  | .nop => Sys2Proof.Machine.execNop s
  | .repeatLit lit => Sys2Proof.Machine.execRepeatLit lit s
  | .doLitLabel lit label => Sys2Proof.Machine.execDoLitLabel lit label s
  | .macPrefetchWb m n x kx xd y ky yd kw => Sys2Proof.Machine.execMacPrefetchWb m n x kx xd y ky yd kw s
  | .pop dst => Sys2Proof.Machine.execPop dst s
  | .returnCall => Sys2Proof.Machine.execReturnCall s
  | .retfie => Sys2Proof.Machine.execRetfie s
  | .retlw lit d => Sys2Proof.Machine.execRetlw lit d s
  | .ulnk => Sys2Proof.Machine.execUlnk s

end Sys2Proof.Machine
end

