-- ==== Sys2Proof/Machine/Fetch.lean ====
section
/-!
DEFINITION. Fetching an instruction: the statement at the index that stands in for a program counter (spec R12, decision
D19), read by the decoder with the names of the control registers and the program's own (R84). Program text is no data
memory: no write changes it (R73).
-/
namespace Sys2Proof.Machine

/-- The names a statement may use: the six control registers', then the program's (R41, R84). -/
def State.names (s : State) : SymbolTable := s.dev.symbols ++ s.symbols

/-- The instruction at the statement index, or why there is none. -/
def fetch (s : State) : Except Refusal Instr :=
  match s.program[s.pc]? with
  | none => .error .noStatement
  | some text =>
    match decode s.names text with
    | .ok i => .ok i
    | .error e => .error (.notAStatement e)

/-- A program with one statement replaced, made long enough to hold it. -/
def placeStatement : List (List Byte) → Nat → List Byte → List (List Byte)
  | [], 0, text => [text]
  | _ :: rest, 0, text => text :: rest
  | [], k + 1, text => [] :: placeStatement [] k text
  | line :: rest, k + 1, text => line :: placeStatement rest k text

end Sys2Proof.Machine
end

