-- ==== Sys2Proof/Machine/Step.lean ====
section
/-!
DEFINITION. One step of the machine. A recorded address error is terminal (spec R32, R223): the step faults with it.
Otherwise the DMA controller has its turn before the instruction (R70, log 23) and the statement at the index is fetched and executed.
-/
namespace Sys2Proof.Machine

/-- One step. -/
def step (s : State) : Host.Outcome State Fault Refusal :=
  match s.faultRecord with
  | some c => .fault (.addressError c)
  | none =>
    match fetch s.dmaTurn with
    | .error r => .refused r
    | .ok i => exec i s.dmaTurn

/-- The state with the statement whose bytes are the bits of `w` placed where the next step fetches: at the statement
index of the program text. It stands for the load of a program from outside the machine (log 5). -/
def State.withFetchWord (s : State) (nbits w : Nat) : State :=
  { s with program := placeStatement s.program s.pc (bytesOfBits nbits w) }

end Sys2Proof.Machine
end

