-- ==== Sys2Proof/Safety.lean ====
section
/-!
DEFINITION. The vocabulary claims are stated in: the invariant of the machine, the states a reset may leave (spec R240),
which accesses are readable and writable, and what an instruction keeps.
-/
namespace Sys2Proof.Machine

/-! ### The invariant and the reset relation -/

/-- The control registers hold their unimplemented and fixed bits at the printed values (R14). -/
def CtrlFixed (s : State) : Prop := ∀ r, CtrlReg.fix r (s.storedCtrl r) = s.storedCtrl r

/-- Memory lists bytes only at addresses that RAM or DMA RAM backs (R13). -/
def MemBacked (s : State) : Prop :=
  ∀ c ∈ s.mem, s.dev.kind c.1 = .ram ∨ s.dev.kind c.1 = .dpsram

/-- The invariant of the machine: memory in canonical form, bytes only where RAM is, fixed bits at their values, an
admitted device record. -/
structure Inv (s : State) : Prop where
  memCanonical : Memory.wf s.mem = true
  memBacked : MemBacked s
  ctrlFixed : CtrlFixed s
  devAdmitted : s.dev.wf = true

/-- A state R240 allows after a reset: whatever W0 to W15, the unknown bits of five control registers, the accumulators,
the other SFRs, the device and the program are. -/
structure AfterReset (s : State) : Prop where
  modconZero : s.modcon = 0
  ctrlFixed : CtrlFixed s
  ramUnwritten : s.mem = []
  latchEmpty : s.hz = HazardLatch.empty
  notRepeating : s.rc = 0
  noFault : s.faultRecord = none
  firstStatement : s.pc = 0

/-! ### Accesses -/

/-- RAM or DMA RAM backs the address. -/
def isRam (d : Dev) (a : Nat) : Bool := decide (d.kind a = .ram) || decide (d.kind a = .dpsram)

/-- RAM holds the word `v` at the even address `a` (R50). -/
abbrev HoldsWord (s : State) (a v : Word) : Prop :=
  isOdd a = false ∧ isRam s.dev a.toNat = true ∧ Memory.read s.mem a.toNat = some (v.extractLsb' 0 8) ∧
    Memory.read s.mem (a.toNat + 1) = some (v.extractLsb' 8 8)

/-- RAM holds the byte `b` at the address `a` (R52). -/
abbrev HoldsByte (s : State) (a : Word) (b : Byte) : Prop :=
  isRam s.dev (wordAddr a).toNat = true ∧ Memory.read s.mem a.toNat = some b

/-- A word written at `a` reaches RAM: the address is even and RAM backs it (R61). -/
abbrev RamWritable (d : Dev) (a : Word) : Prop := isOdd a = false ∧ isRam d a.toNat = true

/-- A byte address is one of the bytes an access of a size at `a` covers. -/
def inAccess (a : Word) (sz : Size) (b : Nat) : Bool :=
  match sz with
  | .byte => b == a.toNat
  | .word => b == a.toNat || b == a.toNat + 1

/-- No address modifier acts on an access through a register: linear addressing (R106). -/
abbrev Unmodified (s : State) (agu : Agu) (n : Reg) : Prop :=
  match agu with
  | .xRagu => s.xModSel n = false
  | .xWagu => s.xModSel n = false ∧ s.bitRevSel n = false
  | .yAgu => s.yModSel n = false ∧ ¬(s.ymoden = true ∧ ywmReserved s.ywm = true)

/-- The pointer step of R104 as a word. -/
def stepWord : Size → Word
  | .byte => 1
  | .word => 2

/-- The ea column of the mode table R105, modulo 2^16 (R106). -/
def linearEa (s : State) (sz : Size) (n : Reg) : AddrMode → Word
  | .mcu .indirect => s.getW n
  | .mcu .postInc => s.getW n
  | .mcu .postDec => s.getW n
  | .mcu .preInc => s.getW n + stepWord sz
  | .mcu .preDec => s.getW n - stepWord sz
  | .mcu (.indexed x) => s.getW n + s.getW x
  | .mcu (.offset k) => s.getW n + BitVec.ofInt 16 k
  | .postMod _ => s.getW n

/-- The state after the pointer's update by the mode table R105, modulo 2^16 (R106). -/
def linearState (s : State) (sz : Size) (n : Reg) : AddrMode → State
  | .mcu .indirect => s
  | .mcu .postInc => s.setW n (s.getW n + stepWord sz)
  | .mcu .postDec => s.setW n (s.getW n - stepWord sz)
  | .mcu .preInc => s.setW n (s.getW n + stepWord sz)
  | .mcu .preDec => s.setW n (s.getW n - stepWord sz)
  | .mcu (.indexed _) => s
  | .mcu (.offset _) => s
  | .postMod k => s.setW n (s.getW n + BitVec.ofInt 16 k)

/-- Where a word access `[Wn++]` of the X AGU leaves its pointer (R110): by reverse-carry addition for a write through
the register selected for bit reversal, by the modulo adjustment through the register selected for X modulo, else two
further. -/
abbrev PostIncTo (s : State) (agu : Agu) (n : Reg) (p : Word) : Prop :=
  if agu = .xWagu ∧ s.bitRevSel n = true then modifierValid s.xb = true ∧ p = revCarrySum (s.getW n) s.xb
  else if s.xModSel n = true then
    modAdjust (s.readCtrl .xmodsrt).toNat (s.readCtrl .xmodend).toNat (s.getW n).toNat 2 = .ok (p.toNat : Int)
  else p = s.getW n + 2

/-- The bits of a control register that have a fixed value, and the value (R14 to R23). -/
def fixedBit : CtrlReg → Nat → Option Bool
  | .modcon, i => if i = 12 ∨ i = 13 then some false else none
  | .xmodsrt, i => if i = 0 then some false else none
  | .xmodend, i => if i = 0 then some true else none
  | .ymodsrt, i => if i = 0 then some false else none
  | .ymodend, i => if i = 0 then some true else none
  | .xbrev, _ => none

/-- The latch holds a register. -/
def HazardLatch.has (h : HazardLatch) : CtrlReg → Bool
  | .modcon => h.modcon
  | .xmodsrt => h.xmodsrt
  | .xmodend => h.xmodend
  | .ymodsrt => h.ymodsrt
  | .ymodend => h.ymodend
  | .xbrev => h.xbrev

/-- A register is a pointer of an instruction's indirect reads (R252's set R). -/
abbrev ReadPointers.Has (p : ReadPointers) (r : Reg) : Prop :=
  match p with
  | .noRead => False
  | .through rs => r ∈ rs
  | .every => True

/-- A select field of MODCON is not 15 and names a register of the set R (the comparisons of R252). -/
abbrev ReadPointers.Designates (p : ReadPointers) (field : BitVec 4) : Prop :=
  field ≠ 15 ∧ p.Has (Fin.ofNat 16 field.toNat)

/-- R252's condition for a violation, written out over the bits of the control registers. -/
abbrev Violation (s : State) (p : ReadPointers) : Prop :=
  p ≠ .noRead ∧
    (s.hz.modcon = true ∨
      ((s.hz.xmodsrt = true ∨ s.hz.xmodend = true) ∧ (s.readCtrl .modcon).getLsbD 15 = true ∧
        p.Designates ((s.readCtrl .modcon).extractLsb' 0 4)) ∨
      ((s.hz.ymodsrt = true ∨ s.hz.ymodend = true) ∧ (s.readCtrl .modcon).getLsbD 14 = true ∧
        p.Designates ((s.readCtrl .modcon).extractLsb' 4 4)) ∨
      (s.hz.xbrev = true ∧ s.hzOldXbrev.getLsbD 15 = true ∧ p.Designates ((s.readCtrl .modcon).extractLsb' 8 4)))

/-! ### What an instruction keeps -/

/-- Every working register but those listed reads as before. -/
def RegsKeptBut (rs : List Reg) (s t : State) : Prop := ∀ r, r ∉ rs → t.getW r = s.getW r

/-- Every byte of memory reads as before. -/
def MemKept (s t : State) : Prop := ∀ b, Memory.read t.mem b = Memory.read s.mem b

/-- Every byte of memory outside an access reads as before. -/
def MemKeptOutside (a : Word) (sz : Size) (s t : State) : Prop :=
  ∀ b, inAccess a sz b = false → Memory.read t.mem b = Memory.read s.mem b

/-- Every control register reads as before. -/
def CtrlKept (s t : State) : Prop := ∀ r, t.readCtrl r = s.readCtrl r

/-- Every control register whose word is not at the address reads as before. -/
def CtrlKeptBut (a : Word) (s t : State) : Prop :=
  ∀ r, s.dev.addrOf r ≠ wordAddr a → t.readCtrl r = s.readCtrl r

/-- The parameters of the step are as before (R33). -/
def ParamsKept (s t : State) : Prop :=
  t.dev = s.dev ∧ t.program = s.program ∧ t.symbols = s.symbols ∧ t.dma = s.dma

/-- The pc and the repeat counter move on as after every instruction but REPEAT (R181 c, R190). -/
def MovedOn (s t : State) : Prop := t.pc = (if s.rc = 0 then s.pc + 1 else s.pc) ∧ t.rc = s.rc - 1

/-- The latch is empty and `hz_old` holds MODCON and XBREV as they were before the instruction (R250). -/
def LatchEmptied (s t : State) : Prop :=
  t.hz = HazardLatch.empty ∧ t.hzOldModcon = s.readCtrl .modcon ∧ t.hzOldXbrev = s.readCtrl .xbrev

/-- Nothing has gone wrong and nothing open was drawn: the fault record, the accumulators, the other SFRs and the count of
free values are as before. -/
def NothingRaised (s t : State) : Prop :=
  t.faultRecord = s.faultRecord ∧ t.acc = s.acc ∧ t.sfrs = s.sfrs ∧ t.freeCount = s.freeCount

/-- An instruction that changes the listed registers and nothing else completed: memory, control registers, accumulators
and parameters are as before, the latch is empty, the pc has moved on. -/
def CompletedChanging (rs : List Reg) (s t : State) : Prop :=
  RegsKeptBut rs s t ∧ MemKept s t ∧ CtrlKept s t ∧ ParamsKept s t ∧ MovedOn s t ∧ LatchEmptied s t ∧
    NothingRaised s t

/-- An instruction that stored at an address of RAM and changed the listed registers and nothing else completed. -/
def CompletedStoring (rs : List Reg) (a : Word) (sz : Size) (s t : State) : Prop :=
  RegsKeptBut rs s t ∧ MemKeptOutside a sz s t ∧ CtrlKept s t ∧ ParamsKept s t ∧ MovedOn s t ∧ LatchEmptied s t ∧
    NothingRaised s t

/-- An instruction that wrote `v` to a control register and changed the listed registers and nothing else completed: the
register holds `v` in its writable bits (R14), it is the latch (R250), the other control registers and memory are as
before. -/
def CompletedControlWrite (rs : List Reg) (k : CtrlReg) (v : Word) (s t : State) : Prop :=
  (∀ i < 16, (t.readCtrl k).getLsbD i = (fixedBit k i).getD (v.getLsbD i)) ∧ (∀ j, t.hz.has j = true ↔ j = k) ∧
    (∀ j, j ≠ k → t.readCtrl j = s.readCtrl j) ∧ RegsKeptBut rs s t ∧ MemKept s t ∧ ParamsKept s t ∧ MovedOn s t ∧
    NothingRaised s t

/-- The operand forms of an instruction of the MOV family (R180 to R187). -/
def movParts : Instr → Option (Size × MovSrc × MovDst)
  | .movLitW k d => some (.word, .lit k, .reg d)
  | .movWF r f => some (.word, .reg r, .direct f)
  | .movIndW r d => some (.word, .mem ⟨r, .indirect⟩, .reg d)
  | .movPostincW r d => some (.word, .mem ⟨r, .postInc⟩, .reg d)
  | .movWPostinc r d => some (.word, .reg r, .mem ⟨d, .postInc⟩)
  | .movPostincPostinc r d => some (.word, .mem ⟨r, .postInc⟩, .mem ⟨d, .postInc⟩)
  | .movGeneral sz src dst => some (sz, src, dst)
  | .nop => none
  | .repeatLit _ => none
  | .doLitLabel _ _ => none
  | .macPrefetchWb _ _ _ _ _ _ _ _ _ => none
  | .pop _ => none
  | .returnCall => none
  | .retfie => none
  | .retlw _ _ => none
  | .ulnk => none

/-- The pointer registers of an instruction's indirect reads, the classification table R205. -/
def readPointersOf : Instr → ReadPointers
  | .movLitW _ _ => .noRead
  | .movWF _ _ => .noRead
  | .movIndW r _ => .through [r]
  | .movPostincW r _ => .through [r]
  | .movWPostinc _ _ => .noRead
  | .movPostincPostinc r _ => .through [r]
  | .movGeneral _ src _ => MovSrc.readPointers src
  | .nop => .noRead
  | .repeatLit _ => .noRead
  | .doLitLabel _ _ => .noRead
  | .macPrefetchWb _ _ x _ _ y _ _ _ => .through [x.reg, y.reg]
  | .pop _ => .through [15]
  | .returnCall => .every
  | .retfie => .every
  | .retlw _ _ => .every
  | .ulnk => .every

/-! ### What an access delivers and where it can be made -/

/-- RAM holds at `a` what an access of a size reads as `v`: a word at an even address (R50), or a byte delivered on the
lower 8 bits (R52). -/
abbrev HoldsAt (s : State) (sz : Size) (a v : Word) : Prop :=
  match sz with
  | .word => HoldsWord s a v
  | .byte => HoldsByte s a (v.extractLsb' 0 8) ∧ v.extractLsb' 8 8 = 0#8

/-- A word read in the combined view delivers `v` and traps nothing (R60): RAM holds it, or it is what a control register
reads as (R14, R41). -/
abbrev WordDelivers (s : State) (a v : Word) : Prop :=
  HoldsWord s a v ∨ (s.dev.wf = true ∧ ∃ k, a = s.dev.addrOf k ∧ v = s.readCtrl k)

/-- An access of a size written at `a` reaches RAM (R61). -/
abbrev WritableAt (d : Dev) (sz : Size) (a : Word) : Prop :=
  match sz with
  | .word => RamWritable d a
  | .byte => isRam d (wordAddr a).toNat = true

/-- What a control register, or for a byte access one of its halves, reads as at an address (R14, R60, decision D22). -/
abbrev CtrlReadsAs (s : State) (sz : Size) (a v : Word) : Prop :=
  match sz with
  | .word => ∃ k, a = s.dev.addrOf k ∧ v = s.readCtrl k
  | .byte =>
    ∃ k, (a = s.dev.addrOf k ∧ v = ((s.readCtrl k).extractLsb' 0 8).zeroExtend 16) ∨
      (a = s.dev.addrOf k + 1 ∧ v = ((s.readCtrl k).extractLsb' 8 8).zeroExtend 16)

/-- The state after a write at an address of a control register, or for a byte access of one of its halves (R14, R61,
decision D22): the word, or the half and the other half as it was, is written. -/
abbrev CtrlWritten (s : State) (sz : Size) (a v : Word) (t : State) : Prop :=
  match sz with
  | .word => ∃ k, a = s.dev.addrOf k ∧ t = s.writeCtrl k v
  | .byte =>
    ∃ k, (a = s.dev.addrOf k ∧ t = s.writeCtrl k ((s.readCtrl k).extractLsb' 8 8 ++ v.extractLsb' 0 8 : BitVec 16)) ∨
      (a = s.dev.addrOf k + 1 ∧ t = s.writeCtrl k (v.extractLsb' 0 8 ++ (s.readCtrl k).extractLsb' 0 8 : BitVec 16))

/-- `t` is the state after an access of a size has written `v` at `a`, in RAM or in a control register (R61). -/
abbrev Stored (s : State) (sz : Size) (a v : Word) (t : State) : Prop :=
  (WritableAt s.dev sz a ∧ t = writeRam s a sz v) ∨ (s.dev.wf = true ∧ CtrlWritten s sz a v t)

/-- An access of a size is made at an SFR that is none of the six control registers (R41). -/
abbrev AtOtherSfr (d : Dev) (sz : Size) (a : Word) : Prop :=
  d.kind (wordAddr a).toNat = .sfr ∧ (∀ r, d.addrOf r ≠ wordAddr a) ∧ (sz = .word → isOdd a = false)

/-- The read of a size at an address raises this address error (R60, R220, R224). -/
abbrev ReadTraps (d : Dev) (a : Word) (sz : Size) : AddressErrorCause → Prop
  | .misalignedRead => sz = .word ∧ isOdd a = true
  | .unimplementedRead => (sz = .word → isOdd a = false) ∧ d.kind (wordAddr a).toNat = .absent
  | .misalignedWrite => False
  | .unimplementedWrite => False

/-- A MOV source can be read and gives `v`, its pointer updated as in `u`, no modifier acting on it (R187, R105): RAM or a
control register is behind it. -/
abbrev SourceGives (s : State) (sz : Size) (src : MovSrc) (v : Word) (u : State) : Prop :=
  match src with
  | .reg r => v = s.getW r ∧ u = s
  | .lit k => v = k ∧ u = s
  | .direct f => (HoldsAt s sz f v ∨ (s.dev.wf = true ∧ CtrlReadsAs s sz f v)) ∧ u = s
  | .mem o =>
    Unmodified s .xRagu o.ptr ∧ u = linearState s sz o.ptr (.mcu o.mode) ∧
      (HoldsAt s sz (linearEa s sz o.ptr (.mcu o.mode)) v ∨
        (s.dev.wf = true ∧ CtrlReadsAs s sz (linearEa s sz o.ptr (.mcu o.mode)) v))

/-- A MOV source is read and gives `v` and the state `u` (R187): a memory source at the address Operand generates for it
(R110), where the read traps nothing. -/
abbrev SourceReads (s : State) (sz : Size) (src : MovSrc) (v : Word) (u : State) : Prop :=
  match src with
  | .reg r => v = s.getW r ∧ u = s
  | .lit k => v = k ∧ u = s
  | .direct f => memRead s f sz = .next (v, u)
  | .mem o =>
    ∃ ea t, operand s .xRagu (.mcu o.mode) o.ptr sz = .next (ea, t) ∧ (∀ c, ¬ReadTraps t.dev ea sz c) ∧
      memRead t ea sz = .next (v, u)

/-- The address a MOV source is read at (R110, R113, R187). -/
abbrev SourceAddress (s : State) (sz : Size) (src : MovSrc) (ea : Word) : Prop :=
  match src with
  | .reg _ => False
  | .lit _ => False
  | .direct f => ea = f
  | .mem o => ∃ t, operand s .xRagu (.mcu o.mode) o.ptr sz = .next (ea, t)

/-- What a MOV's read that traps delivers, where it is known (R53, R56): zeros where nothing stands, at an odd address the
word at the address with bit 0 cleared. -/
abbrev TrapDelivers (s : State) (ea v : Word) : AddressErrorCause → Prop
  | .misalignedRead => WordDelivers s (wordAddr ea) v
  | .unimplementedRead => v = 0
  | .misalignedWrite => False
  | .unimplementedWrite => False

/-- A MOV has stored `v` in a destination no modifier acts on, RAM or a control register behind it, and left `t` (R187,
R105). -/
abbrev DestinationTakes (u : State) (sz : Size) (v : Word) (dst : MovDst) (t : State) : Prop :=
  match dst with
  | .reg d => t = u.setW d v
  | .direct f => Stored u sz f v t
  | .mem o =>
    Unmodified u .xWagu o.ptr ∧
      Stored (linearState u sz o.ptr (.mcu o.mode)) sz (linearEa u sz o.ptr (.mcu o.mode)) v t

/-- What the X prefetch of a MAC delivers where it does not trap (R62): zeros from the Y block, a control register, or
the word of RAM on the X side. -/
abbrev XDelivers (s : State) (a v : Word) : Prop :=
  isOdd a = false ∧
    ((isRam s.dev a.toNat = true ∧ s.dev.space a.toNat = .y ∧ v = 0) ∨
      (s.dev.space a.toNat = .x ∧ HoldsWord s a v) ∨
      (s.dev.kind a.toNat = .sfr ∧ ∃ r, s.dev.ctrlAt a = some r ∧ v = s.readCtrl r))

/-- What the Y prefetch of a MAC delivers where it does not trap (R63): zeros from implemented X space, the SFRs
included, or the word of RAM in the Y block. -/
abbrev YDelivers (s : State) (a v : Word) : Prop :=
  isOdd a = false ∧
    (((isRam s.dev a.toNat = true ∧ s.dev.space a.toNat = .x) ∧ v = 0) ∨
      (s.dev.kind a.toNat = .sfr ∧ v = 0) ∨
      (s.dev.space a.toNat = .y ∧ HoldsWord s a v))

/-- Where a DSP-class post-modification `[Wn]+=k` leaves its pointer (R110): adjusted where the pointer is moved and
selected for the modulo addressing of its AGU, else `k` further. -/
abbrev PostModTo (s : State) (agu : Agu) (n : Reg) (k : Int) (p : Word) : Prop :=
  match moduloBounds s agu n with
  | none => p = s.getW n + BitVec.ofInt 16 k
  | some (lo, hi) =>
    if k = 0 then p = s.getW n else modAdjust lo.toNat hi.toNat (s.getW n).toNat k = .ok (p.toNat : Int)

/-- A MAC ended its effect as R195 says but for its prefetches: the written-back word at W13's address, the accumulators
updated, W13 moved to `pw`, nothing changed but these, the listed registers and the fault record. -/
def MacWroteBack (m n : Reg) (rs : List Reg) (pw : Word) (s t : State) : Prop :=
  HoldsWord t (s.getW 13) (Config.macArith (s.getW m) (s.getW n) s.acc).2 ∧
    t.acc = (Config.macArith (s.getW m) (s.getW n) s.acc).1 ∧ t.getW 13 = pw ∧ RegsKeptBut (13 :: rs) s t ∧
    MemKeptOutside (s.getW 13) .word s.dmaTurn.dmaTurn t ∧ CtrlKept s t ∧ MovedOn s t ∧ LatchEmptied s t

/-- The effective address of an access whose moved address modulo addressing has made `a` (R140). -/
def adjustedEa (s : State) (n : Reg) (a : Word) : AddrMode → Word
  | .mcu .indirect => s.getW n
  | .mcu .postInc => s.getW n
  | .mcu .postDec => s.getW n
  | .mcu .preInc => a
  | .mcu .preDec => a
  | .mcu (.indexed _) => a
  | .mcu (.offset _) => a
  | .postMod _ => s.getW n

/-- The state after an access whose moved address modulo addressing has made `a` (R140). -/
def adjustedState (s : State) (n : Reg) (a : Word) : AddrMode → State
  | .mcu .indirect => s
  | .mcu .postInc => s.setW n a
  | .mcu .postDec => s.setW n a
  | .mcu .preInc => s.setW n a
  | .mcu .preDec => s.setW n a
  | .mcu (.indexed _) => s
  | .mcu (.offset _) => s
  | .postMod _ => s.setW n a

/-- The signed amount by which an access moves the address, the delta column of R105. -/
def deltaOf (s : State) (sz : Size) : AddrMode → Int
  | .mcu .indirect => 0
  | .mcu .postInc => stepOf sz
  | .mcu .postDec => -stepOf sz
  | .mcu .preInc => stepOf sz
  | .mcu .preDec => -stepOf sz
  | .mcu (.indexed x) => (s.getW x).toInt
  | .mcu (.offset k) => k
  | .postMod k => k

/-- The least exponent whose power of two is not below a length (R136). -/
abbrev LeastExponent (len n : Nat) : Prop := len ≤ 2 ^ n ∧ ∀ m < n, 2 ^ m < len

/-- The mirror image of the low `k` bits of a number (R165's `rev_k`). -/
def mirror : Nat → Nat → Nat
  | 0, _ => 0
  | k + 1, v => (v % 2) * 2 ^ k + mirror k (v / 2)

/-- A pointer after `i` bit-reversed updates (R166). -/
def reversedUpdates (xb : BitVec 15) : Nat → Word → Word
  | 0, p => p
  | i + 1, p => revCarrySum (reversedUpdates xb i p) xb

/-- A pointer after `i` word steps up in a modulo buffer (R136), while the steps are admitted. -/
def moduloSteps (start stop : Nat) : Nat → Nat → Except Refusal Nat
  | 0, p => .ok p
  | i + 1, p =>
    match moduloSteps start stop i p with
    | .error r => .error r
    | .ok q =>
      match modAdjust start stop q 2 with
      | .error r => .error r
      | .ok a => .ok a.toNat

/-- An instruction executed a number of times in succession (R190), while it gives a next state. -/
def execTimes (i : Instr) : Nat → State → Option State
  | 0, s => some s
  | k + 1, s =>
    match execTimes i k s with
    | none => none
    | some t =>
      match exec i t with
      | .next u => some u
      | .fault _ => none
      | .refused _ => none

/-- A general MOV begun at `s` whose source gave `v` and left `u` completes with `v` in its destination (R187): a working
register, an absolute address, or the address Operand generates (R110) after the DMA controller's turn (R70); behind an
address RAM, a control register, or another SFR of a device that gives it a behaviour. -/
def MovStores (s : State) (sz : Size) (src : MovSrc) (v : Word) (u : State) : Prop :=
  (∀ d, sz = .word → movConflict src (.reg d) = false →
    exec (.movGeneral sz src (.reg d)) s = .next (u.setW d v).advance) ∧
    (∀ f w, sz = .word → w = turnBetween src (.direct f) u →
      (∀ t, Stored w sz f v t → exec (.movGeneral sz src (.direct f)) s = .next t.advance) ∧
        (AtOtherSfr w.dev sz f → w.dev.sfrWrite = .given →
          ∃ q, exec (.movGeneral sz src (.direct f)) s = .next (w.setSfrs q).advance)) ∧
    ∀ (o : MemOperand) a w, byteFormDescribed sz src (.mem o) = true → movConflict src (.mem o) = false →
      operand (turnBetween src (.mem o) u) .xWagu (.mcu o.mode) o.ptr sz = .next (a, w) →
      (∀ t, Stored w sz a v t → exec (.movGeneral sz src (.mem o)) s = .next t.advance) ∧
        (AtOtherSfr w.dev sz a → w.dev.sfrWrite = .given →
          ∃ q, exec (.movGeneral sz src (.mem o)) s = .next (w.setSfrs q).advance)

/-! ### The DMA controller's turns and where an instruction stores -/

/-- The state after a number of the DMA controller's turns (R70). -/
def State.dmaTurns (s : State) : Nat → State
  | 0 => s
  | k + 1 => (s.dmaTurns k).dmaTurn

/-- How many turns the DMA controller has inside an instruction: one between every two operand accesses (R70, decision
D16). -/
def turnsWithin : Instr → Nat
  | .macPrefetchWb _ _ _ _ _ _ _ _ _ => 2
  | i =>
    match movParts i with
    | none => 0
    | some (_, src, dst) => if (MovSrc.accesses src && MovDst.accesses dst) = true then 1 else 0

/-- The state a computation that did not stop leaves. -/
def stateOf {α : Type} : Result α → Option State
  | .next p => some p.2
  | .fault _ => none
  | .refused _ => none

/-- The state in which the write operand of an instruction begun at `s` begins: after its reads, their pointer updates and
the DMA controller's turn (R64, R70). -/
def beforeStore (s : State) : Instr → Option State
  | .macPrefetchWb _ _ x kx xd y ky yd _ => stateOf (macPrefetches s x kx xd y ky yd)
  | i =>
    match movParts i with
    | none => none
    | some (sz, src, dst) => (stateOf (loadSource s sz src)).map (turnBetween src dst)

/-- The address and size an operand generates, if it generates one. -/
def accessAt (r : Result Word) (sz : Size) : Option (Word × Size) :=
  match r with
  | .next p => some (p.1, sz)
  | .fault _ => none
  | .refused _ => none

/-- The address and size of the write a MOV's destination makes from `u`, if it makes one (R187). -/
def destinationTarget (u : State) (sz : Size) : MovDst → Option (Word × Size)
  | .reg _ => none
  | .direct f => some (f, sz)
  | .mem o => accessAt (operand u .xWagu (.mcu o.mode) o.ptr sz) sz

/-- The address and size of the data-space write of an instruction whose write operand begins at `u`: what its destination
operand gives (R187), or W13 for a MAC (R195). -/
def targetFrom (u : State) : Instr → Option (Word × Size)
  | .macPrefetchWb _ _ _ _ _ _ _ _ kw => accessAt (operand u .xWagu (.postMod kw) 13 .word) .word
  | i =>
    match movParts i with
    | none => none
    | some (sz, _, dst) => destinationTarget u sz dst

/-- The address and size of the data-space write of an instruction begun at `s`, if it makes one. -/
def storeTarget (s : State) (i : Instr) : Option (Word × Size) := (beforeStore s i).bind fun u => targetFrom u i

/-- A write of a size at an address reaches a control register (R61). -/
abbrev ReachesCtrl (d : Dev) (a : Word) (sz : Size) (r : CtrlReg) : Prop :=
  writeTrap d a sz = none ∧ d.kind (wordAddr a).toNat = .sfr ∧ d.ctrlAt (wordAddr a) = some r

/-- The working registers an instruction may write: its register destination, the pointers its modes update, and for a
MAC the three pointers and the two prefetch destinations (R105, R195). -/
def writtenRegs (i : Instr) : List Reg :=
  match i with
  | .macPrefetchWb _ _ x _ xd y _ yd _ => [x.reg, y.reg, xd, yd, 13]
  | i =>
    match movParts i with
    | none => []
    | some (_, src, dst) =>
      match dst with
      | .reg d => d :: MovSrc.updates src
      | .direct _ => MovSrc.updates src
      | .mem o => MovSrc.updates src ++ MemOperand.updates o

/-! ### Two devices that differ in the X and Y partition only -/

/-- Two device records that differ in `space` alone: every address has the same kind, every control register the same
address, and the other parameters are the same (R44). -/
def SameButPartition (d e : Dev) : Prop :=
  (∀ a, e.kind a = d.kind a) ∧ (∀ r, e.addrOf r = d.addrOf r) ∧ e.hasDmaRam = d.hasDmaRam ∧
    e.sfrRead = d.sfrRead ∧ e.sfrWrite = d.sfrWrite ∧ e.psvRead = d.psvRead

/-- An outcome with the device of its next state replaced. -/
def onDevice (e : Dev) : StepResult → StepResult
  | .next t => .next { t with dev := e }
  | .fault f => .fault f
  | .refused q => .refused q

/-! ### States that differ in the bit-reversal controls only -/

/-- An operand's outcome with XBREV and MODCON of its state replaced. -/
def withControls (xbrev modcon : Word) : Result Word → Result Word
  | .next p => .next (p.1, { p.2 with xbrev := xbrev, modcon := modcon })
  | .fault f => .fault f
  | .refused q => .refused q

/-- Bit-reversed addressing acts on an access: conditions (a) to (d) of R161. -/
abbrev BitReversalActs (s : State) (agu : Agu) (mode : AddrMode) (n : Reg) (sz : Size) : Prop :=
  agu = .xWagu ∧ s.bitRevSel n = true ∧ sz = .word ∧ (mode = .mcu .postInc ∨ mode = .mcu .preInc)

end Sys2Proof.Machine
end

