-- ==== Sys2Proof/Certificates/Slice0/Obligations.lean ====
section
/-!
DEFINITION. The statements for the provers. Each docstring names the rule of spec/ it formalises, and, where a clause
rests on a decision or a choice, the decision or the log entry.
-/
section Statements

open Sys2Proof Sys2Proof.Machine

/-! ### Reset and control registers -/

/-- R27: after every reset MODCON is 0x0000, no modulo addressing is selected for any register, and bit-reversed
addressing is active for W0 if and only if BREN is set. -/
def Obligations.AfterResetModifiers : Prop :=
  ∀ s, AfterReset s →
    s.readCtrl .modcon = 0 ∧ s.xmoden = false ∧ s.ymoden = false ∧ s.xwm = 0 ∧ s.ywm = 0 ∧
      ywmReserved s.ywm = true ∧ s.bwm = 0 ∧ (∀ n, s.xModSel n = false ∧ s.yModSel n = false) ∧
      ∀ n, s.bitRevSel n = true ↔ s.bren = true ∧ n = 0

/-- R240: the model's reset state is one of the states R240 allows, and meets the machine's invariant. Its register
values are the model's choice (logs 5 to 9). -/
def Obligations.ResetMeetsInvariant : Prop := AfterReset State.reset ∧ Sys2Proof.Machine.Inv State.reset

/-- R14 with decision D30: a written control register reads back the written bit where the bit is writable and the printed
constant where it is not, in every state; a write of bits that are not writable changes nothing at all; no other control
register changes. -/
def Obligations.ControlRegisterAccess : Prop :=
  (∀ (s : State) r i b, fixedBit r i = some b → i < 16 → (s.readCtrl r).getLsbD i = b) ∧
    (∀ (s : State) r i, fixedBit r i = none → (s.readCtrl r).getLsbD i = (s.storedCtrl r).getLsbD i) ∧
    (∀ (s : State) r v i, i < 16 → ((s.writeCtrl r v).readCtrl r).getLsbD i = (fixedBit r i).getD (v.getLsbD i)) ∧
    (∀ (s : State) r v v', (∀ i, fixedBit r i = none → v.getLsbD i = v'.getLsbD i) →
      s.writeCtrl r v = s.writeCtrl r v') ∧
    ∀ (s : State) r k v, k ≠ r → (s.writeCtrl r v).readCtrl k = s.readCtrl k

/-- R29: the three select predicates over the bits of MODCON and XBREV. A field that holds 15 selects no register, so none
of them holds for W15. -/
def Obligations.SelectPredicates : Prop :=
  ∀ (s : State) (n : Reg),
    (s.xModSel n = true ↔
      (s.readCtrl .modcon).getLsbD 15 = true ∧ (s.readCtrl .modcon).extractLsb' 0 4 ≠ 15#4 ∧
        (s.readCtrl .modcon).toNat % 16 = n.val) ∧
    (s.yModSel n = true ↔
      (s.readCtrl .modcon).getLsbD 14 = true ∧ (s.readCtrl .modcon).extractLsb' 4 4 ≠ 15#4 ∧
        (s.readCtrl .modcon).toNat / 16 % 16 = n.val) ∧
    (s.bitRevSel n = true ↔
      (s.readCtrl .xbrev).getLsbD 15 = true ∧ (s.readCtrl .modcon).extractLsb' 8 4 ≠ 15#4 ∧
        (s.readCtrl .modcon).toNat / 256 % 16 = n.val)

/-! ### Memory -/

/-- R50: a word lies with its least significant byte at the even address and its most significant byte at the odd
address, read and written. -/
def Obligations.WordsAreLittleEndian : Prop :=
  (∀ (s : State) (a v : Word), RamWritable s.dev a →
    ∃ t, memWrite s a .word v = .next t ∧ Memory.read t.mem a.toNat = some (v.extractLsb' 0 8) ∧
      Memory.read t.mem (a.toNat + 1) = some (v.extractLsb' 8 8) ∧ memRead t a .word = .next (v, t)) ∧
    ∀ (s : State) (a : Word) (hi lo : Byte), RamWritable s.dev a → Memory.read s.mem a.toNat = some lo →
      Memory.read s.mem (a.toNat + 1) = some hi → memRead s a .word = .next (hi ++ lo, s)

/-- R52: a byte read delivers the addressed byte on the lower 8 bits; a byte write changes the addressed byte and no
other, its neighbour in the word included (the spec derives the last from the selection of one byte). -/
def Obligations.BytesAreAddressed : Prop :=
  ∀ (s : State) (a : Word), isRam s.dev (wordAddr a).toNat = true →
    (∀ b, Memory.read s.mem a.toNat = some b → memRead s a .byte = .next (b.zeroExtend 16, s)) ∧
      ∀ v : Word, ∃ t, memWrite s a .byte v = .next t ∧ Memory.read t.mem a.toNat = some (v.extractLsb' 0 8) ∧
        ∀ c, c ≠ a.toNat → Memory.read t.mem c = Memory.read s.mem c

/-- R53 with decision D5 (log 33): a word access at an odd address traps; the write changes nothing; the read completes,
with the word at the address with bit 0 cleared where RAM holds one or a control register is there. That the X and the Y
prefetch deliver what their split view delivers there, zeros across the partition, and that an odd read completes whatever
stands there, is the model's reading (log 13, DEDUCED). -/
def Obligations.MisalignedWordAccess : Prop :=
  ∀ (s : State) (a : Word), isOdd a = true →
    (∀ v, memWrite s a .word v = .next (s.raise .misalignedWrite)) ∧
      (∀ v, WordDelivers s (wordAddr a) v → memRead s a .word = .next (v, s.raise .misalignedRead)) ∧
      (∀ v, XDelivers s (wordAddr a) v → memReadX s a = .next (v, s.raise .misalignedRead)) ∧
      (∀ v, YDelivers s (wordAddr a) v → memReadY s a = .next (v, s.raise .misalignedRead)) ∧
      (s.faultRecord = none →
        (∃ v t, memRead s a .word = .next (v, t) ∧ t.faultRecord = some .misalignedRead) ∧
          (∃ v t, memReadX s a = .next (v, t) ∧ t.faultRecord = some .misalignedRead) ∧
          ∃ v t, memReadY s a = .next (v, t) ∧ t.faultRecord = some .misalignedRead)

/-- R56 with decision D4 (log 32): where nothing stands behind an address a read delivers zeros and a write has no
effect, and either records the address error. -/
def Obligations.UnimplementedAccess : Prop :=
  (∀ (s : State) (a : Word) sz, s.dev.kind (wordAddr a).toNat = .absent → (sz = .word → isOdd a = false) →
    memRead s a sz = .next (0, s.raise .unimplementedRead) ∧
      ∀ v, memWrite s a sz v = .next (s.raise .unimplementedWrite)) ∧
    ∀ (s : State) (a : Word), s.dev.kind a.toNat = .absent → isOdd a = false →
      memReadX s a = .next (0, s.raise .unimplementedRead) ∧ memReadY s a = .next (0, s.raise .unimplementedRead)

/-- R41 with decisions D21 and D22 (logs 22 and 29): a word access at the address of a control register reads or writes
the register, a byte access one of its halves, the less significant at the even address; an access to any other SFR is
refused where the device leaves SfrRead or SfrWrite at its default, and else completes, changing nothing but what those
SFRs hold and the count of free values. -/
def Obligations.ControlRegistersInSfrSpace : Prop :=
  ∀ s : State, s.dev.wf = true →
    (∀ r, memRead s (s.dev.addrOf r) .word = .next (s.readCtrl r, s) ∧
      memRead s (s.dev.addrOf r) .byte = .next (((s.readCtrl r).extractLsb' 0 8).zeroExtend 16, s) ∧
      memRead s (s.dev.addrOf r + 1) .byte = .next (((s.readCtrl r).extractLsb' 8 8).zeroExtend 16, s)) ∧
      (∀ r (v : Word), memWrite s (s.dev.addrOf r) .word v = .next (s.writeCtrl r v) ∧
        memWrite s (s.dev.addrOf r) .byte v =
            .next (s.writeCtrl r ((s.readCtrl r).extractLsb' 8 8 ++ v.extractLsb' 0 8 : BitVec 16)) ∧
        memWrite s (s.dev.addrOf r + 1) .byte v =
            .next (s.writeCtrl r (v.extractLsb' 0 8 ++ (s.readCtrl r).extractLsb' 0 8 : BitVec 16))) ∧
      ∀ (a : Word) sz, s.dev.kind (wordAddr a).toNat = .sfr → (∀ r, s.dev.addrOf r ≠ wordAddr a) →
        (sz = .word → isOdd a = false) →
          (s.dev.sfrRead = .refuse → memRead s a sz = .refused .otherSfr) ∧
            (s.dev.sfrRead = .given → ∃ v q, memRead s a sz = .next (v, s.setSfrs q) ∧
              (sz = .byte → v.extractLsb' 8 8 = 0#8)) ∧
            (s.dev.sfrWrite = .refuse → ∀ v, memWrite s a sz v = .refused .otherSfr) ∧
            (s.dev.sfrWrite = .given → ∀ v, ∃ q, memWrite s a sz v = .next (s.setSfrs q))

/-- R62 and R63: the X prefetch of an aligned, implemented address delivers zeros from the Y block, a control register, or
the word of RAM on the X side; the Y prefetch zeros from the X side, the SFRs included, or the word of RAM in the Y block;
neither raises anything. -/
def Obligations.SplitView : Prop :=
  (∀ (s : State) (a v : Word), XDelivers s a v → memReadX s a = .next (v, s)) ∧
    ∀ (s : State) (a v : Word), YDelivers s a v → memReadY s a = .next (v, s)

/-- R47, R61 and R63 with decision D23 (log 22): at a PSV-mapped address a byte or an aligned word write is refused, and so
is an aligned Y prefetch; a byte or an aligned word read, and an aligned X prefetch, are refused where the device leaves
PsvRead at its default, and else complete, changing nothing but the count of free values. A word access at an odd address
is R53's: the write changes nothing and records its error, the read completes with a free value and records its error
(log 13). -/
def Obligations.PsvAccess : Prop :=
  (∀ (s : State) (a : Word) sz, s.dev.kind (wordAddr a).toNat = .psv → (sz = .word → isOdd a = false) →
    (∀ v, memWrite s a sz v = .refused .psvWrite) ∧
      (s.dev.psvRead = .refuse → memRead s a sz = .refused .psvRead) ∧
      (s.dev.psvRead = .given → ∃ v, memRead s a sz = .next (v, { s with freeCount := s.freeCount + 1 }) ∧
        (sz = .byte → v.extractLsb' 8 8 = 0#8))) ∧
    (∀ (s : State) (a : Word), s.dev.kind (wordAddr a).toNat = .psv → isOdd a = false →
      memReadY s a = .refused .psvYPrefetch ∧ (s.dev.psvRead = .refuse → memReadX s a = .refused .psvRead) ∧
        (s.dev.psvRead = .given → ∃ v, memReadX s a = .next (v, { s with freeCount := s.freeCount + 1 }))) ∧
    ∀ (s : State) (a : Word), s.dev.kind (wordAddr a).toNat = .psv → isOdd a = true →
      (∀ v, memWrite s a .word v = .next (s.raise .misalignedWrite)) ∧
        (∃ v, memReadY s a = .next (v, { s.raise .misalignedRead with freeCount := s.freeCount + 1 })) ∧
        (∃ v, memRead s a .word = .next (v, { s.raise .misalignedRead with freeCount := s.freeCount + 1 })) ∧
        ∃ v, memReadX s a = .next (v, { s.raise .misalignedRead with freeCount := s.freeCount + 1 })

/-- R44: every instruction but a MAC, the MCU class of R86, and every write, that of a MAC among them, act alike on two
devices that differ in the partition between X and Y space only. -/
def Obligations.CombinedViewIgnoresPartition : Prop :=
  ∀ (s : State) (e : Dev), SameButPartition s.dev e →
    (∀ i, (∀ m n x kx xd y ky yd kw, i ≠ .macPrefetchWb m n x kx xd y ky yd kw) →
      exec i { s with dev := e } = onDevice e (exec i s)) ∧
      (∀ a sz v, memWrite { s with dev := e } a sz v = onDevice e (memWrite s a sz v)) ∧
      ∀ wa wb acc touched,
        macWriteBack { s with dev := e } wa wb acc touched = onDevice e (macWriteBack s wa wb acc touched)

/-- R70 with decision D16 (log 23): however many turns the DMA controller has, they change bytes of DMA RAM on a device that
has it, and nothing else but its own schedule, of which a turn takes one burst; a turn may write any value to any such byte;
with nothing scheduled the turns change nothing. -/
def Obligations.DmaReachesDmaRamOnly : Prop :=
  (∀ s : State,
    (∀ k b, s.dev.kind b ≠ .dpsram ∨ s.dev.hasDmaRam = false →
      Memory.read (s.dmaTurns k).mem b = Memory.read s.mem b) ∧
      (∀ k, s.dmaTurns k = { s with mem := (s.dmaTurns k).mem, dma := s.dma.drop k }) ∧
      s.dmaTurns 1 = s.dmaTurn ∧ ∀ k, s.dma = [] → s.dmaTurns k = s) ∧
    ∀ (s : State) b v, s.dev.kind b = .dpsram → s.dev.hasDmaRam = true →
      Memory.read ({ s with dma := [[⟨b, v⟩]] } : State).dmaTurn.mem b = some v

/-! ### Address generation -/

/-- R105 with decisions D10 (log 26) and D9 (log 28: in the indexed mode the base register alone is compared with XWM, so
the mode is linear whatever register the index is): where no modifier acts, every addressing mode gives the effective
address and the pointer of the mode table modulo 2^16, through each of the three address generators. -/
def Obligations.LinearAddressing : Prop :=
  (∀ (s : State) agu mode n sz, Unmodified s agu n →
    operand s agu mode n sz = .next (linearEa s sz n mode, linearState s sz n mode)) ∧
    ∀ (s : State) k n, Unmodified s .yAgu n →
      operandY s k n = .next (s.getW n, s.setW n (s.getW n + BitVec.ofInt 16 k))

/-- R133: X modulo addressing acts on both halves of the X AGU through the register XWM selects, Y modulo addressing on
the Y AGU through the register YWM selects, with the X or the Y bounds; W15 is never selected. -/
def Obligations.ModuloActsWhere : Prop :=
  ∀ (s : State) (agu : Agu) (n : Reg) (b : Word × Word),
    (moduloBounds s agu n = some b ↔
      (agu ≠ .yAgu ∧ s.xModSel n = true ∧ b = (s.readCtrl .xmodsrt, s.readCtrl .xmodend)) ∨
        (agu = .yAgu ∧ s.yModSel n = true ∧ b = (s.readCtrl .ymodsrt, s.readCtrl .ymodend))) ∧
      moduloBounds s agu 15 = none

/-- R140 with decision D9 (log 28: in the indexed mode the base register alone is compared with XWM, and the index is a
signed offset, R107): in a post-modification mode the access uses the old pointer and the pointer receives the adjusted address, in a
pre-modification mode both receive it, in an offset mode the effective address alone does. -/
def Obligations.ModuloAdjustsWhichValue : Prop :=
  ∀ (s : State) agu mode n sz (lo hi a : Word), moduloBounds s agu n = some (lo, hi) →
    (agu = .xWagu → s.bitRevSel n = false) → deltaOf s sz mode ≠ 0 →
    modAdjust lo.toNat hi.toNat (s.getW n).toNat (deltaOf s sz mode) = .ok (a.toNat : Int) →
    operand s agu mode n sz = .next (adjustedEa s n a mode, adjustedState s n a mode)

/-- R136 with decision D7 (log 31): an upward move from inside a buffer that starts on its zero boundary, by no more than
the buffer's length past its end, gives the moved address, less the length where it has passed the end; a downward move
likewise. -/
def Obligations.ModuloAdjustment : Prop :=
  ∀ (lo hi p n : Nat) (delta : Int), lo < hi → hi < 65536 → LeastExponent (hi - lo + 1) n → lo ≤ p → p ≤ hi →
    (0 < delta → lo % 2 ^ n = 0 → p + delta ≤ hi + (hi - lo + 1) →
      modAdjust lo hi p delta = .ok (if p + delta ≤ hi then p + delta else p + delta - (hi - lo + 1))) ∧
      (delta < 0 → hi % 2 ^ n = 2 ^ n - 1 → lo - (hi - lo + 1) ≤ p + delta →
        modAdjust lo hi p delta = .ok (if lo ≤ p + delta then p + delta else p + delta + (hi - lo + 1)))

/-- R136 with decision D8 (log 16): the five situations in which a modulo pointer move is refused, in the rule's order,
and that the operand is then refused with the same reason; and R141 with decision D26 (log 28): an access that does not
move the address, `[Wn]` or one with a zero offset, index or post-modification, is never adjusted and never refused for
the buffer, wherever the pointer is. -/
def Obligations.ModuloRefusals : Prop :=
  (∀ (lo hi p : Nat) (delta : Int), hi ≤ lo → modAdjust lo hi p delta = .error .moduloEndBelowStart) ∧
    (∀ (lo hi p : Nat) (delta : Int), lo < hi → p < lo ∨ hi < p →
      modAdjust lo hi p delta = .error .moduloPointerOutside) ∧
    (∀ (lo hi p n : Nat) (delta : Int), lo < hi → hi < 65536 → LeastExponent (hi - lo + 1) n → lo ≤ p → p ≤ hi →
      (0 < delta → lo % 2 ^ n ≠ 0 → modAdjust lo hi p delta = .error .moduloStartNotOnZeros) ∧
        (0 < delta → lo % 2 ^ n = 0 → hi + (hi - lo + 1) < p + delta →
          modAdjust lo hi p delta = .error .moduloJumpTooLong) ∧
        (delta < 0 → hi % 2 ^ n ≠ 2 ^ n - 1 → modAdjust lo hi p delta = .error .moduloEndNotOnOnes) ∧
        (delta < 0 → hi % 2 ^ n = 2 ^ n - 1 → p + delta < lo - (hi - lo + 1) →
          modAdjust lo hi p delta = .error .moduloJumpTooLong)) ∧
    (∀ (s : State) agu mode n sz (lo hi : Word) r, moduloBounds s agu n = some (lo, hi) →
      (agu = .xWagu → s.bitRevSel n = false) → deltaOf s sz mode ≠ 0 →
      modAdjust lo.toNat hi.toNat (s.getW n).toNat (deltaOf s sz mode) = .error r →
      operand s agu mode n sz = .refused r) ∧
    ∀ (s : State) agu mode n sz, deltaOf s sz mode = 0 →
      (agu = .xWagu → s.bitRevSel n = true → s.xModSel n = false) →
      operand s agu mode n sz = .next (s.getW n, s)

/-- R136: an adjusted address lies in its buffer. -/
def Obligations.ModuloStaysInBuffer : Prop :=
  ∀ (lo hi p : Nat) (delta a : Int), modAdjust lo hi p delta = .ok a → lo ≤ a ∧ a ≤ hi

/-- R138 with decision D8 (log 16): from inside a buffer, an upward move and a downward move by at most the buffer's length
are both admitted exactly when the length is a power of two that divides the start address; otherwise the buffer runs one
way at most (the spec derives this). -/
def Obligations.BothDirectionsIffPowerOfTwo : Prop :=
  ∀ (lo hi p : Nat) (up down : Int), lo < hi → hi < 65536 → lo ≤ p → p ≤ hi → 0 < up → up ≤ hi - lo + 1 →
    0 < down → down ≤ hi - lo + 1 →
    ((∃ a, modAdjust lo hi p up = .ok a) ∧ (∃ b, modAdjust lo hi p (-down) = .ok b) ↔
      ∃ k, hi - lo + 1 = 2 ^ k ∧ lo % 2 ^ k = 0)

/-- R130 and R136 with decision D7 (log 31): word steps up go round an incrementing buffer for ever: after `i` of them the pointer is `2 i` bytes
further, counted modulo the buffer's length. -/
def Obligations.ModuloBufferIsCircular : Prop :=
  ∀ lo hi p n i : Nat, lo < hi → hi < 65536 → LeastExponent (hi - lo + 1) n → lo % 2 ^ n = 0 → lo ≤ p → p ≤ hi →
    moduloSteps lo hi i p = .ok (lo + (p - lo + 2 * i) % (hi - lo + 1))

/-- R161: bit-reversed addressing acts on an access exactly under conditions (a) to (d): then the pointer receives the
reverse-carry sum with XB; otherwise XB[14:0] has no influence on the access. -/
def Obligations.BitReversalActsExactly : Prop :=
  (∀ (s : State) agu mode n sz, BitReversalActs s agu mode n sz → modifierValid s.xb = true →
    ∃ ea, operand s agu mode n sz = .next (ea, s.setW n (revCarrySum (s.getW n) s.xb))) ∧
    ∀ (s : State) agu mode n sz (x : Word), ¬BitReversalActs s agu mode n sz → x.getLsbD 15 = s.xbrev.getLsbD 15 →
      operand { s with xbrev := x } agu mode n sz = withControls x s.modcon (operand s agu mode n sz)

/-- R160: bit-reversed addressing never changes the address or the pointer of a read: a read operand is the same whatever
XBREV and the BWM field of MODCON hold. -/
def Obligations.ReadsNeverBitReversed : Prop :=
  ∀ (s : State) agu mode n sz (x m : Word), agu ≠ .xWagu →
    (∀ i, i < 8 ∨ 12 ≤ i → m.getLsbD i = s.modcon.getLsbD i) →
    operand { s with xbrev := x, modcon := m } agu mode n sz = withControls x m (operand s agu mode n sz)

/-- R111 with decisions D11 (log 27: a bit-reversed `[++Wn]` writes at the new pointer, R168) and D9 (log 28: an indexed
read compares its base register): with modulo and bit-reversed addressing on the same register, a word write through
`[Wn++]` or `[++Wn]` follows bit reversal, whatever the buffer, and a read of any mode follows the modulo boundary check,
whatever XB. -/
def Obligations.BitReversalTakesPrecedence : Prop :=
  ∀ (s : State) n, s.xModSel n = true → s.bitRevSel n = true →
    (modifierValid s.xb = true →
      operand s .xWagu (.mcu .postInc) n .word = .next (s.getW n, s.setW n (revCarrySum (s.getW n) s.xb)) ∧
        operand s .xWagu (.mcu .preInc) n .word =
          .next (revCarrySum (s.getW n) s.xb, s.setW n (revCarrySum (s.getW n) s.xb))) ∧
      ∀ mode sz (a : Word), deltaOf s sz mode ≠ 0 →
        modAdjust (s.readCtrl .xmodsrt).toNat (s.readCtrl .xmodend).toNat (s.getW n).toNat (deltaOf s sz mode) =
            .ok (a.toNat : Int) →
          operand s .xRagu mode n sz = .next (adjustedEa s n a mode, adjustedState s n a mode)

/-- R112 with decision D13 (log 16): where the register is selected for bit reversal but the access is none it acts on,
the addressing is linear, or refused if the register is selected for X modulo too. -/
def Obligations.NormalAddressesElsewhere : Prop :=
  ∀ (s : State) mode n sz, s.bitRevSel n = true → ¬BitReversalActs s .xWagu mode n sz →
    (s.xModSel n = false → operand s .xWagu mode n sz = .next (linearEa s sz n mode, linearState s sz n mode)) ∧
      (s.xModSel n = true → operand s .xWagu mode n sz = .refused .bitReversalOrModulo)

/-- R164 and R168 with decisions D11 and D12 (logs 16 and 27): a bit-reversed `[Wn++]` writes at the old pointer and
`[++Wn]` at the new one; a modifier that is not in Table 3-2 is refused, and Table 3-2 holds the fifteen powers of two. -/
def Obligations.BitReversedWriteAddress : Prop :=
  (∀ (s : State) n, s.bitRevSel n = true → modifierValid s.xb = true →
    operand s .xWagu (.mcu .postInc) n .word = .next (s.getW n, s.setW n (revCarrySum (s.getW n) s.xb)) ∧
      operand s .xWagu (.mcu .preInc) n .word =
        .next (revCarrySum (s.getW n) s.xb, s.setW n (revCarrySum (s.getW n) s.xb))) ∧
    (∀ (s : State) mode n sz, BitReversalActs s .xWagu mode n sz → modifierValid s.xb = false →
      operand s .xWagu mode n sz = .refused .modifierNotValid) ∧
    ∀ xb : BitVec 15, modifierValid xb = true ↔ ∃ k < 15, xb = BitVec.twoPow 15 k

/-- R165 (the spec derives it from R163): for the modifier of a buffer of `2^k` words the update counts the mirrored field
`p[k:1]` up by one and keeps every other bit. -/
def Obligations.ReverseCarryClosedForm : Prop :=
  ∀ (k : Nat) (p : Word), 1 ≤ k → k ≤ 15 →
    (revCarrySum p (BitVec.twoPow 15 (k - 1))).toNat / 2 % 2 ^ k =
        mirror k ((mirror k (p.toNat / 2 % 2 ^ k) + 1) % 2 ^ k) ∧
      ∀ i, i = 0 ∨ k < i → (revCarrySum p (BitVec.twoPow 15 (k - 1))).getLsbD i = p.getLsbD i

/-- R166 and R167 (the spec derives them): from a pointer whose field `p[k:1]` is zero, the pointer after `i` updates has
the bits of `i` mirrored in the field and its other bits as before; after `2^k` updates it is back. -/
def Obligations.BitReversedSequence : Prop :=
  ∀ (k i : Nat) (p : Word), 1 ≤ k → k ≤ 15 → (∀ j, 1 ≤ j → j ≤ k → p.getLsbD j = false) →
    (∀ j, (reversedUpdates (BitVec.twoPow 15 (k - 1)) i p).getLsbD j =
      if 1 ≤ j ∧ j ≤ k then i.testBit (k - j) else p.getLsbD j) ∧
      reversedUpdates (BitVec.twoPow 15 (k - 1)) (2 ^ k) p = p

/-- R169: Example 3-5, "XB Address Calculation": from word 0 the modifier 0x0008 leads to words 8, 4, 12, 2 and 10. -/
def Obligations.ExampleXbAddressCalculation : Prop :=
  reversedUpdates 0x0008 1 0x0000 = 0x0010 ∧ reversedUpdates 0x0008 2 0x0000 = 0x0008 ∧
    reversedUpdates 0x0008 3 0x0000 = 0x0018 ∧ reversedUpdates 0x0008 4 0x0000 = 0x0004 ∧
    reversedUpdates 0x0008 5 0x0000 = 0x0014

/-- R134 with decision D20 (log 16): while YMODEN is set and YWM is a reserved setting a MAC whose X prefetch completes,
delivering a word or trapping at an odd or an unimplemented pointer (D4, log 32), is refused at its Y prefetch (after a
trap that is the model's choice, log 41); with YMODEN clear the setting has no effect. -/
def Obligations.ReservedYwmRefused : Prop :=
  (∀ (s : State) m n x kx xd y ky yd kw (px : Word), s.ymoden = true → ywmReserved s.ywm = true →
    ¬Violation s (.through [x.reg, y.reg]) → macConflict m n x.reg xd y.reg yd = false →
    PostModTo s .xRagu x.reg kx px →
    (∃ v, XDelivers s (s.getW x.reg) v) ∨ isOdd (s.getW x.reg) = true ∨
      (isOdd (s.getW x.reg) = false ∧ s.dev.kind (s.getW x.reg).toNat = .absent) →
    exec (.macPrefetchWb m n x kx xd y ky yd kw) s = .refused .reservedYwm) ∧
    ∀ (s : State) k n, s.ymoden = false →
      operandY s k n = .next (s.getW n, s.setW n (s.getW n + BitVec.ofInt 16 k))

/-! ### Hazards -/

/-- R252 with decision D14 (log 15): an instruction stops as a hazard violation exactly when the rule's condition holds of
the latch, `hz_old` and the pointer registers of its indirect reads (R205). -/
def Obligations.HazardFaultExactly : Prop :=
  ∀ i s, exec i s = .fault .hazardViolated ↔ Violation s (readPointersOf i)

/-- R253 with R252 and decision D14 (log 15), what does not stop as a hazard violation in the slot after a control-register
write: an instruction that performs no indirect read, such as a literal load, a store from a register, NOP and REPEAT, after
any of the writes; after writes of start or end registers alone, an instruction that reads through no designated register,
and any instruction while modulo addressing is not enabled; after a write of XBREV alone, an instruction that reads through
no designated register, and any instruction if BREN was clear before the write. -/
def Obligations.SafeAfterControlWrite : Prop :=
  (∀ s i, readPointersOf i = .noRead → exec i s ≠ .fault .hazardViolated) ∧
    (∀ k d r f b l, readPointersOf (.movLitW k d) = .noRead ∧ readPointersOf (.movWF r f) = .noRead ∧
      readPointersOf (.movWPostinc r b) = .noRead ∧ readPointersOf .nop = .noRead ∧
      readPointersOf (.repeatLit l) = .noRead) ∧
    (∀ s i, s.hz.modcon = false → s.hz.xbrev = false →
      (¬(readPointersOf i).Designates s.xwm ∧ ¬(readPointersOf i).Designates s.ywm) ∨
        (s.xmoden = false ∧ s.ymoden = false) → exec i s ≠ .fault .hazardViolated) ∧
    ∀ s i, s.hz.modcon = false → s.hz.xmodsrt = false → s.hz.xmodend = false → s.hz.ymodsrt = false →
      s.hz.ymodend = false → ¬(readPointersOf i).Designates s.bwm ∨ s.hzOldXbrev.getLsbD 15 = false →
      exec i s ≠ .fault .hazardViolated

/-- R250: after each executed instruction `hz_old` holds MODCON and XBREV as they were before it, and the latch is the set
of control registers the instruction's write reached. (POP, which the rule names, is not executed: R200.) -/
def Obligations.LatchHoldsWrites : Prop :=
  ∀ i s t, s.dev.wf = true → exec i s = .next t →
    t.hzOldModcon = s.readCtrl .modcon ∧ t.hzOldXbrev = s.readCtrl .xbrev ∧
      ∀ r, t.hz.has r = true ↔ ∃ a sz, storeTarget s.start i = some (a, sz) ∧ ReachesCtrl s.dev a sz r

/-! ### The step -/

/-- R2, R12 and decision D19: while no fault is recorded, a step executes the instruction that the statement at the index
decodes to, a well-formed one, after the DMA controller's turn (log 23), which changes neither statement, index nor names;
no statement at the index (log 34), and a text that is no statement of the model (R86, D1), are refused. -/
def Obligations.StepRunsDecodedStatement : Prop :=
  (∀ (s : State) text i, s.faultRecord = none → s.program[s.pc]? = some text → decode s.names text = .ok i →
    step s = exec i s.dmaTurn ∧ i.wellFormed = true ∧ (s.dma = [] → s.dmaTurn = s)) ∧
    (∀ s : State, s.faultRecord = none → s.program[s.pc]? = none → step s = .refused .noStatement) ∧
    ∀ (s : State) text e, s.faultRecord = none → s.program[s.pc]? = some text → decode s.names text = .error e →
      step s = .refused (.notAStatement e)

/-- R223 with decision D18 (log 11): a recorded address error ends the run at the next step, with the recorded cause, and
no instruction clears or replaces it. -/
def Obligations.AddressErrorIsTerminal : Prop :=
  (∀ s c, s.faultRecord = some c → step s = .fault (.addressError c)) ∧
    ∀ i s t c, exec i s = .next t → s.faultRecord = some c → t.faultRecord = some c

/-- R33 with decision D2, the device, the program and its names being fields of State (log 4), and so being the DMA
controller's schedule (log 23): no step changes the first three, and a step takes one burst of the schedule before its
instruction and one between every two operand accesses of it. -/
def Obligations.ParametersNeverChange : Prop :=
  ∀ s t, step s = .next t →
    t.dev = s.dev ∧ t.program = s.program ∧ t.symbols = s.symbols ∧
      ∃ i, fetch s = .ok i ∧ t.dma = s.dma.drop (1 + turnsWithin i)

/-- R13, R14 and U37: every step keeps the invariant: memory in canonical form with bytes only where RAM is, the fixed
bits of the control registers, an admitted device. -/
def Obligations.StepKeepsInvariant : Prop := 
  ∀ s t, Sys2Proof.Machine.Inv s → step s = .next t → Sys2Proof.Machine.Inv t

/-- R181 (c) and R190: every instruction but REPEAT goes on to the next statement, or, while the repeat counter is not
zero, stays and counts it down. That it does so after an offending store (log 12) and after a read that traps (log 40) too
is the model's reading, R115 and R222 being silent on the pc. -/
def Obligations.InstructionsMoveOn : Prop :=
  ∀ i s t, (∀ lit, i ≠ .repeatLit lit) → exec i s = .next t → MovedOn s t

/-- R190: after REPEAT with count `lit` the next instruction is executed `lit + 1` times, all at one index, and then
control passes on (log 20 says what a repeated REPEAT does). -/
def Obligations.RepeatedInstructionRuns : Prop :=
  ∀ i (s t u : State) lit k, (∀ l, i ≠ .repeatLit l) → exec (.repeatLit lit) s = .next t → execTimes i k t = some u →
    (k ≤ lit → u.pc = s.pc + 1 ∧ u.rc = lit - k) ∧ (k = lit + 1 → u.pc = s.pc + 2 ∧ u.rc = 0)

/-! ### Decoding -/

/-- R84 and R85: statements of D0's examples, written out, are read as the instructions they stand for; that the name
MODCON stands for the address 0x0046 is the model's example device (log 6, general knowledge G2), and that a mnemonic R86
does not list, ADD, is refused is decision D1. -/
def Obligations.ExampleStatementsDecode : Prop :=
  decode Config.exampleDev.symbols (ascii "MOV #0x8FF4, w0     ;Initialize MODCON") = .ok (.movLitW 0x8FF4 0) ∧
    decode Config.exampleDev.symbols (ascii "MOV w0, MODCON") = .ok (.movWF 0 0x0046) ∧
    decode Config.exampleDev.symbols (ascii "MOV [w4++], w5") = .ok (.movPostincW 4 5) ∧
    decode Config.exampleDev.symbols (ascii "MOV [W0++],[W1++]") = .ok (.movPostincPostinc 0 1) ∧
    decode Config.exampleDev.symbols (ascii "REPEAT #15") = .ok (.repeatLit 15) ∧
    decode Config.exampleDev.symbols (ascii "MAC W4*W5, A, [W8]+=2, W4, [W10]+=2, W5, [W13]+=2") =
      .ok (.macPrefetchWb 4 5 .w8 2 4 .w10 2 5 2) ∧
    decode Config.exampleDev.symbols (ascii "ADD W0, W1, W2") = .error .unknownMnemonic

/-- R83 to R85: the decoder reads the statement every well-formed instruction is written as back as that instruction, with
every operand at every value. -/
def Obligations.DecodeReadsEncoded : Prop :=
  ∀ (i : Instr) (syms : SymbolTable), i.wellFormed = true → decode syms (encode i) = .ok i

/-! ### What instructions leave unchanged -/

/-- Frame: an instruction that gives a next state changes no working register but its register destination and the
pointers its modes update, changes no accumulator unless it is a MAC, changes no parameter but for the DMA controller's
turns within it (log 23), and leaves what the other SFRs hold where the device gives them no behaviour (log 22). -/
def Obligations.RegistersKept : Prop :=
  ∀ i s t, exec i s = .next t →
    RegsKeptBut (writtenRegs i) s t ∧ ParamsKept (s.dmaTurns (turnsWithin i)) t ∧
      ((∀ m n x kx xd y ky yd kw, i ≠ .macPrefetchWb m n x kx xd y ky yd kw) → t.acc = s.acc) ∧
      (s.dev.sfrRead = .refuse → s.dev.sfrWrite = .refuse → t.sfrs = s.sfrs)

/-- Frame: an instruction that gives a next state leaves every byte of memory outside its store as the DMA controller's
turns within it leave it (log 23; DmaReachesDmaRamOnly says what a turn can do), and every control register the store is
not at, as before; one that stores nothing leaves all of both. -/
def Obligations.MemoryKept : Prop :=
  ∀ i s t, exec i s = .next t →
    (storeTarget s.start i = none → MemKept (s.dmaTurns (turnsWithin i)) t ∧ CtrlKept s t) ∧
      ∀ a sz, storeTarget s.start i = some (a, sz) →
        MemKeptOutside a sz (s.dmaTurns (turnsWithin i)) t ∧ CtrlKeptBut a s t

/-- R53, R56, R222 and R224: an instruction whose store is an offending one leaves all memory, as the DMA controller's turns
within it leave it, and every control register as before, latches nothing and records an address error: the one its reads
have left (beforeStore), or, where they have left none, the store's. -/
def Obligations.OffendingStoreChangesNothing : Prop :=
  ∀ i s t a sz c, exec i s = .next t → storeTarget s.start i = some (a, sz) → writeTrap s.dev a sz = some c →
    MemKept (s.dmaTurns (turnsWithin i)) t ∧ CtrlKept s t ∧ t.hz = HazardLatch.empty ∧
      ∃ u, beforeStore s.start i = some u ∧
        (u.faultRecord = none → t.faultRecord = some c) ∧ (u.faultRecord ≠ none → t.faultRecord = u.faultRecord)

/-! ### The MOV family -/

/-- R180: `MOV #lit16, Wn` completes in every state with the literal in Wn and nothing else changed. -/
def Obligations.MovLiteral : Prop :=
  ∀ (s : State) lit d, ∃ t, exec (.movLitW lit d) s = .next t ∧ t.getW d = lit ∧ CompletedChanging [d] s t

/-- R182 with log 12 (the pc moves on after an offending store) and decision D4 (log 32: a write to nothing traps):
`MOV Wn, f` stores Wn in RAM, or in a control register under R14, which is then the latch; at an odd or an unimplemented
address it stores nothing and records the address error. -/
def Obligations.MovToAddress : Prop :=
  ∀ (s : State) (r : Reg) (f : Word),
    (RamWritable s.dev f → ∃ t, exec (.movWF r f) s = .next t ∧ HoldsWord t f (s.getW r) ∧
      CompletedStoring [] f .word s t) ∧
      (s.dev.wf = true → ∀ k, f = s.dev.addrOf k → ∃ t, exec (.movWF r f) s = .next t ∧
        CompletedControlWrite [] k (s.getW r) s t) ∧
      (s.faultRecord = none → isOdd f = true → ∃ t, exec (.movWF r f) s = .next t ∧
        t.faultRecord = some .misalignedWrite ∧ MemKept s t ∧ CtrlKept s t ∧ RegsKeptBut [] s t ∧ MovedOn s t) ∧
      (s.faultRecord = none → isOdd f = false → s.dev.kind f.toNat = .absent → ∃ t, exec (.movWF r f) s = .next t ∧
        t.faultRecord = some .unimplementedWrite ∧ MemKept s t ∧ CtrlKept s t ∧ RegsKeptBut [] s t ∧ MovedOn s t)

/-- R183 with decision D4 (log 32: a read of nothing traps) and log 40 (what stands after a trapped read): `MOV [Ws], Wd`
loads the word of RAM or the control register Ws points to; at an odd or an unimplemented address it completes and records
the address error; the hazard check applies, and a violation is the fault of decision D14 (log 15). -/
def Obligations.MovIndirect : Prop :=
  ∀ (s : State) (r d : Reg),
    (¬Violation s (.through [r]) →
      (∀ v, WordDelivers s (s.getW r) v →
        ∃ t, exec (.movIndW r d) s = .next t ∧ t.getW d = v ∧ CompletedChanging [d] s t) ∧
        (s.faultRecord = none → isOdd (s.getW r) = true → ∃ t, exec (.movIndW r d) s = .next t ∧
          t.faultRecord = some .misalignedRead ∧ RegsKeptBut [d] s t ∧ MemKept s t ∧ CtrlKept s t ∧ MovedOn s t) ∧
        (s.faultRecord = none → isOdd (s.getW r) = false → s.dev.kind (s.getW r).toNat = .absent →
          ∃ t, exec (.movIndW r d) s = .next t ∧ t.faultRecord = some .unimplementedRead ∧ t.getW d = 0 ∧
            RegsKeptBut [d] s t ∧ MemKept s t ∧ CtrlKept s t ∧ MovedOn s t)) ∧
      (Violation s (.through [r]) → exec (.movIndW r d) s = .fault .hazardViolated)

/-- R184 with decision D4 (log 32: a read of nothing traps): `MOV [Ws++], Wd` loads the word of RAM or the control register
Ws points to and leaves Ws where R110 puts it, adjusted if the register is selected for X modulo; at an odd or an
unimplemented address it completes (log 40) and records the address error, and nothing is said of Ws (R115); `s = d` is
refused. -/
def Obligations.MovPostincLoad : Prop :=
  ∀ (s : State) (r d : Reg), ¬Violation s (.through [r]) →
    (∀ v p, r ≠ d → WordDelivers s (s.getW r) v → PostIncTo s .xRagu r p →
      ∃ t, exec (.movPostincW r d) s = .next t ∧ t.getW d = v ∧ t.getW r = p ∧ CompletedChanging [r, d] s t) ∧
      (∀ p, r ≠ d → s.faultRecord = none → PostIncTo s .xRagu r p → isOdd (s.getW r) = true →
        ∃ t, exec (.movPostincW r d) s = .next t ∧ t.faultRecord = some .misalignedRead ∧
          RegsKeptBut [r, d] s t ∧ MemKept s t ∧ CtrlKept s t ∧ MovedOn s t) ∧
      (∀ p, r ≠ d → s.faultRecord = none → PostIncTo s .xRagu r p → isOdd (s.getW r) = false →
        s.dev.kind (s.getW r).toNat = .absent → ∃ t, exec (.movPostincW r d) s = .next t ∧
          t.faultRecord = some .unimplementedRead ∧ t.getW d = 0 ∧ RegsKeptBut [r, d] s t ∧ MemKept s t ∧
          CtrlKept s t ∧ MovedOn s t) ∧
      (r = d → exec (.movPostincW r d) s = .refused .registerConflict)

/-- R185 with log 12 (the pc moves on after an offending store) and decision D4 (log 32: a write to nothing traps):
`MOV Ws, [Wd++]` stores Ws where Wd points, in RAM or in a control register, and leaves Wd where R110 puts it:
bit-reversed, else modulo, else two further; at an odd or an unimplemented address it stores nothing and records the
address error; `s = d` is refused. It may follow any control-register write. -/
def Obligations.MovPostincStore : Prop :=
  ∀ (s : State) (r d : Reg),
    (∀ p, r ≠ d → RamWritable s.dev (s.getW d) → PostIncTo s .xWagu d p →
      ∃ t, exec (.movWPostinc r d) s = .next t ∧ HoldsWord t (s.getW d) (s.getW r) ∧ t.getW d = p ∧
        CompletedStoring [d] (s.getW d) .word s t) ∧
      (∀ p k, r ≠ d → s.dev.wf = true → s.getW d = s.dev.addrOf k → PostIncTo s .xWagu d p →
        ∃ t, exec (.movWPostinc r d) s = .next t ∧ t.getW d = p ∧ CompletedControlWrite [d] k (s.getW r) s t) ∧
      (∀ p, r ≠ d → s.faultRecord = none → PostIncTo s .xWagu d p → isOdd (s.getW d) = true →
        ∃ t, exec (.movWPostinc r d) s = .next t ∧ t.faultRecord = some .misalignedWrite ∧ RegsKeptBut [d] s t ∧
          MemKept s t ∧ CtrlKept s t ∧ MovedOn s t) ∧
      (∀ p, r ≠ d → s.faultRecord = none → PostIncTo s .xWagu d p → isOdd (s.getW d) = false →
        s.dev.kind (s.getW d).toNat = .absent → ∃ t, exec (.movWPostinc r d) s = .next t ∧
          t.faultRecord = some .unimplementedWrite ∧ RegsKeptBut [d] s t ∧ MemKept s t ∧ CtrlKept s t ∧
          MovedOn s t) ∧
      (r = d → exec (.movWPostinc r d) s = .refused .registerConflict)

/-- R186 with log 12 (the pc moves on after an offending store), decision D4 (log 32: the unimplemented traps) and log 23
(the DMA controller's turn between the two accesses): `MOV [Ws++], [Wd++]` copies the word Ws points to where Wd points,
either in RAM or a control register, and moves both pointers as R110 says; an offending read or write is recorded, and where
both are, the read's error is the one recorded (that the write follows a read that traps is log 40); `s = d` is refused,
whatever the pointers. -/
def Obligations.MovPostincCopy : Prop :=
  ∀ (s : State) (r d : Reg), ¬Violation s (.through [r]) →
    (r = d → exec (.movPostincPostinc r d) s = .refused .registerConflict) ∧
      ∀ p q, r ≠ d → PostIncTo s .xRagu r p → PostIncTo s .xWagu d q →
        (∀ v, WordDelivers s (s.getW r) v →
          (RamWritable s.dev (s.getW d) → ∃ t, exec (.movPostincPostinc r d) s = .next t ∧ HoldsWord t (s.getW d) v ∧
            t.getW r = p ∧ t.getW d = q ∧ CompletedStoring [r, d] (s.getW d) .word s.dmaTurn t) ∧
            (∀ k, s.dev.wf = true → s.getW d = s.dev.addrOf k → ∃ t, exec (.movPostincPostinc r d) s = .next t ∧
              t.getW r = p ∧ t.getW d = q ∧ CompletedControlWrite [r, d] k v s.dmaTurn t) ∧
            (s.faultRecord = none → isOdd (s.getW d) = true → ∃ t, exec (.movPostincPostinc r d) s = .next t ∧
              t.faultRecord = some .misalignedWrite ∧ RegsKeptBut [r, d] s t ∧ MemKept s.dmaTurn t ∧ CtrlKept s t ∧
              MovedOn s t) ∧
            (s.faultRecord = none → isOdd (s.getW d) = false → s.dev.kind (s.getW d).toNat = .absent →
              ∃ t, exec (.movPostincPostinc r d) s = .next t ∧ t.faultRecord = some .unimplementedWrite ∧
                RegsKeptBut [r, d] s t ∧ MemKept s.dmaTurn t ∧ CtrlKept s t ∧ MovedOn s t)) ∧
          (s.faultRecord = none →
            isOdd (s.getW d) = true ∨ isRam s.dev (s.getW d).toNat = true ∨
                s.dev.kind (s.getW d).toNat = .absent ∨ (s.dev.wf = true ∧ ∃ k, s.getW d = s.dev.addrOf k) →
            (isOdd (s.getW r) = true → ∃ t, exec (.movPostincPostinc r d) s = .next t ∧
              t.faultRecord = some .misalignedRead) ∧
              (isOdd (s.getW r) = false → s.dev.kind (s.getW r).toNat = .absent →
                ∃ t, exec (.movPostincPostinc r d) s = .next t ∧ t.faultRecord = some .unimplementedRead))

/-- R187 with decision D22 (log 29: byte access to a control register; which combinations exist is log 18, the DMA
controller's turn between the two accesses log 23): the general MOV, of words or from memory to memory of bytes, reads its
source and then stores it in its destination, in every addressing mode, where no modifier acts and RAM or a control
register is behind either operand. -/
def Obligations.MovGeneralCompletes : Prop :=
  ∀ (s : State) sz src dst (v : Word) (u t : State), byteFormDescribed sz src dst = true →
    movConflict src dst = false → ¬Violation s (MovSrc.readPointers src) → SourceGives s.start sz src v u →
    DestinationTakes (turnBetween src dst u) sz v dst t → exec (.movGeneral sz src dst) s = .next t.advance

/-- R110 and R187 (logs 18 and 23): the general MOV under modulo and bit-reversed addressing: it reads a memory source where
Operand points and keeps the pointer Operand leaves, and stores the value read where Operand points for its destination, in
RAM, in a control register (decision D22, log 29) or in another SFR of a device that gives it a behaviour (log 22). -/
def Obligations.MovGeneralUnderModifiers : Prop :=
  ∀ (s : State) sz src (v : Word) (u : State), ¬Violation s (MovSrc.readPointers src) →
    SourceReads s.start sz src v u → MovStores s sz src v u

/-- R187 with decision D27 and R114 with decision D25 (log 17): a byte MOV that is not from memory to memory is refused;
so is a MOV one of whose operands updates a register the other names. -/
def Obligations.RefusedMovForms : Prop :=
  ∀ (s : State) src dst, ¬Violation s (MovSrc.readPointers src) →
    (src.isMem = false ∨ dst.isMem = false → exec (.movGeneral .byte src dst) s = .refused .byteFormNotDescribed) ∧
      ∀ sz, byteFormDescribed sz src dst = true →
        (∃ r, (r ∈ MovSrc.updates src ∧ r ∈ MovDst.names dst) ∨ (r ∈ MovDst.updates dst ∧ r ∈ MovSrc.names src)) →
        exec (.movGeneral sz src dst) s = .refused .registerConflict

/-! ### The other instructions -/

/-- R189: NOP completes in every state, changes no register and no memory, and leaves the hazard latch empty. -/
def Obligations.NopCompletes : Prop := ∀ s : State, ∃ t, exec .nop s = .next t ∧ CompletedChanging [] s t

/-- R190: REPEAT completes in every state with the counter loaded and control at the next statement, nothing else changed
(that it does so when itself repeated is log 20). -/
def Obligations.RepeatLoadsCounter : Prop :=
  ∀ (s : State) lit, ∃ t, exec (.repeatLit lit) s = .next t ∧ t.rc = lit ∧ t.pc = s.pc + 1 ∧ RegsKeptBut [] s t ∧
    MemKept s t ∧ CtrlKept s t ∧ ParamsKept s t ∧ LatchEmptied s t ∧ NothingRaised s t

/-- R191: a model refuses DO, in every state. -/
def Obligations.DoRefused : Prop := ∀ (s : State) lit label, exec (.doLitLabel lit label) s = .refused .doNotDescribed

/-- R200 to R204 with decision D1 (log 35): POP, RETURN, RETFIE, RETLW and ULNK are implicit indirect reads for the hazard
check, POP through W15 (derived by the spec), and their execution is refused, where R252 finds no violation; while MODCON is
in the latch they are a hazard violation, which is a fault by decision D14 (log 15). -/
def Obligations.ImplicitReadsRefused : Prop :=
  (∀ (s : State) dst, ¬Violation s (.through [15]) → exec (.pop dst) s = .refused .popNotDescribed) ∧
    (∀ s : State, ¬Violation s .every →
      exec .returnCall s = .refused .returnNotDescribed ∧ exec .retfie s = .refused .retfieNotDescribed ∧
        (∀ lit d, exec (.retlw lit d) s = .refused .retlwNotDescribed) ∧
        exec .ulnk s = .refused .ulnkNotDescribed) ∧
    ∀ s : State, s.hz.modcon = true →
      (∀ dst, exec (.pop dst) s = .fault .hazardViolated) ∧ exec .returnCall s = .fault .hazardViolated ∧
        exec .retfie s = .fault .hazardViolated ∧ (∀ lit d, exec (.retlw lit d) s = .fault .hazardViolated) ∧
        exec .ulnk s = .fault .hazardViolated

/-- R195 with decision D24 (log 9), the DMA controller's turns between its accesses being log 23: a MAC multiplies the registers as they are before its prefetches, loads what its split
view reads deliver, moves its three pointers as R110 says and stores the written-back word through W13 in the combined
view; what it computes is Config.macArith, whatever that is. -/
def Obligations.MacCompletes : Prop :=
  ∀ (s : State) m n x kx xd y ky yd kw (px py pw xv yv : Word), ¬Violation s (.through [x.reg, y.reg]) →
    macConflict m n x.reg xd y.reg yd = false → ¬(s.ymoden = true ∧ ywmReserved s.ywm = true) →
    PostModTo s .xRagu x.reg kx px → XDelivers s (s.getW x.reg) xv → PostModTo s .yAgu y.reg ky py →
    YDelivers s.dmaTurn (s.getW y.reg) yv → (s.bitRevSel 13 = true → s.xModSel 13 = false) →
    PostModTo s .xWagu 13 kw pw → RamWritable s.dev (s.getW 13) →
    ∃ t, exec (.macPrefetchWb m n x kx xd y ky yd kw) s = .next t ∧ t.getW xd = xv ∧ t.getW yd = yv ∧
      t.getW x.reg = px ∧ t.getW y.reg = py ∧ t.getW 13 = pw ∧
      HoldsWord t (s.getW 13) (Config.macArith (s.getW m) (s.getW n) s.acc).2 ∧
      t.acc = (Config.macArith (s.getW m) (s.getW n) s.acc).1 ∧ RegsKeptBut [x.reg, y.reg, xd, yd, 13] s t ∧
      MemKeptOutside (s.getW 13) .word s.dmaTurn.dmaTurn t ∧ CtrlKept s t ∧ ParamsKept s.dmaTurn.dmaTurn t ∧
      MovedOn s t ∧ LatchEmptied s t ∧ t.faultRecord = s.faultRecord ∧ t.sfrs = s.sfrs ∧ t.freeCount = s.freeCount

/-- R195 with decision D4 (log 32): a MAC whose X or Y pointer, or both, are odd or unimplemented records the address error,
that of the X prefetch where both trap (R224, log 14), and completes, its destination loaded, zeros where nothing stands
(log 40); of a pointer after its trapped prefetch nothing is said (R115); register conflicts (R114, log 17) are refused. -/
def Obligations.MacTrapsAndConflicts : Prop :=
  (∀ (s : State) m n x kx xd y ky yd kw (px py pw : Word), ¬Violation s (.through [x.reg, y.reg]) →
    macConflict m n x.reg xd y.reg yd = false → ¬(s.ymoden = true ∧ ywmReserved s.ywm = true) →
    PostModTo s .xRagu x.reg kx px → PostModTo s .yAgu y.reg ky py →
    (s.bitRevSel 13 = true → s.xModSel 13 = false) → PostModTo s .xWagu 13 kw pw → RamWritable s.dev (s.getW 13) →
    s.faultRecord = none →
    (∀ c yv, ReadTraps s.dev (s.getW x.reg) .word c → YDelivers s.dmaTurn (s.getW y.reg) yv →
      ∃ t, exec (.macPrefetchWb m n x kx xd y ky yd kw) s = .next t ∧ t.faultRecord = some c ∧
        (c = .unimplementedRead → t.getW xd = 0) ∧ t.getW yd = yv ∧ t.getW y.reg = py ∧
        MacWroteBack m n [x.reg, y.reg, xd, yd] pw s t) ∧
      (∀ c xv, XDelivers s (s.getW x.reg) xv → ReadTraps s.dev (s.getW y.reg) .word c →
        ∃ t, exec (.macPrefetchWb m n x kx xd y ky yd kw) s = .next t ∧ t.faultRecord = some c ∧ t.getW xd = xv ∧
          (c = .unimplementedRead → t.getW yd = 0) ∧ t.getW x.reg = px ∧
          MacWroteBack m n [x.reg, y.reg, xd, yd] pw s t) ∧
      ∀ c c', ReadTraps s.dev (s.getW x.reg) .word c → ReadTraps s.dev (s.getW y.reg) .word c' →
        ∃ t, exec (.macPrefetchWb m n x kx xd y ky yd kw) s = .next t ∧ t.faultRecord = some c ∧
          (c = .unimplementedRead → t.getW xd = 0) ∧ (c' = .unimplementedRead → t.getW yd = 0) ∧
          MacWroteBack m n [x.reg, y.reg, xd, yd] pw s t) ∧
    ∀ (s : State) m n x kx xd y ky yd kw, ¬Violation s (.through [x.reg, y.reg]) →
      m ∈ [x.reg, y.reg, 13] ∨ n ∈ [x.reg, y.reg, 13] ∨ xd ∈ [x.reg, y.reg, 13] ∨ yd ∈ [x.reg, y.reg, 13] ∨ xd = yd →
      exec (.macPrefetchWb m n x kx xd y ky yd kw) s = .refused .registerConflict

/-- R53, R56 and R222 with decisions D4 and D5 (logs 32 and 33): a general MOV whose read traps records the read's error and
goes on (log 40): what the read delivers is loaded or stored as after any read (logs 18, 22, 23, 29), and until then nothing
has changed but the pointer its source's mode updates, of which nothing is said (R115), and what a read may draw. -/
def Obligations.MovGeneralTrappedRead : Prop :=
  ∀ (s : State) sz src ea c, ¬Violation s (MovSrc.readPointers src) → s.faultRecord = none →
    SourceAddress s.start sz src ea → ReadTraps s.dev ea sz c →
    ∃ v u, u.faultRecord = some c ∧ (∀ x, TrapDelivers s ea x c → v = x) ∧ RegsKeptBut (MovSrc.updates src) s u ∧
      MemKept s u ∧ CtrlKept s u ∧ ParamsKept s u ∧ LatchEmptied s u ∧ u.acc = s.acc ∧ u.pc = s.pc ∧ u.rc = s.rc ∧
      MovStores s sz src v u

end Statements
end

