-- ==== Sys2Proof/Laws/Decode.lean ====
section
/-!
SUPPORT. The laws of the decoder and the encoder: digits read back as their number, and the texts the encoder writes
break into the tokens they are made of.
-/
namespace Sys2Proof

/-! ### Digits -/

theorem hexDigit_digitByte : ∀ n < 16, hexDigitValue (digitByte n) = some n := by decide

theorem decDigit_digitByte : ∀ n < 10, decDigitValue (digitByte n) = some n := by decide

theorem isDigit_digitByte : ∀ n < 10, isDigit (digitByte n) = true := by decide

theorem isWordByte_digitByte : ∀ n < 16, isWordByte (digitByte n) = true := by decide

theorem digitByte_ne : ∀ n < 16, (digitByte n).toNat ≠ 59 ∧ digitByte n ≠ 120#8 := by decide

theorem digitsValue_append (base : Nat) (digit : Byte → Option Nat) (xs ys : List Byte) (acc : Nat) :
    digitsValue base digit (xs ++ ys) acc = (digitsValue base digit xs acc).bind (digitsValue base digit ys) := by
  induction xs generalizing acc with
  | nil => rfl
  | cons b xs ih =>
    simp only [List.cons_append, digitsValue]
    cases digit b with
    | none => rfl
    | some d => exact ih _

/-- Every byte of a decimal number is a digit of value below ten. -/
theorem decimalFrom_digits {fuel n : Nat} {b : Byte} (h : b ∈ decimalFrom fuel n) : ∃ d < 10, b = digitByte d := by
  induction fuel generalizing n with
  | zero => cases h
  | succ fuel ih =>
    simp only [decimalFrom] at h
    split_ifs at h with hn
    · exact ⟨n, hn, List.mem_singleton.mp h⟩
    · rcases List.mem_append.mp h with h | h
      · exact ih h
      · exact ⟨n % 10, by omega, List.mem_singleton.mp h⟩

/-- Decimal digits read back as their number. -/
theorem digitsValue_decimalFrom {fuel n : Nat} (h : n < fuel) :
    digitsValue 10 decDigitValue (decimalFrom fuel n) 0 = some n := by
  induction fuel generalizing n with
  | zero => omega
  | succ fuel ih =>
    simp only [decimalFrom]
    split_ifs with hn
    · simp [digitsValue, decDigit_digitByte n hn]
    · rw [digitsValue_append, ih (by omega)]
      simp only [Option.bind_some, digitsValue, decDigit_digitByte (n % 10) (by omega)]
      congr 1; omega

theorem decimalFrom_ne_nil {fuel n : Nat} : decimalFrom (fuel + 1) n ≠ [] := by
  simp only [decimalFrom]; split_ifs <;> simp

theorem numberValue_decimal (n : Nat) : numberValue (decimal n) = some n := by
  have hv : digitsValue 10 decDigitValue (decimal n) 0 = some n := digitsValue_decimalFrom (Nat.lt_succ_self n)
  unfold numberValue
  split
  · next b bs heq =>
    have hm : (120#8 : Byte) ∈ decimal n := by rw [heq]; simp
    obtain ⟨d, hd, he⟩ := decimalFrom_digits hm
    exact absurd he.symm (digitByte_ne d (by omega)).2
  · exact hv

theorem numberValue_hexWord (v : Word) : numberValue (hexWord v) = some v.toNat := by
  have hv := v.isLt
  simp only [hexWord, numberValue, digitsValue, hexDigit_digitByte _ (show v.toNat / 4096 < 16 by omega),
    hexDigit_digitByte _ (show v.toNat / 256 % 16 < 16 by omega),
    hexDigit_digitByte _ (show v.toNat / 16 % 16 < 16 by omega),
    hexDigit_digitByte _ (show v.toNat % 16 < 16 by omega)]
  congr 1; omega

/-! ### Words of a text -/

/-- A maximal run of word characters that reads as the token `t`. -/
structure IsLexeme (ws : List Byte) (t : Token) : Prop where
  nonempty : ws ≠ []
  wordBytes : ∀ b ∈ ws, isWordByte b = true
  reads : classify ws = .ok t

theorem isLexeme_decimal (n : Nat) : IsLexeme (decimal n) (.num n) where
  nonempty := decimalFrom_ne_nil
  wordBytes b h := by
    obtain ⟨d, hd, rfl⟩ := decimalFrom_digits h
    exact isWordByte_digitByte d (by omega)
  reads := by
    have hv := numberValue_decimal n
    have hd : ∀ b ∈ decimal n, isDigit b = true := fun b h => by
      obtain ⟨d, hd, rfl⟩ := decimalFrom_digits h
      exact isDigit_digitByte d hd
    cases hdec : decimal n with
    | nil => exact absurd hdec decimalFrom_ne_nil
    | cons b bs =>
      rw [hdec] at hv hd
      simp [classify, hd b (by simp), hv]

theorem isLexeme_hexWord (v : Word) : IsLexeme (hexWord v) (.num v.toNat) where
  nonempty := by simp [hexWord]
  wordBytes b h := by
    have hv := v.isLt
    simp only [hexWord, List.mem_cons, List.not_mem_nil, or_false] at h
    rcases h with rfl | rfl | rfl | rfl | rfl | rfl
    · rfl
    · rfl
    · exact isWordByte_digitByte _ (by omega)
    · exact isWordByte_digitByte _ (by omega)
    · exact isWordByte_digitByte _ (by omega)
    · exact isWordByte_digitByte _ (by omega)
  reads := by
    have hv := numberValue_hexWord v
    unfold hexWord at hv ⊢
    have hd : isDigit 48#8 = true := by decide
    simp only [classify, hd, if_true, hv]

theorem regName_facts : ∀ r : Reg, classify (regName r) = .ok (.word (regName r)) ∧
    (∀ b ∈ regName r, isWordByte b = true) ∧ regOfName (regName r) = some r := by decide

theorem isLexeme_regName (r : Reg) : IsLexeme (regName r) (.word (regName r)) where
  nonempty := by simp [regName]
  wordBytes := (regName_facts r).2.1
  reads := (regName_facts r).1

@[simp] theorem regOfName_regName (r : Reg) : regOfName (regName r) = some r := (regName_facts r).2.2

theorem isLexeme_name {bs : List Byte} (h : isName bs = true) : IsLexeme bs (.word bs) := by
  cases bs with
  | nil => cases h
  | cons b bs =>
    simp only [isName, Bool.and_eq_true, List.all_eq_true] at h
    refine ⟨by simp, fun c hc => ?_, ?_⟩
    · rcases List.mem_cons.mp hc with rfl | hc
      · simp [isWordByte, h.1]
      · exact h.2 c hc
    · have hd : isDigit b = false := by
        have := h.1
        simp only [isLetter, Bool.or_eq_true, Bool.and_eq_true, decide_eq_true_eq, beq_iff_eq] at this
        simp only [isDigit, Bool.and_eq_false_iff, decide_eq_false_iff_not]; omega
      simp [classify, hd]

/-! ### Texts and their tokens -/

/-- A text that goes on with no word character. -/
def Stops (rest : List Byte) : Prop := ∀ b bs, rest = b :: bs → isWordByte b = false

theorem Stops.nil : Stops [] := fun _ _ h => nomatch h

theorem Stops.cons {b : Byte} (h : isWordByte b = false) (bs : List Byte) : Stops (b :: bs) := fun _ _ h' => by
  cases h'; exact h

/-- A text has the tokens `ts`, whatever follows it. -/
def HasTokens (bs : List Byte) (ts : List Token) : Prop :=
  ∀ rest, lexFrom (bs ++ rest) [] = (lexFrom rest []).map (ts ++ ·)

/-- A text has the tokens `ts`, provided no word character follows it. -/
def EndsTokens (bs : List Byte) (ts : List Token) : Prop :=
  ∀ rest, Stops rest → lexFrom (bs ++ rest) [] = (lexFrom rest []).map (ts ++ ·)

theorem lexFrom_wordBytes {ws : List Byte} (h : ∀ b ∈ ws, isWordByte b = true) (rest cur : List Byte) :
    lexFrom (ws ++ rest) cur = lexFrom rest (ws.reverse ++ cur) := by
  induction ws generalizing cur with
  | nil => rfl
  | cons b ws ih =>
    rw [List.cons_append, lexFrom, if_pos (h b (by simp)), ih (fun c hc => h c (by simp [hc]))]
    simp

/-- A collected word is flushed before what follows a character that is none. -/
theorem lexFrom_flush {cur : List Byte} {rest : List Byte} (h : Stops rest) :
    lexFrom rest cur = flushWord cur (lexFrom rest []) ∨ ∃ e, lexFrom rest [] = .error e ∧ lexFrom rest cur = .error e := by
  cases rest with
  | nil => exact .inl rfl
  | cons b bs =>
    have hb := h b bs rfl
    simp only [lexFrom, hb, Bool.false_eq_true, if_false]
    by_cases hbl : isBlank b = true
    · simp only [hbl, if_true]; exact .inl rfl
    · simp only [hbl]
      cases hp : punctuation b with
      | some t => exact .inl rfl
      | none => exact .inr ⟨_, rfl, rfl⟩

theorem IsLexeme.endsTokens {ws : List Byte} {t : Token} (h : IsLexeme ws t) : EndsTokens ws [t] := by
  intro rest hrest
  rw [lexFrom_wordBytes h.wordBytes, List.append_nil]
  have hrev : ∀ r, flushWord ws.reverse r = r.map ([t] ++ ·) := by
    intro r
    have hne : ws.reverse ≠ [] := by simpa using h.nonempty
    cases hw : ws.reverse with
    | nil => exact absurd hw hne
    | cons b bs =>
      have : (b :: bs).reverse = ws := by rw [← hw, List.reverse_reverse]
      simp only [flushWord, this, h.reads]
      cases r <;> rfl
  rcases lexFrom_flush hrest (cur := ws.reverse) with hl | ⟨e, he, hl⟩
  · rw [hl, hrev]
  · rw [hl, he]; rfl

theorem hasTokens_nil : HasTokens [] [] := fun rest => by
  cases h : lexFrom rest [] <;> simp [h, Except.map]

theorem hasTokens_punctuation {b : Byte} {t : Token} (h₁ : isWordByte b = false) (h₂ : isBlank b = false)
    (h₃ : punctuation b = some t) : HasTokens [b] [t] := fun rest => by
  simp only [List.singleton_append, lexFrom, h₁, h₂, h₃, flushWord, Bool.false_eq_true, if_false]
  cases lexFrom rest [] <;> rfl

theorem hasTokens_blank : HasTokens [32#8] [] := fun rest => by
  have h₁ : isWordByte 32#8 = false := by decide
  have h₂ : isBlank 32#8 = true := by decide
  simp only [List.singleton_append, lexFrom, h₁, h₂, flushWord, Bool.false_eq_true, if_false, if_true]
  cases lexFrom rest [] <;> rfl

theorem map_append_append (r : Except DecodeError (List Token)) (a b : List Token) :
    (r.map (b ++ ·)).map (a ++ ·) = r.map ((a ++ b) ++ ·) := by
  cases r <;> simp [Except.map]

theorem HasTokens.append {a b : List Byte} {ta tb : List Token} (ha : HasTokens a ta) (hb : HasTokens b tb) :
    HasTokens (a ++ b) (ta ++ tb) := fun rest => by
  rw [List.append_assoc, ha, hb, map_append_append]

theorem HasTokens.append_ends {a b : List Byte} {ta tb : List Token} (ha : HasTokens a ta) (hb : EndsTokens b tb) :
    EndsTokens (a ++ b) (ta ++ tb) := fun rest hr => by
  rw [List.append_assoc, ha, hb rest hr, map_append_append]

theorem EndsTokens.append {a b : List Byte} {ta tb : List Token} (ha : EndsTokens a ta)
    (hs : ∀ rest, Stops (b ++ rest)) (hb : HasTokens b tb) : HasTokens (a ++ b) (ta ++ tb) := fun rest => by
  rw [List.append_assoc, ha _ (hs rest), hb, map_append_append]

theorem EndsTokens.append_ends {a b : List Byte} {ta tb : List Token} (ha : EndsTokens a ta)
    (hs : ∀ rest, Stops (b ++ rest)) (hb : EndsTokens b tb) : EndsTokens (a ++ b) (ta ++ tb) := fun rest hr => by
  rw [List.append_assoc, ha _ (hs rest), hb rest hr, map_append_append]

theorem HasTokens.ends {a : List Byte} {ta : List Token} (ha : HasTokens a ta) : EndsTokens a ta := fun rest _ => ha rest

/-- The tokens of a whole text. -/
theorem EndsTokens.lex {a : List Byte} {ta : List Token} (ha : EndsTokens a ta) : lexFrom a [] = .ok ta := by
  have := ha [] .nil
  rw [List.append_nil] at this
  rw [this]; simp [lexFrom, flushWord, Except.map]

/-! ### No comment in a text that lexes -/

/-- A text with tokens holds no `;`, so nothing is stripped from it. -/
theorem stripComment_of_lex {bs : List Byte} {cur : List Byte} {ts : List Token} (h : lexFrom bs cur = .ok ts) :
    stripComment bs = bs := by
  induction bs generalizing cur ts with
  | nil => rfl
  | cons b bs ih =>
    have hb : b.toNat ≠ 59 := by
      intro h59
      have : b = 59#8 := BitVec.eq_of_toNat_eq h59
      subst this
      have h₁ : isWordByte 59#8 = false := by decide
      have h₂ : isBlank 59#8 = false := by decide
      have h₃ : punctuation 59#8 = none := by decide
      simp [lexFrom, h₁, h₂, h₃] at h
    have hrest : ∃ cur' ts', lexFrom bs cur' = .ok ts' := by
      have hf : ∀ c r, (∃ x, flushWord c r = .ok x) → ∃ y, r = .ok y := by
        rintro c r ⟨x, hx⟩
        cases r with
        | ok y => exact ⟨y, rfl⟩
        | error e =>
          cases c with
          | nil => cases hx
          | cons d ds => simp only [flushWord] at hx; split at hx <;> cases hx
      simp only [lexFrom] at h
      split at h
      · exact ⟨_, _, h⟩
      · split at h
        · obtain ⟨y, hy⟩ := hf _ _ ⟨_, h⟩; exact ⟨_, _, hy⟩
        · split at h
          · obtain ⟨y, hy⟩ := hf _ _ ⟨_, h⟩
            cases hl : lexFrom bs [] with
            | ok z => exact ⟨_, _, hl⟩
            | error e => rw [hl] at hy; cases hy
          · cases h
    obtain ⟨c', t', h'⟩ := hrest
    have := ih h'
    unfold stripComment at this ⊢
    rw [List.takeWhile_cons, if_pos (by simpa using hb), this]

/-- The decoder on a text whose tokens are known. -/
theorem decode_of_tokens {bs : List Byte} {ts : List Token} (syms : SymbolTable) (h : EndsTokens bs ts) :
    decode syms bs = instrOf syms ts := by
  have hl := h.lex
  unfold decode tokens
  rw [stripComment_of_lex hl, hl]

/-- Everything the decoder reads is an admitted form (R86). -/
theorem decode_wellFormed {syms : SymbolTable} {bs : List Byte} {i : Instr} (h : decode syms bs = .ok i) :
    i.wellFormed = true := by
  unfold decode at h
  split at h
  · cases h
  · unfold instrOf at h
    split at h
    · split at h
      · cases h
      · cases h
      · split at h
        · next hw => cases h; exact hw
        · cases h
    · cases h
    · cases h

/-! ### The tokens of the encoder's texts -/

/-- The tokens of a signed number. -/
def signedTokens : Int → List Token
  | .ofNat n => [.num n]
  | .negSucc n => [.minus, .num (n + 1)]

/-- The tokens of a memory operand. -/
def memTokens (o : MemOperand) : List Token :=
  match o.mode with
  | .indirect => [.lbr, .word (regName o.ptr), .rbr]
  | .postInc => [.lbr, .word (regName o.ptr), .plus, .plus, .rbr]
  | .postDec => [.lbr, .word (regName o.ptr), .minus, .minus, .rbr]
  | .preInc => [.lbr, .plus, .plus, .word (regName o.ptr), .rbr]
  | .preDec => [.lbr, .minus, .minus, .word (regName o.ptr), .rbr]
  | .indexed x => [.lbr, .word (regName o.ptr), .plus, .word (regName x), .rbr]
  | .offset k => [.lbr, .word (regName o.ptr), .plus] ++ signedTokens k ++ [.rbr]

/-- The tokens of a destination. -/
def dstTokens : MovDst → List Token
  | .reg r => [.word (regName r)]
  | .direct f => [.num f.toNat]
  | .mem o => memTokens o

/-- The tokens of a source. -/
def srcTokens : MovSrc → List Token
  | .reg r => [.word (regName r)]
  | .lit k => [.hash, .num k.toNat]
  | .direct f => [.num f.toNat]
  | .mem o => memTokens o

/-- The tokens of a DSP-class operand. -/
def postModTokens (r : Reg) (k : Int) : List Token :=
  [.lbr, .word (regName r), .rbr, .plus, .equals] ++ signedTokens k

theorem tok_lbr : HasTokens (ascii "[") [.lbr] := hasTokens_punctuation (by decide) (by decide) (by decide)
theorem tok_rbr : HasTokens (ascii "]") [.rbr] := hasTokens_punctuation (by decide) (by decide) (by decide)
theorem tok_plus : HasTokens (ascii "+") [.plus] := hasTokens_punctuation (by decide) (by decide) (by decide)
theorem tok_minus : HasTokens (ascii "-") [.minus] := hasTokens_punctuation (by decide) (by decide) (by decide)
theorem tok_equals : HasTokens (ascii "=") [.equals] := hasTokens_punctuation (by decide) (by decide) (by decide)
theorem tok_hash : HasTokens (ascii "#") [.hash] := hasTokens_punctuation (by decide) (by decide) (by decide)
theorem tok_star : HasTokens (ascii "*") [.star] := hasTokens_punctuation (by decide) (by decide) (by decide)
theorem tok_comma : HasTokens (ascii ",") [.comma] := hasTokens_punctuation (by decide) (by decide) (by decide)

theorem tok_commaBlank : HasTokens (ascii ", ") [.comma] := tok_comma.append hasTokens_blank
theorem tok_incRbr : HasTokens (ascii "++]") [.plus, .plus, .rbr] := tok_plus.append (tok_plus.append tok_rbr)
theorem tok_decRbr : HasTokens (ascii "--]") [.minus, .minus, .rbr] := tok_minus.append (tok_minus.append tok_rbr)
theorem tok_lbrInc : HasTokens (ascii "[++") [.lbr, .plus, .plus] := tok_lbr.append (tok_plus.append tok_plus)
theorem tok_lbrDec : HasTokens (ascii "[--") [.lbr, .minus, .minus] := tok_lbr.append (tok_minus.append tok_minus)
theorem tok_rbrPlusEquals : HasTokens (ascii "]+=") [.rbr, .plus, .equals] :=
  tok_rbr.append (tok_plus.append tok_equals)

theorem tok_signed (k : Int) : EndsTokens (signedDecimal k) (signedTokens k) := by
  cases k with
  | ofNat n => exact (isLexeme_decimal n).endsTokens
  | negSucc n => exact tok_minus.append_ends (isLexeme_decimal (n + 1)).endsTokens

/-- A text that begins with a punctuation or blank character stops a word. -/
theorem stops_of_head {b : Byte} {bs : List Byte} (h : isWordByte b = false) (rest : List Byte) :
    Stops (b :: bs ++ rest) := Stops.cons h _

theorem tok_reg (r : Reg) : EndsTokens (regName r) [.word (regName r)] := (isLexeme_regName r).endsTokens

theorem tok_mem (o : MemOperand) : HasTokens (memText o) (memTokens o) := by
  rcases o with ⟨r, m⟩
  have hw : ∀ {bs : List Byte} {b : Byte}, isWordByte b = false → ∀ rest, Stops (b :: bs ++ rest) :=
    fun h rest => stops_of_head h rest
  cases m with
  | indirect => exact (tok_lbr.append_ends (tok_reg r)).append (hw (by decide)) tok_rbr
  | postInc => exact (tok_lbr.append_ends (tok_reg r)).append (hw (by decide)) tok_incRbr
  | postDec => exact (tok_lbr.append_ends (tok_reg r)).append (hw (by decide)) tok_decRbr
  | preInc => exact (tok_lbrInc.append_ends (tok_reg r)).append (hw (by decide)) tok_rbr
  | preDec => exact (tok_lbrDec.append_ends (tok_reg r)).append (hw (by decide)) tok_rbr
  | indexed x =>
    exact (((tok_lbr.append_ends (tok_reg r)).append (hw (by decide)) tok_plus).append_ends (tok_reg x)).append
      (hw (by decide)) tok_rbr
  | offset k =>
    exact (((tok_lbr.append_ends (tok_reg r)).append (hw (by decide)) tok_plus).append_ends (tok_signed k)).append
      (hw (by decide)) tok_rbr

theorem tok_dst (d : MovDst) : EndsTokens (dstText d) (dstTokens d) := by
  cases d with
  | reg r => exact tok_reg r
  | direct f => exact (isLexeme_hexWord f).endsTokens
  | mem o => exact (tok_mem o).ends

theorem tok_src (s : MovSrc) : EndsTokens (srcText s) (srcTokens s) := by
  cases s with
  | reg r => exact tok_reg r
  | lit k => exact tok_hash.append_ends (isLexeme_hexWord k).endsTokens
  | direct f => exact (isLexeme_hexWord f).endsTokens
  | mem o => exact (tok_mem o).ends

theorem tok_postMod (r : Reg) (k : Int) : EndsTokens (postModText r k) (postModTokens r k) :=
  ((tok_lbr.append_ends (tok_reg r)).append (fun rest => stops_of_head (by decide) rest)
    tok_rbrPlusEquals).append_ends (tok_signed k)

/-- A mnemonic and the blank after it. -/
theorem tok_mnemonic {ws : List Byte} (h : IsLexeme ws (.word ws)) : HasTokens (ws ++ [32#8]) [.word ws] :=
  h.endsTokens.append (fun rest => stops_of_head (by decide) rest) hasTokens_blank

end Sys2Proof
end

