-- ==== Sys2Proof/Laws/State.lean ====
section
/-!
SUPPORT. The small lemmas of the state's updates: one lemma per field per update, so that no later proof unfolds a record
update, and what the accessors getW and readCtrl read after each update.
-/
namespace Sys2Proof.Machine


/-! ### setW -/

@[simp] theorem State.setW_w (s : State) (r : Reg) (v : Word) : (s.setW r v).w = s.w.set r.val v := rfl
@[simp] theorem State.setW_mem (s : State) (r : Reg) (v : Word) : (s.setW r v).mem = s.mem := rfl
@[simp] theorem State.setW_modcon (s : State) (r : Reg) (v : Word) : (s.setW r v).modcon = s.modcon := rfl
@[simp] theorem State.setW_xmodsrt (s : State) (r : Reg) (v : Word) : (s.setW r v).xmodsrt = s.xmodsrt := rfl
@[simp] theorem State.setW_xmodend (s : State) (r : Reg) (v : Word) : (s.setW r v).xmodend = s.xmodend := rfl
@[simp] theorem State.setW_ymodsrt (s : State) (r : Reg) (v : Word) : (s.setW r v).ymodsrt = s.ymodsrt := rfl
@[simp] theorem State.setW_ymodend (s : State) (r : Reg) (v : Word) : (s.setW r v).ymodend = s.ymodend := rfl
@[simp] theorem State.setW_xbrev (s : State) (r : Reg) (v : Word) : (s.setW r v).xbrev = s.xbrev := rfl
@[simp] theorem State.setW_hz (s : State) (r : Reg) (v : Word) : (s.setW r v).hz = s.hz := rfl
@[simp] theorem State.setW_hzOldModcon (s : State) (r : Reg) (v : Word) : (s.setW r v).hzOldModcon = s.hzOldModcon := rfl
@[simp] theorem State.setW_hzOldXbrev (s : State) (r : Reg) (v : Word) : (s.setW r v).hzOldXbrev = s.hzOldXbrev := rfl
@[simp] theorem State.setW_rc (s : State) (r : Reg) (v : Word) : (s.setW r v).rc = s.rc := rfl
@[simp] theorem State.setW_faultRecord (s : State) (r : Reg) (v : Word) : (s.setW r v).faultRecord = s.faultRecord := rfl
@[simp] theorem State.setW_acc (s : State) (r : Reg) (v : Word) : (s.setW r v).acc = s.acc := rfl
@[simp] theorem State.setW_sfrs (s : State) (r : Reg) (v : Word) : (s.setW r v).sfrs = s.sfrs := rfl
@[simp] theorem State.setW_pc (s : State) (r : Reg) (v : Word) : (s.setW r v).pc = s.pc := rfl
@[simp] theorem State.setW_dev (s : State) (r : Reg) (v : Word) : (s.setW r v).dev = s.dev := rfl
@[simp] theorem State.setW_program (s : State) (r : Reg) (v : Word) : (s.setW r v).program = s.program := rfl
@[simp] theorem State.setW_symbols (s : State) (r : Reg) (v : Word) : (s.setW r v).symbols = s.symbols := rfl
@[simp] theorem State.setW_dma (s : State) (r : Reg) (v : Word) : (s.setW r v).dma = s.dma := rfl
@[simp] theorem State.setW_freeCount (s : State) (r : Reg) (v : Word) : (s.setW r v).freeCount = s.freeCount := rfl
@[simp] theorem State.setW_storedCtrl (s : State) (r : Reg) (v : Word) (k : CtrlReg) : (s.setW r v).storedCtrl k = s.storedCtrl k := by
  cases k <;> rfl
@[simp] theorem State.setW_readCtrl (s : State) (r : Reg) (v : Word) (k : CtrlReg) : (s.setW r v).readCtrl k = s.readCtrl k := by
  cases k <;> rfl
@[simp] theorem State.setW_xmoden (s : State) (r : Reg) (v : Word) : (s.setW r v).xmoden = s.xmoden := rfl
@[simp] theorem State.setW_ymoden (s : State) (r : Reg) (v : Word) : (s.setW r v).ymoden = s.ymoden := rfl
@[simp] theorem State.setW_bwm (s : State) (r : Reg) (v : Word) : (s.setW r v).bwm = s.bwm := rfl
@[simp] theorem State.setW_ywm (s : State) (r : Reg) (v : Word) : (s.setW r v).ywm = s.ywm := rfl
@[simp] theorem State.setW_xwm (s : State) (r : Reg) (v : Word) : (s.setW r v).xwm = s.xwm := rfl
@[simp] theorem State.setW_bren (s : State) (r : Reg) (v : Word) : (s.setW r v).bren = s.bren := rfl
@[simp] theorem State.setW_xb (s : State) (r : Reg) (v : Word) : (s.setW r v).xb = s.xb := rfl
@[simp] theorem State.setW_xModSel (s : State) (r : Reg) (v : Word) (k : Reg) : (s.setW r v).xModSel k = s.xModSel k := rfl
@[simp] theorem State.setW_yModSel (s : State) (r : Reg) (v : Word) (k : Reg) : (s.setW r v).yModSel k = s.yModSel k := rfl
@[simp] theorem State.setW_bitRevSel (s : State) (r : Reg) (v : Word) (k : Reg) : (s.setW r v).bitRevSel k = s.bitRevSel k := rfl

/-! ### setByte -/

@[simp] theorem State.setByte_w (s : State) (a : Nat) (b : Byte) : (s.setByte a b).w = s.w := rfl
@[simp] theorem State.setByte_mem (s : State) (a : Nat) (b : Byte) : (s.setByte a b).mem = Memory.write s.mem a b := rfl
@[simp] theorem State.setByte_modcon (s : State) (a : Nat) (b : Byte) : (s.setByte a b).modcon = s.modcon := rfl
@[simp] theorem State.setByte_xmodsrt (s : State) (a : Nat) (b : Byte) : (s.setByte a b).xmodsrt = s.xmodsrt := rfl
@[simp] theorem State.setByte_xmodend (s : State) (a : Nat) (b : Byte) : (s.setByte a b).xmodend = s.xmodend := rfl
@[simp] theorem State.setByte_ymodsrt (s : State) (a : Nat) (b : Byte) : (s.setByte a b).ymodsrt = s.ymodsrt := rfl
@[simp] theorem State.setByte_ymodend (s : State) (a : Nat) (b : Byte) : (s.setByte a b).ymodend = s.ymodend := rfl
@[simp] theorem State.setByte_xbrev (s : State) (a : Nat) (b : Byte) : (s.setByte a b).xbrev = s.xbrev := rfl
@[simp] theorem State.setByte_hz (s : State) (a : Nat) (b : Byte) : (s.setByte a b).hz = s.hz := rfl
@[simp] theorem State.setByte_hzOldModcon (s : State) (a : Nat) (b : Byte) : (s.setByte a b).hzOldModcon = s.hzOldModcon := rfl
@[simp] theorem State.setByte_hzOldXbrev (s : State) (a : Nat) (b : Byte) : (s.setByte a b).hzOldXbrev = s.hzOldXbrev := rfl
@[simp] theorem State.setByte_rc (s : State) (a : Nat) (b : Byte) : (s.setByte a b).rc = s.rc := rfl
@[simp] theorem State.setByte_faultRecord (s : State) (a : Nat) (b : Byte) : (s.setByte a b).faultRecord = s.faultRecord := rfl
@[simp] theorem State.setByte_acc (s : State) (a : Nat) (b : Byte) : (s.setByte a b).acc = s.acc := rfl
@[simp] theorem State.setByte_sfrs (s : State) (a : Nat) (b : Byte) : (s.setByte a b).sfrs = s.sfrs := rfl
@[simp] theorem State.setByte_pc (s : State) (a : Nat) (b : Byte) : (s.setByte a b).pc = s.pc := rfl
@[simp] theorem State.setByte_dev (s : State) (a : Nat) (b : Byte) : (s.setByte a b).dev = s.dev := rfl
@[simp] theorem State.setByte_program (s : State) (a : Nat) (b : Byte) : (s.setByte a b).program = s.program := rfl
@[simp] theorem State.setByte_symbols (s : State) (a : Nat) (b : Byte) : (s.setByte a b).symbols = s.symbols := rfl
@[simp] theorem State.setByte_dma (s : State) (a : Nat) (b : Byte) : (s.setByte a b).dma = s.dma := rfl
@[simp] theorem State.setByte_freeCount (s : State) (a : Nat) (b : Byte) : (s.setByte a b).freeCount = s.freeCount := rfl
@[simp] theorem State.setByte_storedCtrl (s : State) (a : Nat) (b : Byte) (k : CtrlReg) : (s.setByte a b).storedCtrl k = s.storedCtrl k := by
  cases k <;> rfl
@[simp] theorem State.setByte_readCtrl (s : State) (a : Nat) (b : Byte) (k : CtrlReg) : (s.setByte a b).readCtrl k = s.readCtrl k := by
  cases k <;> rfl
@[simp] theorem State.setByte_getW (s : State) (a : Nat) (b : Byte) (k : Reg) : (s.setByte a b).getW k = s.getW k := rfl
@[simp] theorem State.setByte_xmoden (s : State) (a : Nat) (b : Byte) : (s.setByte a b).xmoden = s.xmoden := rfl
@[simp] theorem State.setByte_ymoden (s : State) (a : Nat) (b : Byte) : (s.setByte a b).ymoden = s.ymoden := rfl
@[simp] theorem State.setByte_bwm (s : State) (a : Nat) (b : Byte) : (s.setByte a b).bwm = s.bwm := rfl
@[simp] theorem State.setByte_ywm (s : State) (a : Nat) (b : Byte) : (s.setByte a b).ywm = s.ywm := rfl
@[simp] theorem State.setByte_xwm (s : State) (a : Nat) (b : Byte) : (s.setByte a b).xwm = s.xwm := rfl
@[simp] theorem State.setByte_bren (s : State) (a : Nat) (b : Byte) : (s.setByte a b).bren = s.bren := rfl
@[simp] theorem State.setByte_xb (s : State) (a : Nat) (b : Byte) : (s.setByte a b).xb = s.xb := rfl
@[simp] theorem State.setByte_xModSel (s : State) (a : Nat) (b : Byte) (k : Reg) : (s.setByte a b).xModSel k = s.xModSel k := rfl
@[simp] theorem State.setByte_yModSel (s : State) (a : Nat) (b : Byte) (k : Reg) : (s.setByte a b).yModSel k = s.yModSel k := rfl
@[simp] theorem State.setByte_bitRevSel (s : State) (a : Nat) (b : Byte) (k : Reg) : (s.setByte a b).bitRevSel k = s.bitRevSel k := rfl

/-! ### setWord -/

@[simp] theorem State.setWord_w (s : State) (a : Nat) (v : Word) : (s.setWord a v).w = s.w := rfl
@[simp] theorem State.setWord_mem (s : State) (a : Nat) (v : Word) : (s.setWord a v).mem = Memory.write (Memory.write s.mem a (v.extractLsb' 0 8)) (a + 1) (v.extractLsb' 8 8) := rfl
@[simp] theorem State.setWord_modcon (s : State) (a : Nat) (v : Word) : (s.setWord a v).modcon = s.modcon := rfl
@[simp] theorem State.setWord_xmodsrt (s : State) (a : Nat) (v : Word) : (s.setWord a v).xmodsrt = s.xmodsrt := rfl
@[simp] theorem State.setWord_xmodend (s : State) (a : Nat) (v : Word) : (s.setWord a v).xmodend = s.xmodend := rfl
@[simp] theorem State.setWord_ymodsrt (s : State) (a : Nat) (v : Word) : (s.setWord a v).ymodsrt = s.ymodsrt := rfl
@[simp] theorem State.setWord_ymodend (s : State) (a : Nat) (v : Word) : (s.setWord a v).ymodend = s.ymodend := rfl
@[simp] theorem State.setWord_xbrev (s : State) (a : Nat) (v : Word) : (s.setWord a v).xbrev = s.xbrev := rfl
@[simp] theorem State.setWord_hz (s : State) (a : Nat) (v : Word) : (s.setWord a v).hz = s.hz := rfl
@[simp] theorem State.setWord_hzOldModcon (s : State) (a : Nat) (v : Word) : (s.setWord a v).hzOldModcon = s.hzOldModcon := rfl
@[simp] theorem State.setWord_hzOldXbrev (s : State) (a : Nat) (v : Word) : (s.setWord a v).hzOldXbrev = s.hzOldXbrev := rfl
@[simp] theorem State.setWord_rc (s : State) (a : Nat) (v : Word) : (s.setWord a v).rc = s.rc := rfl
@[simp] theorem State.setWord_faultRecord (s : State) (a : Nat) (v : Word) : (s.setWord a v).faultRecord = s.faultRecord := rfl
@[simp] theorem State.setWord_acc (s : State) (a : Nat) (v : Word) : (s.setWord a v).acc = s.acc := rfl
@[simp] theorem State.setWord_sfrs (s : State) (a : Nat) (v : Word) : (s.setWord a v).sfrs = s.sfrs := rfl
@[simp] theorem State.setWord_pc (s : State) (a : Nat) (v : Word) : (s.setWord a v).pc = s.pc := rfl
@[simp] theorem State.setWord_dev (s : State) (a : Nat) (v : Word) : (s.setWord a v).dev = s.dev := rfl
@[simp] theorem State.setWord_program (s : State) (a : Nat) (v : Word) : (s.setWord a v).program = s.program := rfl
@[simp] theorem State.setWord_symbols (s : State) (a : Nat) (v : Word) : (s.setWord a v).symbols = s.symbols := rfl
@[simp] theorem State.setWord_dma (s : State) (a : Nat) (v : Word) : (s.setWord a v).dma = s.dma := rfl
@[simp] theorem State.setWord_freeCount (s : State) (a : Nat) (v : Word) : (s.setWord a v).freeCount = s.freeCount := rfl
@[simp] theorem State.setWord_storedCtrl (s : State) (a : Nat) (v : Word) (k : CtrlReg) : (s.setWord a v).storedCtrl k = s.storedCtrl k := by
  cases k <;> rfl
@[simp] theorem State.setWord_readCtrl (s : State) (a : Nat) (v : Word) (k : CtrlReg) : (s.setWord a v).readCtrl k = s.readCtrl k := by
  cases k <;> rfl
@[simp] theorem State.setWord_getW (s : State) (a : Nat) (v : Word) (k : Reg) : (s.setWord a v).getW k = s.getW k := rfl
@[simp] theorem State.setWord_xmoden (s : State) (a : Nat) (v : Word) : (s.setWord a v).xmoden = s.xmoden := rfl
@[simp] theorem State.setWord_ymoden (s : State) (a : Nat) (v : Word) : (s.setWord a v).ymoden = s.ymoden := rfl
@[simp] theorem State.setWord_bwm (s : State) (a : Nat) (v : Word) : (s.setWord a v).bwm = s.bwm := rfl
@[simp] theorem State.setWord_ywm (s : State) (a : Nat) (v : Word) : (s.setWord a v).ywm = s.ywm := rfl
@[simp] theorem State.setWord_xwm (s : State) (a : Nat) (v : Word) : (s.setWord a v).xwm = s.xwm := rfl
@[simp] theorem State.setWord_bren (s : State) (a : Nat) (v : Word) : (s.setWord a v).bren = s.bren := rfl
@[simp] theorem State.setWord_xb (s : State) (a : Nat) (v : Word) : (s.setWord a v).xb = s.xb := rfl
@[simp] theorem State.setWord_xModSel (s : State) (a : Nat) (v : Word) (k : Reg) : (s.setWord a v).xModSel k = s.xModSel k := rfl
@[simp] theorem State.setWord_yModSel (s : State) (a : Nat) (v : Word) (k : Reg) : (s.setWord a v).yModSel k = s.yModSel k := rfl
@[simp] theorem State.setWord_bitRevSel (s : State) (a : Nat) (v : Word) (k : Reg) : (s.setWord a v).bitRevSel k = s.bitRevSel k := rfl

/-! ### raise -/

@[simp] theorem State.raise_w (s : State) (c : AddressErrorCause) : (s.raise c).w = s.w := rfl
@[simp] theorem State.raise_mem (s : State) (c : AddressErrorCause) : (s.raise c).mem = s.mem := rfl
@[simp] theorem State.raise_modcon (s : State) (c : AddressErrorCause) : (s.raise c).modcon = s.modcon := rfl
@[simp] theorem State.raise_xmodsrt (s : State) (c : AddressErrorCause) : (s.raise c).xmodsrt = s.xmodsrt := rfl
@[simp] theorem State.raise_xmodend (s : State) (c : AddressErrorCause) : (s.raise c).xmodend = s.xmodend := rfl
@[simp] theorem State.raise_ymodsrt (s : State) (c : AddressErrorCause) : (s.raise c).ymodsrt = s.ymodsrt := rfl
@[simp] theorem State.raise_ymodend (s : State) (c : AddressErrorCause) : (s.raise c).ymodend = s.ymodend := rfl
@[simp] theorem State.raise_xbrev (s : State) (c : AddressErrorCause) : (s.raise c).xbrev = s.xbrev := rfl
@[simp] theorem State.raise_hz (s : State) (c : AddressErrorCause) : (s.raise c).hz = s.hz := rfl
@[simp] theorem State.raise_hzOldModcon (s : State) (c : AddressErrorCause) : (s.raise c).hzOldModcon = s.hzOldModcon := rfl
@[simp] theorem State.raise_hzOldXbrev (s : State) (c : AddressErrorCause) : (s.raise c).hzOldXbrev = s.hzOldXbrev := rfl
@[simp] theorem State.raise_rc (s : State) (c : AddressErrorCause) : (s.raise c).rc = s.rc := rfl
@[simp] theorem State.raise_faultRecord (s : State) (c : AddressErrorCause) : (s.raise c).faultRecord = (match s.faultRecord with | none => some c | some c₀ => some c₀) := rfl
@[simp] theorem State.raise_acc (s : State) (c : AddressErrorCause) : (s.raise c).acc = s.acc := rfl
@[simp] theorem State.raise_sfrs (s : State) (c : AddressErrorCause) : (s.raise c).sfrs = s.sfrs := rfl
@[simp] theorem State.raise_pc (s : State) (c : AddressErrorCause) : (s.raise c).pc = s.pc := rfl
@[simp] theorem State.raise_dev (s : State) (c : AddressErrorCause) : (s.raise c).dev = s.dev := rfl
@[simp] theorem State.raise_program (s : State) (c : AddressErrorCause) : (s.raise c).program = s.program := rfl
@[simp] theorem State.raise_symbols (s : State) (c : AddressErrorCause) : (s.raise c).symbols = s.symbols := rfl
@[simp] theorem State.raise_dma (s : State) (c : AddressErrorCause) : (s.raise c).dma = s.dma := rfl
@[simp] theorem State.raise_freeCount (s : State) (c : AddressErrorCause) : (s.raise c).freeCount = s.freeCount := rfl
@[simp] theorem State.raise_storedCtrl (s : State) (c : AddressErrorCause) (k : CtrlReg) : (s.raise c).storedCtrl k = s.storedCtrl k := by
  cases k <;> rfl
@[simp] theorem State.raise_readCtrl (s : State) (c : AddressErrorCause) (k : CtrlReg) : (s.raise c).readCtrl k = s.readCtrl k := by
  cases k <;> rfl
@[simp] theorem State.raise_getW (s : State) (c : AddressErrorCause) (k : Reg) : (s.raise c).getW k = s.getW k := rfl
@[simp] theorem State.raise_xmoden (s : State) (c : AddressErrorCause) : (s.raise c).xmoden = s.xmoden := rfl
@[simp] theorem State.raise_ymoden (s : State) (c : AddressErrorCause) : (s.raise c).ymoden = s.ymoden := rfl
@[simp] theorem State.raise_bwm (s : State) (c : AddressErrorCause) : (s.raise c).bwm = s.bwm := rfl
@[simp] theorem State.raise_ywm (s : State) (c : AddressErrorCause) : (s.raise c).ywm = s.ywm := rfl
@[simp] theorem State.raise_xwm (s : State) (c : AddressErrorCause) : (s.raise c).xwm = s.xwm := rfl
@[simp] theorem State.raise_bren (s : State) (c : AddressErrorCause) : (s.raise c).bren = s.bren := rfl
@[simp] theorem State.raise_xb (s : State) (c : AddressErrorCause) : (s.raise c).xb = s.xb := rfl
@[simp] theorem State.raise_xModSel (s : State) (c : AddressErrorCause) (k : Reg) : (s.raise c).xModSel k = s.xModSel k := rfl
@[simp] theorem State.raise_yModSel (s : State) (c : AddressErrorCause) (k : Reg) : (s.raise c).yModSel k = s.yModSel k := rfl
@[simp] theorem State.raise_bitRevSel (s : State) (c : AddressErrorCause) (k : Reg) : (s.raise c).bitRevSel k = s.bitRevSel k := rfl

/-! ### drawInto -/

@[simp] theorem State.drawInto_w (s : State) (r : Reg) : (s.drawInto r).w = s.w.set r.val (Config.freeWord s.freeCount) := rfl
@[simp] theorem State.drawInto_mem (s : State) (r : Reg) : (s.drawInto r).mem = s.mem := rfl
@[simp] theorem State.drawInto_modcon (s : State) (r : Reg) : (s.drawInto r).modcon = s.modcon := rfl
@[simp] theorem State.drawInto_xmodsrt (s : State) (r : Reg) : (s.drawInto r).xmodsrt = s.xmodsrt := rfl
@[simp] theorem State.drawInto_xmodend (s : State) (r : Reg) : (s.drawInto r).xmodend = s.xmodend := rfl
@[simp] theorem State.drawInto_ymodsrt (s : State) (r : Reg) : (s.drawInto r).ymodsrt = s.ymodsrt := rfl
@[simp] theorem State.drawInto_ymodend (s : State) (r : Reg) : (s.drawInto r).ymodend = s.ymodend := rfl
@[simp] theorem State.drawInto_xbrev (s : State) (r : Reg) : (s.drawInto r).xbrev = s.xbrev := rfl
@[simp] theorem State.drawInto_hz (s : State) (r : Reg) : (s.drawInto r).hz = s.hz := rfl
@[simp] theorem State.drawInto_hzOldModcon (s : State) (r : Reg) : (s.drawInto r).hzOldModcon = s.hzOldModcon := rfl
@[simp] theorem State.drawInto_hzOldXbrev (s : State) (r : Reg) : (s.drawInto r).hzOldXbrev = s.hzOldXbrev := rfl
@[simp] theorem State.drawInto_rc (s : State) (r : Reg) : (s.drawInto r).rc = s.rc := rfl
@[simp] theorem State.drawInto_faultRecord (s : State) (r : Reg) : (s.drawInto r).faultRecord = s.faultRecord := rfl
@[simp] theorem State.drawInto_acc (s : State) (r : Reg) : (s.drawInto r).acc = s.acc := rfl
@[simp] theorem State.drawInto_sfrs (s : State) (r : Reg) : (s.drawInto r).sfrs = s.sfrs := rfl
@[simp] theorem State.drawInto_pc (s : State) (r : Reg) : (s.drawInto r).pc = s.pc := rfl
@[simp] theorem State.drawInto_dev (s : State) (r : Reg) : (s.drawInto r).dev = s.dev := rfl
@[simp] theorem State.drawInto_program (s : State) (r : Reg) : (s.drawInto r).program = s.program := rfl
@[simp] theorem State.drawInto_symbols (s : State) (r : Reg) : (s.drawInto r).symbols = s.symbols := rfl
@[simp] theorem State.drawInto_dma (s : State) (r : Reg) : (s.drawInto r).dma = s.dma := rfl
@[simp] theorem State.drawInto_freeCount (s : State) (r : Reg) : (s.drawInto r).freeCount = s.freeCount + 1 := rfl
@[simp] theorem State.drawInto_storedCtrl (s : State) (r : Reg) (k : CtrlReg) : (s.drawInto r).storedCtrl k = s.storedCtrl k := by
  cases k <;> rfl
@[simp] theorem State.drawInto_readCtrl (s : State) (r : Reg) (k : CtrlReg) : (s.drawInto r).readCtrl k = s.readCtrl k := by
  cases k <;> rfl
@[simp] theorem State.drawInto_xmoden (s : State) (r : Reg) : (s.drawInto r).xmoden = s.xmoden := rfl
@[simp] theorem State.drawInto_ymoden (s : State) (r : Reg) : (s.drawInto r).ymoden = s.ymoden := rfl
@[simp] theorem State.drawInto_bwm (s : State) (r : Reg) : (s.drawInto r).bwm = s.bwm := rfl
@[simp] theorem State.drawInto_ywm (s : State) (r : Reg) : (s.drawInto r).ywm = s.ywm := rfl
@[simp] theorem State.drawInto_xwm (s : State) (r : Reg) : (s.drawInto r).xwm = s.xwm := rfl
@[simp] theorem State.drawInto_bren (s : State) (r : Reg) : (s.drawInto r).bren = s.bren := rfl
@[simp] theorem State.drawInto_xb (s : State) (r : Reg) : (s.drawInto r).xb = s.xb := rfl
@[simp] theorem State.drawInto_xModSel (s : State) (r : Reg) (k : Reg) : (s.drawInto r).xModSel k = s.xModSel k := rfl
@[simp] theorem State.drawInto_yModSel (s : State) (r : Reg) (k : Reg) : (s.drawInto r).yModSel k = s.yModSel k := rfl
@[simp] theorem State.drawInto_bitRevSel (s : State) (r : Reg) (k : Reg) : (s.drawInto r).bitRevSel k = s.bitRevSel k := rfl

/-! ### start -/

@[simp] theorem State.start_w (s : State) : (s.start).w = s.w := rfl
@[simp] theorem State.start_mem (s : State) : (s.start).mem = s.mem := rfl
@[simp] theorem State.start_modcon (s : State) : (s.start).modcon = s.modcon := rfl
@[simp] theorem State.start_xmodsrt (s : State) : (s.start).xmodsrt = s.xmodsrt := rfl
@[simp] theorem State.start_xmodend (s : State) : (s.start).xmodend = s.xmodend := rfl
@[simp] theorem State.start_ymodsrt (s : State) : (s.start).ymodsrt = s.ymodsrt := rfl
@[simp] theorem State.start_ymodend (s : State) : (s.start).ymodend = s.ymodend := rfl
@[simp] theorem State.start_xbrev (s : State) : (s.start).xbrev = s.xbrev := rfl
@[simp] theorem State.start_hz (s : State) : (s.start).hz = HazardLatch.empty := rfl
@[simp] theorem State.start_hzOldModcon (s : State) : (s.start).hzOldModcon = s.readCtrl .modcon := rfl
@[simp] theorem State.start_hzOldXbrev (s : State) : (s.start).hzOldXbrev = s.readCtrl .xbrev := rfl
@[simp] theorem State.start_rc (s : State) : (s.start).rc = s.rc := rfl
@[simp] theorem State.start_faultRecord (s : State) : (s.start).faultRecord = s.faultRecord := rfl
@[simp] theorem State.start_acc (s : State) : (s.start).acc = s.acc := rfl
@[simp] theorem State.start_sfrs (s : State) : (s.start).sfrs = s.sfrs := rfl
@[simp] theorem State.start_pc (s : State) : (s.start).pc = s.pc := rfl
@[simp] theorem State.start_dev (s : State) : (s.start).dev = s.dev := rfl
@[simp] theorem State.start_program (s : State) : (s.start).program = s.program := rfl
@[simp] theorem State.start_symbols (s : State) : (s.start).symbols = s.symbols := rfl
@[simp] theorem State.start_dma (s : State) : (s.start).dma = s.dma := rfl
@[simp] theorem State.start_freeCount (s : State) : (s.start).freeCount = s.freeCount := rfl
@[simp] theorem State.start_storedCtrl (s : State) (k : CtrlReg) : (s.start).storedCtrl k = s.storedCtrl k := by
  cases k <;> rfl
@[simp] theorem State.start_readCtrl (s : State) (k : CtrlReg) : (s.start).readCtrl k = s.readCtrl k := by
  cases k <;> rfl
@[simp] theorem State.start_getW (s : State) (k : Reg) : (s.start).getW k = s.getW k := rfl
@[simp] theorem State.start_xmoden (s : State) : (s.start).xmoden = s.xmoden := rfl
@[simp] theorem State.start_ymoden (s : State) : (s.start).ymoden = s.ymoden := rfl
@[simp] theorem State.start_bwm (s : State) : (s.start).bwm = s.bwm := rfl
@[simp] theorem State.start_ywm (s : State) : (s.start).ywm = s.ywm := rfl
@[simp] theorem State.start_xwm (s : State) : (s.start).xwm = s.xwm := rfl
@[simp] theorem State.start_bren (s : State) : (s.start).bren = s.bren := rfl
@[simp] theorem State.start_xb (s : State) : (s.start).xb = s.xb := rfl
@[simp] theorem State.start_xModSel (s : State) (k : Reg) : (s.start).xModSel k = s.xModSel k := rfl
@[simp] theorem State.start_yModSel (s : State) (k : Reg) : (s.start).yModSel k = s.yModSel k := rfl
@[simp] theorem State.start_bitRevSel (s : State) (k : Reg) : (s.start).bitRevSel k = s.bitRevSel k := rfl

/-! ### setSfrs -/

@[simp] theorem State.setSfrs_w (s : State) (content : Nat) : (s.setSfrs content).w = s.w := rfl
@[simp] theorem State.setSfrs_mem (s : State) (content : Nat) : (s.setSfrs content).mem = s.mem := rfl
@[simp] theorem State.setSfrs_modcon (s : State) (content : Nat) : (s.setSfrs content).modcon = s.modcon := rfl
@[simp] theorem State.setSfrs_xmodsrt (s : State) (content : Nat) : (s.setSfrs content).xmodsrt = s.xmodsrt := rfl
@[simp] theorem State.setSfrs_xmodend (s : State) (content : Nat) : (s.setSfrs content).xmodend = s.xmodend := rfl
@[simp] theorem State.setSfrs_ymodsrt (s : State) (content : Nat) : (s.setSfrs content).ymodsrt = s.ymodsrt := rfl
@[simp] theorem State.setSfrs_ymodend (s : State) (content : Nat) : (s.setSfrs content).ymodend = s.ymodend := rfl
@[simp] theorem State.setSfrs_xbrev (s : State) (content : Nat) : (s.setSfrs content).xbrev = s.xbrev := rfl
@[simp] theorem State.setSfrs_hz (s : State) (content : Nat) : (s.setSfrs content).hz = s.hz := rfl
@[simp] theorem State.setSfrs_hzOldModcon (s : State) (content : Nat) : (s.setSfrs content).hzOldModcon = s.hzOldModcon := rfl
@[simp] theorem State.setSfrs_hzOldXbrev (s : State) (content : Nat) : (s.setSfrs content).hzOldXbrev = s.hzOldXbrev := rfl
@[simp] theorem State.setSfrs_rc (s : State) (content : Nat) : (s.setSfrs content).rc = s.rc := rfl
@[simp] theorem State.setSfrs_faultRecord (s : State) (content : Nat) : (s.setSfrs content).faultRecord = s.faultRecord := rfl
@[simp] theorem State.setSfrs_acc (s : State) (content : Nat) : (s.setSfrs content).acc = s.acc := rfl
@[simp] theorem State.setSfrs_sfrs (s : State) (content : Nat) : (s.setSfrs content).sfrs = content := rfl
@[simp] theorem State.setSfrs_pc (s : State) (content : Nat) : (s.setSfrs content).pc = s.pc := rfl
@[simp] theorem State.setSfrs_dev (s : State) (content : Nat) : (s.setSfrs content).dev = s.dev := rfl
@[simp] theorem State.setSfrs_program (s : State) (content : Nat) : (s.setSfrs content).program = s.program := rfl
@[simp] theorem State.setSfrs_symbols (s : State) (content : Nat) : (s.setSfrs content).symbols = s.symbols := rfl
@[simp] theorem State.setSfrs_dma (s : State) (content : Nat) : (s.setSfrs content).dma = s.dma := rfl
@[simp] theorem State.setSfrs_freeCount (s : State) (content : Nat) : (s.setSfrs content).freeCount = s.freeCount + 1 := rfl
@[simp] theorem State.setSfrs_storedCtrl (s : State) (content : Nat) (k : CtrlReg) : (s.setSfrs content).storedCtrl k = s.storedCtrl k := by
  cases k <;> rfl
@[simp] theorem State.setSfrs_readCtrl (s : State) (content : Nat) (k : CtrlReg) : (s.setSfrs content).readCtrl k = s.readCtrl k := by
  cases k <;> rfl
@[simp] theorem State.setSfrs_getW (s : State) (content : Nat) (k : Reg) : (s.setSfrs content).getW k = s.getW k := rfl
@[simp] theorem State.setSfrs_xmoden (s : State) (content : Nat) : (s.setSfrs content).xmoden = s.xmoden := rfl
@[simp] theorem State.setSfrs_ymoden (s : State) (content : Nat) : (s.setSfrs content).ymoden = s.ymoden := rfl
@[simp] theorem State.setSfrs_bwm (s : State) (content : Nat) : (s.setSfrs content).bwm = s.bwm := rfl
@[simp] theorem State.setSfrs_ywm (s : State) (content : Nat) : (s.setSfrs content).ywm = s.ywm := rfl
@[simp] theorem State.setSfrs_xwm (s : State) (content : Nat) : (s.setSfrs content).xwm = s.xwm := rfl
@[simp] theorem State.setSfrs_bren (s : State) (content : Nat) : (s.setSfrs content).bren = s.bren := rfl
@[simp] theorem State.setSfrs_xb (s : State) (content : Nat) : (s.setSfrs content).xb = s.xb := rfl
@[simp] theorem State.setSfrs_xModSel (s : State) (content : Nat) (k : Reg) : (s.setSfrs content).xModSel k = s.xModSel k := rfl
@[simp] theorem State.setSfrs_yModSel (s : State) (content : Nat) (k : Reg) : (s.setSfrs content).yModSel k = s.yModSel k := rfl
@[simp] theorem State.setSfrs_bitRevSel (s : State) (content : Nat) (k : Reg) : (s.setSfrs content).bitRevSel k = s.bitRevSel k := rfl

/-! ### dmaTurn -/

@[simp] theorem State.dmaTurn_w (s : State) : (s.dmaTurn).w = s.w := rfl
@[simp] theorem State.dmaTurn_mem (s : State) : (s.dmaTurn).mem = dmaBurst s.dev s.mem (s.dma.headD []) := rfl
@[simp] theorem State.dmaTurn_modcon (s : State) : (s.dmaTurn).modcon = s.modcon := rfl
@[simp] theorem State.dmaTurn_xmodsrt (s : State) : (s.dmaTurn).xmodsrt = s.xmodsrt := rfl
@[simp] theorem State.dmaTurn_xmodend (s : State) : (s.dmaTurn).xmodend = s.xmodend := rfl
@[simp] theorem State.dmaTurn_ymodsrt (s : State) : (s.dmaTurn).ymodsrt = s.ymodsrt := rfl
@[simp] theorem State.dmaTurn_ymodend (s : State) : (s.dmaTurn).ymodend = s.ymodend := rfl
@[simp] theorem State.dmaTurn_xbrev (s : State) : (s.dmaTurn).xbrev = s.xbrev := rfl
@[simp] theorem State.dmaTurn_hz (s : State) : (s.dmaTurn).hz = s.hz := rfl
@[simp] theorem State.dmaTurn_hzOldModcon (s : State) : (s.dmaTurn).hzOldModcon = s.hzOldModcon := rfl
@[simp] theorem State.dmaTurn_hzOldXbrev (s : State) : (s.dmaTurn).hzOldXbrev = s.hzOldXbrev := rfl
@[simp] theorem State.dmaTurn_rc (s : State) : (s.dmaTurn).rc = s.rc := rfl
@[simp] theorem State.dmaTurn_faultRecord (s : State) : (s.dmaTurn).faultRecord = s.faultRecord := rfl
@[simp] theorem State.dmaTurn_acc (s : State) : (s.dmaTurn).acc = s.acc := rfl
@[simp] theorem State.dmaTurn_sfrs (s : State) : (s.dmaTurn).sfrs = s.sfrs := rfl
@[simp] theorem State.dmaTurn_pc (s : State) : (s.dmaTurn).pc = s.pc := rfl
@[simp] theorem State.dmaTurn_dev (s : State) : (s.dmaTurn).dev = s.dev := rfl
@[simp] theorem State.dmaTurn_program (s : State) : (s.dmaTurn).program = s.program := rfl
@[simp] theorem State.dmaTurn_symbols (s : State) : (s.dmaTurn).symbols = s.symbols := rfl
@[simp] theorem State.dmaTurn_dma (s : State) : (s.dmaTurn).dma = s.dma.tail := rfl
@[simp] theorem State.dmaTurn_freeCount (s : State) : (s.dmaTurn).freeCount = s.freeCount := rfl
@[simp] theorem State.dmaTurn_storedCtrl (s : State) (k : CtrlReg) : (s.dmaTurn).storedCtrl k = s.storedCtrl k := by
  cases k <;> rfl
@[simp] theorem State.dmaTurn_readCtrl (s : State) (k : CtrlReg) : (s.dmaTurn).readCtrl k = s.readCtrl k := by
  cases k <;> rfl
@[simp] theorem State.dmaTurn_getW (s : State) (k : Reg) : (s.dmaTurn).getW k = s.getW k := rfl
@[simp] theorem State.dmaTurn_xmoden (s : State) : (s.dmaTurn).xmoden = s.xmoden := rfl
@[simp] theorem State.dmaTurn_ymoden (s : State) : (s.dmaTurn).ymoden = s.ymoden := rfl
@[simp] theorem State.dmaTurn_bwm (s : State) : (s.dmaTurn).bwm = s.bwm := rfl
@[simp] theorem State.dmaTurn_ywm (s : State) : (s.dmaTurn).ywm = s.ywm := rfl
@[simp] theorem State.dmaTurn_xwm (s : State) : (s.dmaTurn).xwm = s.xwm := rfl
@[simp] theorem State.dmaTurn_bren (s : State) : (s.dmaTurn).bren = s.bren := rfl
@[simp] theorem State.dmaTurn_xb (s : State) : (s.dmaTurn).xb = s.xb := rfl
@[simp] theorem State.dmaTurn_xModSel (s : State) (k : Reg) : (s.dmaTurn).xModSel k = s.xModSel k := rfl
@[simp] theorem State.dmaTurn_yModSel (s : State) (k : Reg) : (s.dmaTurn).yModSel k = s.yModSel k := rfl
@[simp] theorem State.dmaTurn_bitRevSel (s : State) (k : Reg) : (s.dmaTurn).bitRevSel k = s.bitRevSel k := rfl

/-! ### advance -/

@[simp] theorem State.advance_w (s : State) : (s.advance).w = s.w := rfl
@[simp] theorem State.advance_mem (s : State) : (s.advance).mem = s.mem := rfl
@[simp] theorem State.advance_modcon (s : State) : (s.advance).modcon = s.modcon := rfl
@[simp] theorem State.advance_xmodsrt (s : State) : (s.advance).xmodsrt = s.xmodsrt := rfl
@[simp] theorem State.advance_xmodend (s : State) : (s.advance).xmodend = s.xmodend := rfl
@[simp] theorem State.advance_ymodsrt (s : State) : (s.advance).ymodsrt = s.ymodsrt := rfl
@[simp] theorem State.advance_ymodend (s : State) : (s.advance).ymodend = s.ymodend := rfl
@[simp] theorem State.advance_xbrev (s : State) : (s.advance).xbrev = s.xbrev := rfl
@[simp] theorem State.advance_hz (s : State) : (s.advance).hz = s.hz := rfl
@[simp] theorem State.advance_hzOldModcon (s : State) : (s.advance).hzOldModcon = s.hzOldModcon := rfl
@[simp] theorem State.advance_hzOldXbrev (s : State) : (s.advance).hzOldXbrev = s.hzOldXbrev := rfl
@[simp] theorem State.advance_rc (s : State) : (s.advance).rc = s.rc - 1 := rfl
@[simp] theorem State.advance_faultRecord (s : State) : (s.advance).faultRecord = s.faultRecord := rfl
@[simp] theorem State.advance_acc (s : State) : (s.advance).acc = s.acc := rfl
@[simp] theorem State.advance_sfrs (s : State) : (s.advance).sfrs = s.sfrs := rfl
@[simp] theorem State.advance_pc (s : State) : (s.advance).pc = (if s.rc = 0 then s.pc + 1 else s.pc) := rfl
@[simp] theorem State.advance_dev (s : State) : (s.advance).dev = s.dev := rfl
@[simp] theorem State.advance_program (s : State) : (s.advance).program = s.program := rfl
@[simp] theorem State.advance_symbols (s : State) : (s.advance).symbols = s.symbols := rfl
@[simp] theorem State.advance_dma (s : State) : (s.advance).dma = s.dma := rfl
@[simp] theorem State.advance_freeCount (s : State) : (s.advance).freeCount = s.freeCount := rfl
@[simp] theorem State.advance_storedCtrl (s : State) (k : CtrlReg) : (s.advance).storedCtrl k = s.storedCtrl k := by
  cases k <;> rfl
@[simp] theorem State.advance_readCtrl (s : State) (k : CtrlReg) : (s.advance).readCtrl k = s.readCtrl k := by
  cases k <;> rfl
@[simp] theorem State.advance_getW (s : State) (k : Reg) : (s.advance).getW k = s.getW k := rfl
@[simp] theorem State.advance_xmoden (s : State) : (s.advance).xmoden = s.xmoden := rfl
@[simp] theorem State.advance_ymoden (s : State) : (s.advance).ymoden = s.ymoden := rfl
@[simp] theorem State.advance_bwm (s : State) : (s.advance).bwm = s.bwm := rfl
@[simp] theorem State.advance_ywm (s : State) : (s.advance).ywm = s.ywm := rfl
@[simp] theorem State.advance_xwm (s : State) : (s.advance).xwm = s.xwm := rfl
@[simp] theorem State.advance_bren (s : State) : (s.advance).bren = s.bren := rfl
@[simp] theorem State.advance_xb (s : State) : (s.advance).xb = s.xb := rfl
@[simp] theorem State.advance_xModSel (s : State) (k : Reg) : (s.advance).xModSel k = s.xModSel k := rfl
@[simp] theorem State.advance_yModSel (s : State) (k : Reg) : (s.advance).yModSel k = s.yModSel k := rfl
@[simp] theorem State.advance_bitRevSel (s : State) (k : Reg) : (s.advance).bitRevSel k = s.bitRevSel k := rfl

/-! ### storeCtrl and writeCtrl -/

@[simp] theorem State.storeCtrl_w (s : State) (r : CtrlReg) (v : Word) : (s.storeCtrl r v).w = s.w := by
  cases r <;> rfl
@[simp] theorem State.writeCtrl_w (s : State) (r : CtrlReg) (v : Word) : (s.writeCtrl r v).w = s.w := by
  cases r <;> rfl
@[simp] theorem State.storeCtrl_mem (s : State) (r : CtrlReg) (v : Word) : (s.storeCtrl r v).mem = s.mem := by
  cases r <;> rfl
@[simp] theorem State.writeCtrl_mem (s : State) (r : CtrlReg) (v : Word) : (s.writeCtrl r v).mem = s.mem := by
  cases r <;> rfl
@[simp] theorem State.storeCtrl_hz (s : State) (r : CtrlReg) (v : Word) : (s.storeCtrl r v).hz = s.hz := by
  cases r <;> rfl
@[simp] theorem State.writeCtrl_hz (s : State) (r : CtrlReg) (v : Word) : (s.writeCtrl r v).hz = s.hz.add r := rfl
@[simp] theorem State.storeCtrl_hzOldModcon (s : State) (r : CtrlReg) (v : Word) : (s.storeCtrl r v).hzOldModcon = s.hzOldModcon := by
  cases r <;> rfl
@[simp] theorem State.writeCtrl_hzOldModcon (s : State) (r : CtrlReg) (v : Word) : (s.writeCtrl r v).hzOldModcon = s.hzOldModcon := by
  cases r <;> rfl
@[simp] theorem State.storeCtrl_hzOldXbrev (s : State) (r : CtrlReg) (v : Word) : (s.storeCtrl r v).hzOldXbrev = s.hzOldXbrev := by
  cases r <;> rfl
@[simp] theorem State.writeCtrl_hzOldXbrev (s : State) (r : CtrlReg) (v : Word) : (s.writeCtrl r v).hzOldXbrev = s.hzOldXbrev := by
  cases r <;> rfl
@[simp] theorem State.storeCtrl_rc (s : State) (r : CtrlReg) (v : Word) : (s.storeCtrl r v).rc = s.rc := by
  cases r <;> rfl
@[simp] theorem State.writeCtrl_rc (s : State) (r : CtrlReg) (v : Word) : (s.writeCtrl r v).rc = s.rc := by
  cases r <;> rfl
@[simp] theorem State.storeCtrl_faultRecord (s : State) (r : CtrlReg) (v : Word) : (s.storeCtrl r v).faultRecord = s.faultRecord := by
  cases r <;> rfl
@[simp] theorem State.writeCtrl_faultRecord (s : State) (r : CtrlReg) (v : Word) : (s.writeCtrl r v).faultRecord = s.faultRecord := by
  cases r <;> rfl
@[simp] theorem State.storeCtrl_acc (s : State) (r : CtrlReg) (v : Word) : (s.storeCtrl r v).acc = s.acc := by
  cases r <;> rfl
@[simp] theorem State.writeCtrl_acc (s : State) (r : CtrlReg) (v : Word) : (s.writeCtrl r v).acc = s.acc := by
  cases r <;> rfl
@[simp] theorem State.storeCtrl_sfrs (s : State) (r : CtrlReg) (v : Word) : (s.storeCtrl r v).sfrs = s.sfrs := by
  cases r <;> rfl
@[simp] theorem State.writeCtrl_sfrs (s : State) (r : CtrlReg) (v : Word) : (s.writeCtrl r v).sfrs = s.sfrs := by
  cases r <;> rfl
@[simp] theorem State.storeCtrl_pc (s : State) (r : CtrlReg) (v : Word) : (s.storeCtrl r v).pc = s.pc := by
  cases r <;> rfl
@[simp] theorem State.writeCtrl_pc (s : State) (r : CtrlReg) (v : Word) : (s.writeCtrl r v).pc = s.pc := by
  cases r <;> rfl
@[simp] theorem State.storeCtrl_dev (s : State) (r : CtrlReg) (v : Word) : (s.storeCtrl r v).dev = s.dev := by
  cases r <;> rfl
@[simp] theorem State.writeCtrl_dev (s : State) (r : CtrlReg) (v : Word) : (s.writeCtrl r v).dev = s.dev := by
  cases r <;> rfl
@[simp] theorem State.storeCtrl_program (s : State) (r : CtrlReg) (v : Word) : (s.storeCtrl r v).program = s.program := by
  cases r <;> rfl
@[simp] theorem State.writeCtrl_program (s : State) (r : CtrlReg) (v : Word) : (s.writeCtrl r v).program = s.program := by
  cases r <;> rfl
@[simp] theorem State.storeCtrl_symbols (s : State) (r : CtrlReg) (v : Word) : (s.storeCtrl r v).symbols = s.symbols := by
  cases r <;> rfl
@[simp] theorem State.writeCtrl_symbols (s : State) (r : CtrlReg) (v : Word) : (s.writeCtrl r v).symbols = s.symbols := by
  cases r <;> rfl
@[simp] theorem State.storeCtrl_dma (s : State) (r : CtrlReg) (v : Word) : (s.storeCtrl r v).dma = s.dma := by
  cases r <;> rfl
@[simp] theorem State.writeCtrl_dma (s : State) (r : CtrlReg) (v : Word) : (s.writeCtrl r v).dma = s.dma := by
  cases r <;> rfl
@[simp] theorem State.storeCtrl_freeCount (s : State) (r : CtrlReg) (v : Word) : (s.storeCtrl r v).freeCount = s.freeCount := by
  cases r <;> rfl
@[simp] theorem State.writeCtrl_freeCount (s : State) (r : CtrlReg) (v : Word) : (s.writeCtrl r v).freeCount = s.freeCount := by
  cases r <;> rfl

@[simp] theorem State.writeCtrl_getW (s : State) (r : CtrlReg) (v : Word) (k : Reg) :
    (s.writeCtrl r v).getW k = s.getW k := by
  cases r <;> rfl

/-- Fixing the bits twice is fixing them once. -/
@[simp] theorem CtrlReg.fix_fix (r : CtrlReg) (v : Word) : CtrlReg.fix r (CtrlReg.fix r v) = CtrlReg.fix r v := by
  cases r <;> simp [CtrlReg.fix, BitVec.and_assoc, BitVec.or_assoc]

theorem State.writeCtrl_storedCtrl (s : State) (r k : CtrlReg) (v : Word) :
    (s.writeCtrl r v).storedCtrl k = if k = r then CtrlReg.fix r v else s.storedCtrl k := by
  cases r <;> cases k <;> rfl

/-- Reading a control register after a write of one. -/
theorem State.writeCtrl_readCtrl (s : State) (r k : CtrlReg) (v : Word) :
    (s.writeCtrl r v).readCtrl k = if k = r then CtrlReg.fix r v else s.readCtrl k := by
  unfold State.readCtrl
  rw [State.writeCtrl_storedCtrl]
  split
  · next h => subst h; exact CtrlReg.fix_fix _ _
  · rfl

/-! ### Working registers -/

/-- Reading a working register after a write of one. -/
theorem State.setW_getW (s : State) (r k : Reg) (v : Word) :
    (s.setW r v).getW k = if k = r then v else s.getW k := by
  simp only [State.setW, State.getW, Vector.getElem_set, Fin.ext_iff, eq_comm]

@[simp] theorem State.setW_getW_same (s : State) (r : Reg) (v : Word) : (s.setW r v).getW r = v := by
  rw [State.setW_getW, if_pos rfl]

theorem State.setW_getW_other (s : State) {r k : Reg} (v : Word) (h : k ≠ r) : (s.setW r v).getW k = s.getW k := by
  rw [State.setW_getW, if_neg h]

theorem State.drawInto_getW (s : State) (r k : Reg) :
    (s.drawInto r).getW k = if k = r then Config.freeWord s.freeCount else s.getW k := State.setW_getW s r k _

/-! ### drawAll: only the listed registers and the count of free values change -/

@[simp] theorem State.drawAll_mem (s : State) (rs : List Reg) : (s.drawAll rs).mem = s.mem := by
  induction rs generalizing s with
  | nil => rfl
  | cons r rs ih => rw [State.drawAll, ih]; rfl
@[simp] theorem State.drawAll_modcon (s : State) (rs : List Reg) : (s.drawAll rs).modcon = s.modcon := by
  induction rs generalizing s with
  | nil => rfl
  | cons r rs ih => rw [State.drawAll, ih]; rfl
@[simp] theorem State.drawAll_xmodsrt (s : State) (rs : List Reg) : (s.drawAll rs).xmodsrt = s.xmodsrt := by
  induction rs generalizing s with
  | nil => rfl
  | cons r rs ih => rw [State.drawAll, ih]; rfl
@[simp] theorem State.drawAll_xmodend (s : State) (rs : List Reg) : (s.drawAll rs).xmodend = s.xmodend := by
  induction rs generalizing s with
  | nil => rfl
  | cons r rs ih => rw [State.drawAll, ih]; rfl
@[simp] theorem State.drawAll_ymodsrt (s : State) (rs : List Reg) : (s.drawAll rs).ymodsrt = s.ymodsrt := by
  induction rs generalizing s with
  | nil => rfl
  | cons r rs ih => rw [State.drawAll, ih]; rfl
@[simp] theorem State.drawAll_ymodend (s : State) (rs : List Reg) : (s.drawAll rs).ymodend = s.ymodend := by
  induction rs generalizing s with
  | nil => rfl
  | cons r rs ih => rw [State.drawAll, ih]; rfl
@[simp] theorem State.drawAll_xbrev (s : State) (rs : List Reg) : (s.drawAll rs).xbrev = s.xbrev := by
  induction rs generalizing s with
  | nil => rfl
  | cons r rs ih => rw [State.drawAll, ih]; rfl
@[simp] theorem State.drawAll_hz (s : State) (rs : List Reg) : (s.drawAll rs).hz = s.hz := by
  induction rs generalizing s with
  | nil => rfl
  | cons r rs ih => rw [State.drawAll, ih]; rfl
@[simp] theorem State.drawAll_hzOldModcon (s : State) (rs : List Reg) : (s.drawAll rs).hzOldModcon = s.hzOldModcon := by
  induction rs generalizing s with
  | nil => rfl
  | cons r rs ih => rw [State.drawAll, ih]; rfl
@[simp] theorem State.drawAll_hzOldXbrev (s : State) (rs : List Reg) : (s.drawAll rs).hzOldXbrev = s.hzOldXbrev := by
  induction rs generalizing s with
  | nil => rfl
  | cons r rs ih => rw [State.drawAll, ih]; rfl
@[simp] theorem State.drawAll_rc (s : State) (rs : List Reg) : (s.drawAll rs).rc = s.rc := by
  induction rs generalizing s with
  | nil => rfl
  | cons r rs ih => rw [State.drawAll, ih]; rfl
@[simp] theorem State.drawAll_faultRecord (s : State) (rs : List Reg) : (s.drawAll rs).faultRecord = s.faultRecord := by
  induction rs generalizing s with
  | nil => rfl
  | cons r rs ih => rw [State.drawAll, ih]; rfl
@[simp] theorem State.drawAll_acc (s : State) (rs : List Reg) : (s.drawAll rs).acc = s.acc := by
  induction rs generalizing s with
  | nil => rfl
  | cons r rs ih => rw [State.drawAll, ih]; rfl
@[simp] theorem State.drawAll_sfrs (s : State) (rs : List Reg) : (s.drawAll rs).sfrs = s.sfrs := by
  induction rs generalizing s with
  | nil => rfl
  | cons r rs ih => rw [State.drawAll, ih]; rfl
@[simp] theorem State.drawAll_pc (s : State) (rs : List Reg) : (s.drawAll rs).pc = s.pc := by
  induction rs generalizing s with
  | nil => rfl
  | cons r rs ih => rw [State.drawAll, ih]; rfl
@[simp] theorem State.drawAll_dev (s : State) (rs : List Reg) : (s.drawAll rs).dev = s.dev := by
  induction rs generalizing s with
  | nil => rfl
  | cons r rs ih => rw [State.drawAll, ih]; rfl
@[simp] theorem State.drawAll_program (s : State) (rs : List Reg) : (s.drawAll rs).program = s.program := by
  induction rs generalizing s with
  | nil => rfl
  | cons r rs ih => rw [State.drawAll, ih]; rfl
@[simp] theorem State.drawAll_symbols (s : State) (rs : List Reg) : (s.drawAll rs).symbols = s.symbols := by
  induction rs generalizing s with
  | nil => rfl
  | cons r rs ih => rw [State.drawAll, ih]; rfl
@[simp] theorem State.drawAll_dma (s : State) (rs : List Reg) : (s.drawAll rs).dma = s.dma := by
  induction rs generalizing s with
  | nil => rfl
  | cons r rs ih => rw [State.drawAll, ih]; rfl

@[simp] theorem State.drawAll_storedCtrl (s : State) (rs : List Reg) (k : CtrlReg) :
    (s.drawAll rs).storedCtrl k = s.storedCtrl k := by
  cases k <;> simp [State.storedCtrl]

@[simp] theorem State.drawAll_readCtrl (s : State) (rs : List Reg) (k : CtrlReg) :
    (s.drawAll rs).readCtrl k = s.readCtrl k := by
  simp [State.readCtrl]

theorem State.drawAll_getW (s : State) (rs : List Reg) {k : Reg} (h : k ∉ rs) : (s.drawAll rs).getW k = s.getW k := by
  induction rs generalizing s with
  | nil => rfl
  | cons r rs ih =>
    rw [List.mem_cons, not_or] at h
    rw [State.drawAll, ih _ h.2, State.drawInto_getW, if_neg h.1]

/-! ### The DMA turn with nothing scheduled -/

/-- With nothing scheduled the DMA turn changes nothing. -/
theorem State.dmaTurn_of_quiet {s : State} (h : s.dma = []) : s.dmaTurn = s := by
  cases s; cases h; rfl

end Sys2Proof.Machine
end

