-- ==== Sys2Proof/Laws/Memory.lean ====
section
/-!
SUPPORT. The laws of memory: a read after a write, and that every memory operation keeps the canonical form and writes
only where it is told to.
-/
namespace Sys2Proof.Machine

/-- Reading a byte after a write of one. -/
theorem Memory.read_write (m : Memory) (a b : Nat) (v : Byte) :
    Memory.read (Memory.write m a v) b = if b = a then some v else Memory.read m b := by
  induction m with
  | nil => simp [Memory.write, Memory.read, eq_comm]
  | cons c rest ih =>
    simp only [Memory.write]
    split_ifs with h₁ h₂ <;> simp only [Memory.read, ih] <;> split_ifs <;> first | rfl | omega

@[simp] theorem Memory.read_write_same (m : Memory) (a : Nat) (v : Byte) :
    Memory.read (Memory.write m a v) a = some v := by
  rw [Memory.read_write, if_pos rfl]

theorem Memory.read_write_other (m : Memory) {a b : Nat} (v : Byte) (h : b ≠ a) :
    Memory.read (Memory.write m a v) b = Memory.read m b := by
  rw [Memory.read_write, if_neg h]

theorem Memory.risingFrom_write {lo a : Nat} (v : Byte) (h : lo < a) :
    ∀ {m : Memory}, Memory.risingFrom lo m = true → Memory.risingFrom lo (Memory.write m a v) = true := by
  intro m
  induction m generalizing lo with
  | nil => intro _; simpa [Memory.write, Memory.risingFrom] using h
  | cons c rest ih =>
    intro hm
    simp only [Memory.risingFrom, Bool.and_eq_true, decide_eq_true_eq] at hm
    simp only [Memory.write]
    split_ifs with h₁ h₂
    · simp only [Memory.risingFrom, Bool.and_eq_true, decide_eq_true_eq]; exact ⟨h, h₁, hm.2⟩
    · simp only [Memory.risingFrom, Bool.and_eq_true, decide_eq_true_eq]; exact ⟨h, h₂ ▸ hm.2⟩
    · simp only [Memory.risingFrom, Bool.and_eq_true, decide_eq_true_eq]
      exact ⟨hm.1, ih (by omega) hm.2⟩

/-- A write keeps the canonical form. -/
theorem Memory.write_wf {m : Memory} (a : Nat) (v : Byte) (h : Memory.wf m = true) :
    Memory.wf (Memory.write m a v) = true := by
  cases m with
  | nil => rfl
  | cons c rest =>
    simp only [Memory.wf] at h
    simp only [Memory.write]
    split_ifs with h₁ h₂
    · simp only [Memory.wf, Memory.risingFrom, Bool.and_eq_true, decide_eq_true_eq]; exact ⟨h₁, h⟩
    · simp only [Memory.wf]; exact h₂ ▸ h
    · exact Memory.risingFrom_write v (by omega) h

/-- What a write lists was listed before or is what was written. -/
theorem Memory.mem_write {m : Memory} {a : Nat} {v : Byte} {c : Host.Cell} (h : c ∈ Memory.write m a v) :
    c = (a, v) ∨ c ∈ m := by
  induction m with
  | nil => exact .inl (by simpa [Memory.write] using h)
  | cons d rest ih =>
    simp only [Memory.write] at h
    split_ifs at h with h₁ h₂ <;> simp only [List.mem_cons] at h ⊢
    · exact h
    · exact h.elim .inl fun h => .inr (.inr h)
    · rcases h with h | h
      · exact .inr (.inl h)
      · exact (ih h).imp id .inr

/-- Writing what an address holds changes no read. -/
theorem Memory.read_write_self {m : Memory} {a : Nat} {v : Byte} (h : Memory.read m a = some v) (b : Nat) :
    Memory.read (Memory.write m a v) b = Memory.read m b := by
  rw [Memory.read_write]; split_ifs with hb
  · rw [hb, h]
  · rfl

/-- Below the first address nothing is listed. -/
theorem Memory.read_below {lo a : Nat} (h : a ≤ lo) :
    ∀ {m : Memory}, Memory.risingFrom lo m = true → Memory.read m a = none := by
  intro m
  induction m generalizing lo with
  | nil => intro _; rfl
  | cons c rest ih =>
    intro hm
    simp only [Memory.risingFrom, Bool.and_eq_true, decide_eq_true_eq] at hm
    rw [Memory.read, if_neg (by omega), ih (by omega) hm.2]

/-- Canonical memories that read alike everywhere above `lo` are the same data. -/
theorem Memory.ext_rising {lo : Nat} {m₁ m₂ : Memory} (h₁ : Memory.risingFrom lo m₁ = true)
    (h₂ : Memory.risingFrom lo m₂ = true) (h : ∀ a, Memory.read m₁ a = Memory.read m₂ a) : m₁ = m₂ := by
  induction m₁ generalizing lo m₂ with
  | nil =>
    cases m₂ with
    | nil => rfl
    | cons c rest => have := h c.1; simp [Memory.read] at this
  | cons c rest ih =>
    cases m₂ with
    | nil => have := h c.1; simp [Memory.read] at this
    | cons d rest' =>
      simp only [Memory.risingFrom, Bool.and_eq_true, decide_eq_true_eq] at h₁ h₂
      have hcd : c.1 = d.1 := by
        rcases Nat.lt_trichotomy c.1 d.1 with hlt | heq | hgt
        · have := h c.1
          rw [Memory.read, if_pos rfl, Memory.read, if_neg (by omega),
            Memory.read_below (lo := d.1) (by omega) h₂.2] at this
          simp at this
        · exact heq
        · have := h d.1
          rw [Memory.read, if_neg (by omega), Memory.read_below (lo := c.1) (by omega) h₁.2, Memory.read,
            if_pos rfl] at this
          simp at this
      have hv : c.2 = d.2 := by
        have := h c.1
        rw [Memory.read, if_pos rfl, Memory.read, if_pos hcd.symm] at this
        exact Option.some.inj this
      have hc : c = d := Prod.ext hcd hv
      subst hc
      congr 1
      refine ih h₁.2 h₂.2 fun a => ?_
      by_cases ha : a ≤ c.1
      · rw [Memory.read_below ha h₁.2, Memory.read_below ha h₂.2]
      · have := h a
        rwa [Memory.read, if_neg (by omega), Memory.read, if_neg (by omega)] at this

/-! ### The state's memory operations keep the canonical form -/

theorem State.setByte_wf {s : State} (a : Nat) (v : Byte) (h : Memory.wf s.mem = true) :
    Memory.wf (s.setByte a v).mem = true := Memory.write_wf a v h

theorem State.setWord_wf {s : State} (a : Nat) (v : Word) (h : Memory.wf s.mem = true) :
    Memory.wf (s.setWord a v).mem = true := Memory.write_wf _ _ (Memory.write_wf _ _ h)

theorem writeRam_wf {s : State} (a : Word) (sz : Size) (v : Word) (h : Memory.wf s.mem = true) :
    Memory.wf (writeRam s a sz v).mem = true := by
  cases sz
  · exact State.setByte_wf _ _ h
  · exact State.setWord_wf _ _ h

theorem dmaWrite_wf {d : Dev} {m : Memory} (x : DmaWrite) (h : Memory.wf m = true) :
    Memory.wf (dmaWrite d m x) = true := by
  unfold dmaWrite; split_ifs
  · exact Memory.write_wf _ _ h
  · exact h

theorem dmaBurst_wf {d : Dev} {m : Memory} (xs : List DmaWrite) (h : Memory.wf m = true) :
    Memory.wf (dmaBurst d m xs) = true := by
  induction xs generalizing m with
  | nil => exact h
  | cons x xs ih => exact ih (dmaWrite_wf x h)

theorem State.dmaTurn_wf {s : State} (h : Memory.wf s.mem = true) : Memory.wf s.dmaTurn.mem = true :=
  dmaBurst_wf _ h

/-- The DMA controller reaches DPSRAM only. -/
theorem dmaBurst_mem {d : Dev} {m : Memory} {xs : List DmaWrite} {c : Host.Cell} (h : c ∈ dmaBurst d m xs) :
    d.kind c.1 = .dpsram ∨ c ∈ m := by
  induction xs generalizing m with
  | nil => exact .inr h
  | cons x xs ih =>
    rcases ih h with h | h
    · exact .inl h
    · unfold dmaWrite at h
      split_ifs at h with hx
      · rcases Memory.mem_write h with rfl | h
        · exact .inl hx.2
        · exact .inr h
      · exact .inr h

/-- The memory after reset is in canonical form. -/
theorem State.reset_mem_wf : Memory.wf State.reset.mem = true := rfl

end Sys2Proof.Machine
end

