-- ==== Sys2Proof/Laws/Ops.lean ====
section
/-!
SUPPORT. What each shared operation can do, said once: the cases of the access primitives, of Operand, of the stores and
of a whole MOV. Later proofs cite these instead of unfolding the operations.
-/
namespace Sys2Proof.Machine

/-! ### Sequencing -/

@[simp] theorem andThen_next {α β : Type} (a : α) (s : State) (k : α → State → Host.Outcome β Fault Refusal) :
    andThen (.next (a, s)) k = k a s := rfl

/-- A sequence that answers came through both its parts. -/
theorem andThen_eq_next {α β : Type} {r : Result α} {k : α → State → Host.Outcome β Fault Refusal} {b : β} :
    andThen r k = .next b ↔ ∃ a s, r = .next (a, s) ∧ k a s = .next b := by
  cases r with
  | next p => exact ⟨fun h => ⟨p.1, p.2, rfl, h⟩, fun ⟨a, s, h, hk⟩ => by cases h; exact hk⟩
  | fault f => exact ⟨nofun, fun ⟨_, _, h, _⟩ => nomatch h⟩
  | refused f => exact ⟨nofun, fun ⟨_, _, h, _⟩ => nomatch h⟩

@[simp] theorem finish_next (s : State) : finish (.next s) = .next s.advance := rfl

/-- An ended instruction that answers is its effect and then the advance. -/
theorem finish_eq_next {r : StepResult} {t : State} : finish r = .next t ↔ ∃ s, r = .next s ∧ t = s.advance := by
  cases r with
  | next s => exact ⟨fun h => ⟨s, rfl, by cases h; rfl⟩, fun ⟨_, h, ht⟩ => by cases h; rw [ht]; rfl⟩
  | fault f => exact ⟨nofun, fun ⟨_, h, _⟩ => nomatch h⟩
  | refused f => exact ⟨nofun, fun ⟨_, h, _⟩ => nomatch h⟩

/-- A guarded effect that answers passed its hazard check. -/
theorem guarded_eq_next {p : ReadPointers} {s t : State} {effect : State → StepResult} :
    guarded p s effect = .next t ↔ hazardViolated s p = false ∧ effect s.start = .next t := by
  unfold guarded
  cases h : hazardViolated s p <;> simp

/-- A guarded effect whose hazard check passes is the effect on the begun state. -/
theorem guarded_of_safe {p : ReadPointers} {s : State} (effect : State → StepResult)
    (h : hazardViolated s p = false) : guarded p s effect = effect s.start := by
  unfold guarded; rw [h]; rfl

/-- An instruction with no indirect read violates no hazard (R252). -/
@[simp] theorem hazardViolated_noRead (s : State) : hazardViolated s .noRead = false := rfl

/-- With an empty latch no instruction violates a hazard (R252). -/
theorem hazardViolated_of_empty {s : State} (p : ReadPointers) (h : s.hz = HazardLatch.empty) :
    hazardViolated s p = false := by
  simp [hazardViolated, h, HazardLatch.empty]

/-! ### Reads change nothing but the fault record, the other SFRs and the count of free values -/

/-- `t` is `s` but for the fault record, what the other SFRs hold and the count of free values; a record that `s` holds is
kept, and so is what the SFRs hold where the device leaves SfrRead at its default. -/
structure OnlyRaised (s t : State) : Prop where
  same : t = { s with faultRecord := t.faultRecord, sfrs := t.sfrs, freeCount := t.freeCount }
  record : ∀ c, s.faultRecord = some c → t.faultRecord = some c
  sfrsKept : s.dev.sfrRead = .refuse → t.sfrs = s.sfrs

theorem OnlyRaised.refl (s : State) : OnlyRaised s s := ⟨rfl, fun _ h => h, fun _ => rfl⟩

theorem OnlyRaised.dev {s t : State} (h : OnlyRaised s t) : t.dev = s.dev := by rw [h.same]

theorem OnlyRaised.trans {s t u : State} (h₁ : OnlyRaised s t) (h₂ : OnlyRaised t u) : OnlyRaised s u where
  same := h₂.same.trans (by rw [h₁.same])
  record := fun c h => h₂.record c (h₁.record c h)
  sfrsKept := fun h => (h₂.sfrsKept (h₁.dev ▸ h)).trans (h₁.sfrsKept h)

theorem OnlyRaised.raise (s : State) (c : AddressErrorCause) : OnlyRaised s (s.raise c) :=
  ⟨rfl, fun c' h => by simp [h], fun _ => rfl⟩

theorem OnlyRaised.raise_draw (s : State) (c : AddressErrorCause) (n : Nat) :
    OnlyRaised s { s.raise c with freeCount := n } :=
  ⟨rfl, fun c' h => by simp [h], fun _ => rfl⟩

/-- A read of an SFR that is none of the six answers only on a device that gives it a behaviour (R41). -/
theorem readOtherSfr_eq_next {s t : State} {a v : Word} {sz : Size} (h : readOtherSfr s a sz = .next (v, t)) :
    s.dev.sfrRead = .given ∧ ∃ q, t = s.setSfrs q := by
  unfold readOtherSfr at h
  split at h
  · cases h
  · next hd => cases h; exact ⟨hd, _, rfl⟩

/-- A read of a PSV-mapped address answers only on a device that gives it a behaviour (R47). -/
theorem readPsv_eq_next {s t : State} {a v : Word} {sz : Size} (h : readPsv s a sz = .next (v, t)) :
    s.dev.psvRead = .given ∧ t = { s with freeCount := s.freeCount + 1 } := by
  unfold readPsv at h
  split at h
  · cases h
  · next hd => cases h; exact ⟨hd, rfl⟩

/-- A write of an SFR that is none of the six answers only on a device that gives it a behaviour (R41). -/
theorem writeOtherSfr_eq_next {s t : State} {a v : Word} {sz : Size} (h : writeOtherSfr s a sz v = .next t) :
    s.dev.sfrWrite = .given ∧ ∃ q, t = s.setSfrs q := by
  unfold writeOtherSfr at h
  split at h
  · cases h
  · next hd => cases h; exact ⟨hd, _, rfl⟩

theorem readOtherSfr_onlyRaised {s t : State} {a v : Word} {sz : Size} (h : readOtherSfr s a sz = .next (v, t)) :
    OnlyRaised s t := by
  obtain ⟨hd, q, rfl⟩ := readOtherSfr_eq_next h
  exact ⟨rfl, fun _ h => h, fun hr => by rw [hd] at hr; cases hr⟩

theorem readPsv_onlyRaised {s t : State} {a v : Word} {sz : Size} (h : readPsv s a sz = .next (v, t)) :
    OnlyRaised s t := by
  obtain ⟨-, rfl⟩ := readPsv_eq_next h
  exact ⟨rfl, fun _ h => h, fun _ => rfl⟩

/-- A read of RAM that answers changes nothing. -/
theorem readRam_state {s t : State} {a v : Word} {sz : Size} (h : readRam s a sz = .next (v, t)) : t = s := by
  cases sz <;> simp only [readRam] at h
  · split at h
    · cases h; rfl
    · cases h
  · split at h
    · cases h; rfl
    · cases h

theorem readAligned_onlyRaised {s t : State} {a v : Word} {sz : Size} (h : readAligned s a sz = .next (v, t)) :
    OnlyRaised s t := by
  unfold readAligned at h
  split at h
  · cases h; exact .raise _ _
  · exact readPsv_onlyRaised h
  · split at h
    · cases h; exact .refl _
    · exact readOtherSfr_onlyRaised h
  · exact readRam_state h ▸ .refl _
  · exact readRam_state h ▸ .refl _

theorem readAlignedX_onlyRaised {s t : State} {a v : Word} (h : readAlignedX s a = .next (v, t)) :
    OnlyRaised s t := by
  unfold readAlignedX at h
  split at h
  · cases h; exact .raise _ _
  · exact readPsv_onlyRaised h
  · exact readAligned_onlyRaised h
  · split at h
    · cases h; exact .refl _
    · exact readAligned_onlyRaised h
  · split at h
    · cases h; exact .refl _
    · exact readAligned_onlyRaised h

theorem readAlignedY_onlyRaised {s t : State} {a v : Word} (h : readAlignedY s a = .next (v, t)) :
    OnlyRaised s t := by
  unfold readAlignedY at h
  split at h
  · cases h; exact .raise _ _
  · cases h
  · cases h; exact .refl _
  · split at h
    · cases h; exact .refl _
    · exact readRam_state h ▸ .refl _
  · split at h
    · cases h; exact .refl _
    · exact readRam_state h ▸ .refl _

/-- A misaligned read always completes, with the error recorded (R53). -/
theorem completeMisaligned_next (s : State) (aligned : State → Result Word)
    (hal : ∀ u v t, aligned u = .next (v, t) → OnlyRaised u t) :
    ∃ v t, completeMisaligned s aligned = .next (v, t) ∧ OnlyRaised s t ∧
      ∃ c, (s.raise .misalignedRead).faultRecord = some c ∧ t.faultRecord = some c := by
  have hr : ∃ c, (s.raise .misalignedRead).faultRecord = some c := by
    cases hf : s.faultRecord <;> simp [hf]
  obtain ⟨c, hc⟩ := hr
  unfold completeMisaligned
  cases h : aligned (s.raise .misalignedRead) with
  | next p =>
    obtain ⟨v, t⟩ := p
    have ht := hal _ _ _ h
    exact ⟨v, t, rfl, (OnlyRaised.raise _ _).trans ht, c, hc, ht.record c hc⟩
  | fault f => exact ⟨_, _, rfl, .raise_draw _ _ _, c, hc, hc⟩
  | refused f => exact ⟨_, _, rfl, .raise_draw _ _ _, c, hc, hc⟩

theorem completeMisaligned_onlyRaised {s t : State} {v : Word} {aligned : State → Result Word}
    (hal : ∀ u v t, aligned u = .next (v, t) → OnlyRaised u t)
    (h : completeMisaligned s aligned = .next (v, t)) : OnlyRaised s t := by
  obtain ⟨v', t', h', ho, -⟩ := completeMisaligned_next s aligned hal
  rw [h'] at h; cases h; exact ho

/-- MemRead changes nothing but the record, the other SFRs and the count (R60, R74). -/
theorem memRead_onlyRaised {s t : State} {a v : Word} {sz : Size} (h : memRead s a sz = .next (v, t)) :
    OnlyRaised s t := by
  unfold memRead at h
  split_ifs at h
  · exact completeMisaligned_onlyRaised (fun _ _ _ h => readAligned_onlyRaised h) h
  · exact readAligned_onlyRaised h

/-- MemReadX changes nothing but the record, the other SFRs and the count (R62, R64). -/
theorem memReadX_onlyRaised {s t : State} {a v : Word} (h : memReadX s a = .next (v, t)) : OnlyRaised s t := by
  unfold memReadX at h
  split_ifs at h
  · exact completeMisaligned_onlyRaised (fun _ _ _ h => readAlignedX_onlyRaised h) h
  · exact readAlignedX_onlyRaised h

/-- MemReadY changes nothing but the record, the other SFRs and the count (R63, R64). -/
theorem memReadY_onlyRaised {s t : State} {a v : Word} (h : memReadY s a = .next (v, t)) : OnlyRaised s t := by
  unfold memReadY at h
  split_ifs at h
  · exact completeMisaligned_onlyRaised (fun _ _ _ h => readAlignedY_onlyRaised h) h
  · exact readAlignedY_onlyRaised h

/-- The trap of a read, in the words claims use (R220, R224). -/
theorem readTrap_eq_some {d : Dev} {a : Word} {sz : Size} {c : AddressErrorCause} :
    readTrap d a sz = some c ↔ ReadTraps d a sz c := by
  unfold readTrap
  split_ifs with h₁ h₂
  · obtain ⟨rfl, ho⟩ := h₁
    cases c <;> simp [ReadTraps, ho]
  · have he : sz = .word → isOdd a = false := fun hs => Bool.eq_false_iff.mpr fun ho => h₁ ⟨hs, ho⟩
    cases c <;> simp [ReadTraps, h₂]
    · exact he
    · exact fun hs => by simp [he hs]
  · cases c <;> simp [ReadTraps, h₂]
    exact fun hs => Bool.eq_false_iff.mpr fun ho => h₁ ⟨hs, ho⟩

/-- A read that does not trap is made in the state its address generation left. -/
theorem readOperand_of_none {s : State} {a : Word} {sz : Size} (rs : List Reg) (read : State → Result Word)
    (h : readTrap s.dev a sz = none) : readOperand s a sz rs read = read s := by
  unfold readOperand; rw [h]

/-- A read that traps is made with free values in the updated pointers (R115). -/
theorem readOperand_of_some {s : State} {a : Word} {sz : Size} {c : AddressErrorCause} (rs : List Reg)
    (read : State → Result Word) (h : readTrap s.dev a sz = some c) :
    readOperand s a sz rs read = read (s.drawAll rs) := by
  unfold readOperand; rw [h]

/-- A read before which no pointer has been updated is the read. -/
@[simp] theorem readOperand_nil (s : State) (a : Word) (sz : Size) (read : State → Result Word) :
    readOperand s a sz [] read = read s := by
  unfold readOperand; split <;> rfl

/-- A read of an operand that answers is the read from one of the two. -/
theorem readOperand_eq_next {s t : State} {a v : Word} {sz : Size} {rs : List Reg} {read : State → Result Word}
    (h : readOperand s a sz rs read = .next (v, t)) : ∃ m, (m = s ∨ m = s.drawAll rs) ∧ read m = .next (v, t) := by
  unfold readOperand at h
  split at h
  · exact ⟨_, .inr rfl, h⟩
  · exact ⟨_, .inl rfl, h⟩

/-! ### Writes -/

/-- What MemWrite can do (R61): record a trap and nothing else, write a control register, change the other SFRs on a
device that gives them a behaviour, or write RAM. -/
theorem memWrite_cases {s t : State} {a v : Word} {sz : Size} (h : memWrite s a sz v = .next t) :
    (∃ c, writeTrap s.dev a sz = some c ∧ t = s.raise c) ∨
    (∃ r, writeTrap s.dev a sz = none ∧ s.dev.kind (wordAddr a).toNat = .sfr ∧
      s.dev.ctrlAt (wordAddr a) = some r ∧ t = s.writeCtrl r (merged sz a (s.readCtrl r) v)) ∨
    (writeTrap s.dev a sz = none ∧ s.dev.kind (wordAddr a).toNat = .sfr ∧ s.dev.ctrlAt (wordAddr a) = none ∧
      s.dev.sfrWrite = .given ∧ ∃ q, t = s.setSfrs q) ∨
    (writeTrap s.dev a sz = none ∧ isRam s.dev (wordAddr a).toNat = true ∧ t = writeRam s a sz v) := by
  unfold memWrite at h
  cases hw : writeTrap s.dev a sz with
  | some c => rw [hw] at h; cases h; exact .inl ⟨c, rfl, rfl⟩
  | none =>
    rw [hw] at h
    cases hk : s.dev.kind (wordAddr a).toNat <;> simp only [hk] at h
    · split at h
      · next r hr => cases h; exact .inr (.inl ⟨r, rfl, rfl, hr, rfl⟩)
      · next hr => exact .inr (.inr (.inl ⟨rfl, rfl, hr, writeOtherSfr_eq_next h⟩))
    · cases h; exact .inr (.inr (.inr ⟨rfl, by simp [isRam, hk], rfl⟩))
    · cases h; exact .inr (.inr (.inr ⟨rfl, by simp [isRam, hk], rfl⟩))
    · cases h
    · unfold writeTrap at hw; rw [hk] at hw; split_ifs at hw; exact absurd rfl ‹_›

/-- Bit 0 cleared leaves an even address as it is. -/
theorem wordAddr_of_even {a : Word} (h : isOdd a = false) : wordAddr a = a := by
  unfold wordAddr; unfold isOdd at h
  ext i hi
  rw [← BitVec.getLsbD_eq_getElem, ← BitVec.getLsbD_eq_getElem, BitVec.getLsbD_and]
  rcases Nat.eq_zero_or_pos i with rfl | hp
  · rw [h]; rfl
  · have hm : ∀ i : Fin 16, i.val ≠ 0 → (0xFFFE : Word).getLsbD i.val = true := by decide
    rw [hm ⟨i, hi⟩ (by exact Nat.pos_iff_ne_zero.mp hp), Bool.and_true]

/-- The address of a word is even. -/
@[simp] theorem isOdd_wordAddr (a : Word) : isOdd (wordAddr a) = false := by
  unfold isOdd wordAddr
  rw [BitVec.getLsbD_and]
  exact Bool.and_false _

/-- A word write to RAM raises nothing. -/
theorem writeTrap_of_ramWritable {d : Dev} {a : Word} (h : RamWritable d a) : writeTrap d a .word = none := by
  obtain ⟨ho, hr⟩ := h
  unfold writeTrap
  rw [wordAddr_of_even ho]
  simp only [isRam, Bool.or_eq_true, decide_eq_true_eq] at hr
  rcases hr with hr | hr <;> simp [ho, hr]

/-- MemWrite of a word to RAM (R61). -/
theorem memWrite_ram {s : State} {a : Word} (v : Word) (h : RamWritable s.dev a) :
    memWrite s a .word v = .next (s.setWord a.toNat v) := by
  unfold memWrite
  rw [writeTrap_of_ramWritable h, wordAddr_of_even h.1]
  have hr := h.2
  simp only [isRam, Bool.or_eq_true, decide_eq_true_eq] at hr
  rcases hr with hr | hr <;> simp [hr, writeRam]

end Sys2Proof.Machine
end

