-- ==== Sys2Proof/Laws/Operands.lean ====
section
/-!
SUPPORT. What Operand, the operand forms of MOV and a whole MOV can do, said once; and the arithmetic of the modulo
adjustment and the reverse-carry addition.
-/
namespace Sys2Proof.Machine

/-! ### The pointer's update -/

/-- An operand that answers leaves the state as it was or sets its pointer register, in the modes that update it
(R105). -/
theorem operand_state {s t : State} {agu : Agu} {mode : AddrMode} {n : Reg} {sz : Size} {ea : Word}
    (h : operand s agu mode n sz = .next (ea, t)) : t = s ∨ ∃ a, t = s.setW n a := by
  have hp : ∀ (p a : Word) (k : MoveKind) (q : Word × State), q = placeAddress s n p a k →
      q.2 = s ∨ ∃ a, q.2 = s.setW n a := by
    rintro p a k q rfl
    cases k
    · exact .inl rfl
    · exact .inr ⟨a, rfl⟩
    · exact .inr ⟨a, rfl⟩
    · exact .inl rfl
  have hpl : plainOperand s agu mode n sz = .next (ea, t) → t = s ∨ ∃ a, t = s.setW n a := by
    intro h
    unfold plainOperand at h
    simp only at h
    split at h
    · exact hp _ _ _ _ (Host.Outcome.next.inj h).symm
    · split_ifs at h
      · exact hp _ _ _ _ (Host.Outcome.next.inj h).symm
      · split at h
        · cases h
        · exact hp _ _ _ _ (Host.Outcome.next.inj h).symm
  unfold operand at h
  split at h
  · split at h
    · split at h
      · cases h
      · exact hp _ _ _ _ (Host.Outcome.next.inj h).symm
    · split at h
      · cases h
      · exact hpl h
  · exact hpl h

/-- A mode that updates no pointer leaves the state as it was (R105). -/
theorem operand_mcu_state {s t : State} {agu : Agu} {o : MemOperand} {sz : Size} {ea : Word}
    (h : operand s agu (.mcu o.mode) o.ptr sz = .next (ea, t)) :
    t = s ∨ o.ptr ∈ MemOperand.updates o ∧ ∃ a, t = s.setW o.ptr a := by
  rcases o with ⟨n, m⟩
  have hs := operand_state h
  have hstill : ∀ k : Int × MoveKind, (k.2 = .still ∨ k.2 = .offset) → ∀ p a, (placeAddress s n p a k.2).2 = s := by
    rintro ⟨d, k⟩ (hk | hk) p a <;> simp only at hk <;> subst hk <;> rfl
  have hpl : (moveOf s sz (.mcu m)).2 = .still ∨ (moveOf s sz (.mcu m)).2 = .offset →
      plainOperand s agu (.mcu m) n sz = .next (ea, t) → t = s := by
    intro hk h
    unfold plainOperand at h
    simp only at h
    split at h
    · have := Host.Outcome.next.inj h
      exact (congrArg Prod.snd this).symm.trans (hstill _ hk _ _)
    · split_ifs at h
      · have := Host.Outcome.next.inj h
        exact (congrArg Prod.snd this).symm.trans (hstill _ hk _ _)
      · split at h
        · cases h
        · have := Host.Outcome.next.inj h
          exact (congrArg Prod.snd this).symm.trans (hstill _ hk _ _)
  have hop : bitReversible sz (.mcu m) = none →
      ((moveOf s sz (.mcu m)).2 = .still ∨ (moveOf s sz (.mcu m)).2 = .offset) → t = s := by
    intro hb hk
    unfold operand at h
    simp only [hb] at h
    split_ifs at h
    · exact hpl hk h
    · exact hpl hk h
  cases m with
  | indirect => exact .inl (hop (by cases sz <;> rfl) (.inl rfl))
  | indexed x => exact .inl (hop (by cases sz <;> rfl) (.inr rfl))
  | offset k => exact .inl (hop (by cases sz <;> rfl) (.inr rfl))
  | postInc => exact hs.imp id fun h => ⟨List.mem_singleton.mpr rfl, h⟩
  | postDec => exact hs.imp id fun h => ⟨List.mem_singleton.mpr rfl, h⟩
  | preInc => exact hs.imp id fun h => ⟨List.mem_singleton.mpr rfl, h⟩
  | preDec => exact hs.imp id fun h => ⟨List.mem_singleton.mpr rfl, h⟩

/-- `plainOperand` at the DSP-class post-modification (R105, R110). -/
theorem plainOperand_postMod (s : State) (agu : Agu) (k : Int) (n : Reg) (sz : Size) :
    plainOperand s agu (.postMod k) n sz =
      match moduloBounds s agu n with
      | none => .next (s.getW n, s.setW n (BitVec.ofInt 16 ((s.getW n).toNat + k)))
      | some (lo, hi) =>
        if k = 0 then .next (s.getW n, s.setW n (s.getW n))
        else
          match modAdjust lo.toNat hi.toNat (s.getW n).toNat k with
          | .error r => .refused r
          | .ok a => .next (s.getW n, s.setW n (BitVec.ofInt 16 a)) := rfl

/-- The Y prefetch's operand is Operand where the setting of YWM is not a reserved one (R134). -/
theorem operandY_state {s t : State} {k : Int} {n : Reg} {ea : Word} (h : operandY s k n = .next (ea, t)) :
    t = s ∨ ∃ a, t = s.setW n a := by
  unfold operandY at h
  split_ifs at h
  exact operand_state h

/-! ### What an operand touches -/

/-- `t` is `s` but for the working registers listed, the fault record, which keeps a cause it holds, what the other SFRs
hold, unless the device leaves SfrRead at its default, and the count of free values. -/
structure OnlyTouched (rs : List Reg) (s t : State) : Prop where
  same : t = { s with w := t.w, faultRecord := t.faultRecord, sfrs := t.sfrs, freeCount := t.freeCount }
  regs : ∀ r, r ∉ rs → t.getW r = s.getW r
  record : ∀ c, s.faultRecord = some c → t.faultRecord = some c
  sfrsKept : s.dev.sfrRead = .refuse → t.sfrs = s.sfrs

theorem OnlyTouched.refl (rs : List Reg) (s : State) : OnlyTouched rs s s :=
  ⟨rfl, fun _ _ => rfl, fun _ h => h, fun _ => rfl⟩

theorem OnlyTouched.dev {rs : List Reg} {s t : State} (h : OnlyTouched rs s t) : t.dev = s.dev := by rw [h.same]

theorem OnlyTouched.acc {rs : List Reg} {s t : State} (h : OnlyTouched rs s t) : t.acc = s.acc := by rw [h.same]

theorem OnlyTouched.trans {rs rs' : List Reg} {s t u : State} (h₁ : OnlyTouched rs s t) (h₂ : OnlyTouched rs' t u)
    (h₁s : ∀ r ∈ rs, r ∈ rs') : OnlyTouched rs' s u where
  same := h₂.same.trans (by rw [h₁.same])
  regs := fun r hr => (h₂.regs r hr).trans (h₁.regs r fun h => hr (h₁s r h))
  record := fun c h => h₂.record c (h₁.record c h)
  sfrsKept := fun h => (h₂.sfrsKept (h₁.dev ▸ h)).trans (h₁.sfrsKept h)

theorem OnlyTouched.mono {rs rs' : List Reg} {s t : State} (h : OnlyTouched rs s t) (hs : ∀ r ∈ rs, r ∈ rs') :
    OnlyTouched rs' s t := h.trans (.refl rs' t) hs

theorem OnlyTouched.setW {rs : List Reg} (s : State) {r : Reg} (v : Word) (h : r ∈ rs) :
    OnlyTouched rs s (s.setW r v) where
  same := rfl
  regs := fun _ hk => State.setW_getW_other s v fun e => hk (e ▸ h)
  record := fun _ h => h
  sfrsKept := fun _ => rfl

theorem OnlyTouched.onlyRaised {rs : List Reg} {s t : State} (h : OnlyRaised s t) : OnlyTouched rs s t where
  same := h.same.trans (by rw [h.same])
  regs := fun _ _ => by rw [h.same]; rfl
  record := h.record
  sfrsKept := h.sfrsKept

theorem OnlyTouched.drawAll (s : State) (rs : List Reg) : OnlyTouched rs s (s.drawAll rs) where
  same := by
    induction rs generalizing s with
    | nil => rfl
    | cons r rs ih => exact (ih (s.drawInto r)).trans rfl
  regs := fun _ h => State.drawAll_getW s rs h
  record := fun c h => by rw [State.drawAll_faultRecord]; exact h
  sfrsKept := fun _ => by simp

/-- The DMA controller's turn after the touch is the touch after the turn: neither sees the other (R70). -/
theorem OnlyTouched.dmaTurn {rs : List Reg} {s t : State} (h : OnlyTouched rs s t) :
    OnlyTouched rs s.dmaTurn t.dmaTurn where
  same := by rw [h.same]; rfl
  regs := h.regs
  record := h.record
  sfrsKept := h.sfrsKept

theorem OnlyTouched.turnBetween {rs : List Reg} {s t : State} (h : OnlyTouched rs s t) (src : MovSrc) (dst : MovDst) :
    OnlyTouched rs (turnBetween src dst s) (turnBetween src dst t) := by
  unfold Sys2Proof.Machine.turnBetween; split
  · exact h.dmaTurn
  · exact h

theorem OnlyTouched.operand {s t : State} {agu : Agu} {mode : AddrMode} {n : Reg} {sz : Size} {ea : Word}
    (h : operand s agu mode n sz = .next (ea, t)) : OnlyTouched [n] s t := by
  rcases operand_state h with rfl | ⟨a, rfl⟩
  · exact .refl _ _
  · exact .setW s a (by simp)

/-- What reading an operand touches: the pointers updated before it, where it traps (R115), and what a read changes. -/
theorem OnlyTouched.readOperand {s t : State} {a v : Word} {sz : Size} {rs : List Reg} {read : State → Result Word}
    (hread : ∀ u v t, read u = .next (v, t) → OnlyRaised u t) (h : readOperand s a sz rs read = .next (v, t)) :
    OnlyTouched rs s t := by
  obtain ⟨m, rfl | rfl, hm⟩ := readOperand_eq_next h
  · exact .onlyRaised (hread _ _ _ hm)
  · exact (OnlyTouched.drawAll s rs).trans (.onlyRaised (hread _ _ _ hm)) fun _ h => h

/-! ### The operands of MOV -/

/-- What loading a source touches: its pointer register at most (R187). -/
theorem OnlyTouched.loadSource {s t : State} {sz : Size} {src : MovSrc} {v : Word}
    (h : loadSource s sz src = .next (v, t)) : OnlyTouched (MovSrc.updates src) s t := by
  cases src with
  | reg r => cases h; exact .refl _ _
  | lit k => cases h; exact .refl _ _
  | direct f => exact .onlyRaised (memRead_onlyRaised h)
  | mem o =>
    rw [Sys2Proof.Machine.loadSource] at h
    obtain ⟨ea, m, ho, hr⟩ := andThen_eq_next.mp h
    have hr := OnlyTouched.readOperand (fun _ _ _ h => memRead_onlyRaised h) hr
    rcases operand_mcu_state ho with rfl | ⟨hu, a, rfl⟩
    · exact hr
    · exact (OnlyTouched.setW s a hu).trans hr fun _ h => h

/-- What a store at the end of an instruction can do: a trap that leaves free values in the touched registers, or the
write (R61, R115). -/
theorem storeOperand_cases {s t : State} {a v : Word} {sz : Size} {rs : List Reg}
    (h : storeOperand s a sz v rs = .next t) :
    (∃ c, writeTrap s.dev a sz = some c ∧ t = (s.drawAll rs).raise c) ∨
      (writeTrap s.dev a sz = none ∧ memWrite s a sz v = .next t) := by
  unfold storeOperand at h
  cases hw : writeTrap s.dev a sz with
  | none => rw [hw] at h; exact .inr ⟨rfl, h⟩
  | some c =>
    rw [hw] at h
    simp only at h
    rcases memWrite_cases h with ⟨c', hc, rfl⟩ | ⟨r, hn, -⟩ | ⟨hn, -⟩ | ⟨hn, -⟩
    · rw [State.drawAll_dev, hw] at hc; cases hc; exact .inl ⟨c, rfl, rfl⟩
    · rw [State.drawAll_dev, hw] at hn; cases hn
    · rw [State.drawAll_dev, hw] at hn; cases hn
    · rw [State.drawAll_dev, hw] at hn; cases hn

/-- A MOV that answers passed its hazard check, has no register conflict, loaded its source and stored its destination
(R187). -/
theorem moveOp_eq_next {s t : State} {sz : Size} {src : MovSrc} {dst : MovDst} :
    moveOp s sz src dst = .next t ↔
      hazardViolated s (MovSrc.readPointers src) = false ∧ byteFormDescribed sz src dst = true ∧
        movConflict src dst = false ∧
        ∃ v u w, loadSource s.start sz src = .next (v, u) ∧
          storeDestination (turnBetween src dst u) sz v (MovSrc.updates src) dst = .next w ∧ t = w.advance := by
  unfold moveOp
  rw [guarded_eq_next]
  refine and_congr_right fun _ => ?_
  cases hb : byteFormDescribed sz src dst
  · simp
  · cases hc : movConflict src dst
    · simp only [Bool.true_eq_false, Bool.false_eq_true, if_false, true_and, finish_eq_next, andThen_eq_next]
      constructor
      · rintro ⟨w, ⟨v, u, hl, hs⟩, rfl⟩; exact ⟨v, u, w, hl, hs, rfl⟩
      · rintro ⟨v, u, w, hl, hs, rfl⟩; exact ⟨w, ⟨v, u, hl, hs⟩, rfl⟩
    · simp

/-! ### The invariant depends on memory, the device and the stored control registers only -/

/-- A state with the same memory, device and control registers meets the invariant too. -/
theorem Inv.of_same {s t : State} (hi : Inv s) (hm : t.mem = s.mem) (hd : t.dev = s.dev)
    (hc : ∀ r, t.storedCtrl r = s.storedCtrl r) : Inv t where
  memCanonical := hm ▸ hi.memCanonical
  memBacked := by unfold MemBacked; rw [hm, hd]; exact hi.memBacked
  ctrlFixed := fun r => by rw [hc]; exact hi.ctrlFixed r
  devAdmitted := hd ▸ hi.devAdmitted

theorem Inv.onlyRaised {s t : State} (hi : Inv s) (h : OnlyRaised s t) : Inv t := by
  rw [h.same]
  exact hi.of_same rfl rfl fun r => by cases r <;> rfl

theorem Inv.onlyTouched {rs : List Reg} {s t : State} (hi : Inv s) (h : OnlyTouched rs s t) : Inv t := by
  rw [h.same]
  exact hi.of_same rfl rfl fun r => by cases r <;> rfl

theorem Inv.setSfrs {s : State} (hi : Inv s) (content : Nat) : Inv (s.setSfrs content) :=
  hi.of_same rfl rfl fun r => by cases r <;> rfl

/-- The DMA controller's turn keeps the invariant (R70). -/
theorem Inv.dmaTurn {s : State} (hi : Inv s) : Inv s.dmaTurn where
  memCanonical := State.dmaTurn_wf hi.memCanonical
  memBacked := fun c hc => (dmaBurst_mem hc).elim .inr (hi.memBacked c)
  ctrlFixed := fun k => by simpa using hi.ctrlFixed k
  devAdmitted := hi.devAdmitted

theorem Inv.turnBetween {s : State} (hi : Inv s) (src : MovSrc) (dst : MovDst) : Inv (turnBetween src dst s) := by
  unfold Sys2Proof.Machine.turnBetween; split
  · exact hi.dmaTurn
  · exact hi

theorem Inv.setW {s : State} (hi : Inv s) (r : Reg) (v : Word) : Inv (s.setW r v) :=
  hi.of_same rfl rfl fun r => by cases r <;> rfl

theorem Inv.drawAll {s : State} (hi : Inv s) (rs : List Reg) : Inv (s.drawAll rs) :=
  hi.of_same (by simp) (by simp) (by simp)

theorem Inv.writeCtrl {s : State} (hi : Inv s) (r : CtrlReg) (v : Word) : Inv (s.writeCtrl r v) where
  memCanonical := by simpa using hi.memCanonical
  memBacked := by unfold MemBacked; rw [State.writeCtrl_mem, State.writeCtrl_dev]; exact hi.memBacked
  ctrlFixed := fun k => by
    rw [State.writeCtrl_storedCtrl]
    split
    · next h => subst h; simp
    · exact hi.ctrlFixed k
  devAdmitted := by simpa using hi.devAdmitted

theorem Inv.setByte {s : State} (hi : Inv s) {a : Nat} (b : Byte) (ha : isRam s.dev a = true) :
    Inv (s.setByte a b) where
  memCanonical := State.setByte_wf _ _ hi.memCanonical
  memBacked := by
    intro c hc
    rcases Memory.mem_write hc with rfl | hc
    · simpa [isRam] using ha
    · exact hi.memBacked c hc
  ctrlFixed := fun k => by simpa using hi.ctrlFixed k
  devAdmitted := hi.devAdmitted

end Sys2Proof.Machine
end

