-- ==== Sys2Proof/Laws/Exec.lean ====
section
/-!
SUPPORT. What an instruction can do when it gives a next state, said once for all sixteen: the inversion lemma of `exec`,
and of `step` over it.
-/
namespace Sys2Proof.Machine

/-- What a MAC that answers did: it prefetched, generated the write back's address, and wrote back (R195). -/
structure MacRun (m n : Reg) (x : XPtr) (kx : Int) (xd : Reg) (y : YPtr) (ky : Int) (yd : Reg) (kw : Int) (s w : State) :
    Prop where
  noConflict : macConflict m n x.reg xd y.reg yd = false
  accesses : ∃ u wa t, macPrefetches s x kx xd y ky yd = .next ((), u) ∧
    operand u .xWagu (.postMod kw) 13 .word = .next (wa, t) ∧
      macWriteBack t wa (Config.macArith (s.getW m) (s.getW n) s.acc).2
        (Config.macArith (s.getW m) (s.getW n) s.acc).1 [x.reg, y.reg, xd, yd, 13] = .next w

/-- A MAC answers exactly when its hazard check and its accesses pass (R195). -/
theorem execMac_eq_next {m n : Reg} {x : XPtr} {kx : Int} {xd : Reg} {y : YPtr} {ky : Int} {yd : Reg} {kw : Int}
    {s t : State} (h : execMacPrefetchWb m n x kx xd y ky yd kw s = .next t) :
    hazardViolated s (.through [x.reg, y.reg]) = false ∧
      ∃ w, MacRun m n x kx xd y ky yd kw s.start w ∧ t = w.advance := by
  unfold execMacPrefetchWb at h
  obtain ⟨hz, h⟩ := guarded_eq_next.mp h
  refine ⟨hz, ?_⟩
  split at h
  · cases h
  · next hc =>
    simp only at h
    obtain ⟨w, hw, ht⟩ := finish_eq_next.mp h
    obtain ⟨⟨⟩, u, h₁, h⟩ := andThen_eq_next.mp hw
    obtain ⟨wa, v, h₂, h⟩ := andThen_eq_next.mp h
    exact ⟨w, ⟨by simpa using hc, u, wa, v, h₁, h₂, h⟩, ht⟩

/-- The four accesses of the prefetches that answer, each with the state after it (R195). -/
theorem macPrefetches_eq_next {s t : State} {x : XPtr} {kx : Int} {xd : Reg} {y : YPtr} {ky : Int} {yd : Reg}
    (h : macPrefetches s x kx xd y ky yd = .next ((), t)) :
    ∃ xa t₁ xv t₂ ya t₃ yv t₄, operand s .xRagu (.postMod kx) x.reg .word = .next (xa, t₁) ∧
      readOperand t₁ xa .word [x.reg] (memReadX · xa) = .next (xv, t₂) ∧
      operandY t₂.dmaTurn ky y.reg = .next (ya, t₃) ∧
      readOperand t₃ ya .word [y.reg] (memReadY · ya) = .next (yv, t₄) ∧ t = (t₄.dmaTurn.setW xd xv).setW yd yv := by
  unfold macPrefetches at h
  obtain ⟨xa, t₁, h₁, h⟩ := andThen_eq_next.mp h
  obtain ⟨xv, t₂, h₂, h⟩ := andThen_eq_next.mp h
  obtain ⟨ya, t₃, h₃, h⟩ := andThen_eq_next.mp h
  obtain ⟨yv, t₄, h₄, h⟩ := andThen_eq_next.mp h
  cases h
  exact ⟨xa, t₁, xv, t₂, ya, t₃, yv, t₄, h₁, h₂, h₃, h₄, rfl⟩

/-- What a MOV that answers did: it loaded its source and stored its destination (R187). -/
structure MovRun (sz : Size) (src : MovSrc) (dst : MovDst) (s w : State) : Prop where
  described : byteFormDescribed sz src dst = true
  noConflict : movConflict src dst = false
  accesses : ∃ v u, loadSource s sz src = .next (v, u) ∧
    storeDestination (turnBetween src dst u) sz v (MovSrc.updates src) dst = .next w

/-- Every instruction of the MOV family is one MOV over its operand forms (R180 to R187). -/
theorem exec_of_movParts {i : Instr} {sz : Size} {src : MovSrc} {dst : MovDst} (h : movParts i = some (sz, src, dst))
    (s : State) : exec i s = moveOp s sz src dst := by
  cases i <;> cases h <;> rfl

/-- The classification R205 of a MOV is by its source. -/
theorem readPointersOf_movParts {i : Instr} {sz : Size} {src : MovSrc} {dst : MovDst}
    (h : movParts i = some (sz, src, dst)) : readPointersOf i = MovSrc.readPointers src := by
  cases i <;> cases h <;> rfl

/-- What an instruction that gives a next state is and did: a MOV, a NOP, a REPEAT or a MAC, past its hazard check. -/
theorem exec_cases {i : Instr} {s t : State} (h : exec i s = .next t) :
    hazardViolated s (readPointersOf i) = false ∧
      ((∃ sz src dst w, movParts i = some (sz, src, dst) ∧ MovRun sz src dst s.start w ∧ t = w.advance) ∨
        (i = .nop ∧ t = s.start.advance) ∨
        (∃ lit, i = .repeatLit lit ∧ t = { s.start with rc := lit, pc := s.pc + 1 }) ∨
        ∃ m n x kx xd y ky yd kw w, i = .macPrefetchWb m n x kx xd y ky yd kw ∧
          MacRun m n x kx xd y ky yd kw s.start w ∧ t = w.advance) := by
  have mov : ∀ sz src dst, movParts i = some (sz, src, dst) → hazardViolated s (readPointersOf i) = false ∧
      ∃ sz src dst w, movParts i = some (sz, src, dst) ∧ MovRun sz src dst s.start w ∧ t = w.advance := by
    intro sz src dst hp
    rw [exec_of_movParts hp, moveOp_eq_next] at h
    obtain ⟨hz, hb, hc, v, u, w, hl, hs, ht⟩ := h
    exact ⟨by rwa [readPointersOf_movParts hp], sz, src, dst, w, hp, ⟨hb, hc, v, u, hl, hs⟩, ht⟩
  have stop : ∀ p q, exec i s = guarded p s (fun _ => .refused q) → False := by
    intro p q he
    rw [he, guarded_eq_next] at h
    cases h.2
  cases i with
  | nop => exact ⟨rfl, .inr (.inl ⟨rfl, by cases h; rfl⟩)⟩
  | repeatLit lit => exact ⟨rfl, .inr (.inr (.inl ⟨lit, rfl, by cases h; rfl⟩))⟩
  | macPrefetchWb m n x kx xd y ky yd kw =>
    obtain ⟨hz, w, hw, ht⟩ := execMac_eq_next h
    exact ⟨hz, .inr (.inr (.inr ⟨m, n, x, kx, xd, y, ky, yd, kw, w, rfl, hw, ht⟩))⟩
  | movLitW _ _ => exact (mov _ _ _ rfl).imp id .inl
  | movWF _ _ => exact (mov _ _ _ rfl).imp id .inl
  | movIndW _ _ => exact (mov _ _ _ rfl).imp id .inl
  | movPostincW _ _ => exact (mov _ _ _ rfl).imp id .inl
  | movWPostinc _ _ => exact (mov _ _ _ rfl).imp id .inl
  | movPostincPostinc _ _ => exact (mov _ _ _ rfl).imp id .inl
  | movGeneral _ _ _ => exact (mov _ _ _ rfl).imp id .inl
  | doLitLabel _ _ => exact (stop .noRead _ rfl).elim
  | pop _ => exact (stop (.through [15]) _ rfl).elim
  | returnCall => exact (stop .every _ rfl).elim
  | retfie => exact (stop .every _ rfl).elim
  | retlw _ _ => exact (stop .every _ rfl).elim
  | ulnk => exact (stop .every _ rfl).elim

/-- A step that gives a next state ran the decoded instruction after the DMA controller's turn. -/
theorem step_cases {s t : State} (h : step s = .next t) :
    s.faultRecord = none ∧ ∃ i, fetch s.dmaTurn = .ok i ∧ exec i s.dmaTurn = .next t := by
  unfold step at h
  split at h
  · cases h
  · next hf =>
    split at h
    · cases h
    · next i hi => exact ⟨hf, i, hi, h⟩

/-! ### The effect of an instruction, in one form for all -/

/-- What a MAC's prefetches touch: the two pointers and the two destinations, over the DMA controller's two turns
(R195, R70). -/
theorem OnlyTouched.macPrefetches {s t : State} {x : XPtr} {kx : Int} {xd : Reg} {y : YPtr} {ky : Int} {yd : Reg}
    (h : macPrefetches s x kx xd y ky yd = .next ((), t)) :
    OnlyTouched [x.reg, y.reg, xd, yd] s.dmaTurn.dmaTurn t := by
  obtain ⟨xa, t₁, xv, t₂, ya, t₃, yv, t₄, h₁, h₂, h₃, h₄, rfl⟩ := macPrefetches_eq_next h
  have hy : Sys2Proof.Machine.operand t₂.dmaTurn .yAgu (.postMod ky) y.reg .word = .next (ya, t₃) := by
    unfold operandY at h₃; split_ifs at h₃; exact h₃
  have e₁ := (OnlyTouched.operand h₁).mono (rs' := [x.reg, y.reg, xd, yd]) (by simp)
  have e₂ := (e₁.trans ((OnlyTouched.readOperand (fun _ _ _ h => memReadX_onlyRaised h) h₂).mono
    (rs' := [x.reg, y.reg, xd, yd]) (by simp)) fun _ h => h).dmaTurn
  have e₃ := e₂.trans ((OnlyTouched.operand hy).mono (rs' := [x.reg, y.reg, xd, yd]) (by simp)) fun _ h => h
  have e₄ := (e₃.trans ((OnlyTouched.readOperand (fun _ _ _ h => memReadY_onlyRaised h) h₄).mono
    (rs' := [x.reg, y.reg, xd, yd]) (by simp)) fun _ h => h).dmaTurn
  exact (e₄.trans (.setW t₄.dmaTurn xv (by simp)) fun _ h => h).trans (.setW _ yv (by simp)) fun _ h => h

/-- The effect of a store at an address: a trap recorded, a control register written, the other SFRs changed on a device
that gives them a behaviour, or RAM written. -/
inductive StoreEffect (d : Dev) (a : Word) (sz : Size) (m : State) : State → Prop where
  | trap (c : AddressErrorCause) (h : writeTrap d a sz = some c) : StoreEffect d a sz m (m.raise c)
  | ctrl (r : CtrlReg) (v : Word) (h : ReachesCtrl d a sz r) : StoreEffect d a sz m (m.writeCtrl r v)
  | other (q : Nat) (h : writeTrap d a sz = none) (hk : d.kind (wordAddr a).toNat = .sfr)
      (hc : d.ctrlAt (wordAddr a) = none) (hd : d.sfrWrite = .given) : StoreEffect d a sz m (m.setSfrs q)
  | ram (v : Word) (h : writeTrap d a sz = none) (hr : isRam d (wordAddr a).toNat = true) :
      StoreEffect d a sz m (writeRam m a sz v)

theorem memWrite_effect {s t : State} {a v : Word} {sz : Size} (h : memWrite s a sz v = .next t) :
    StoreEffect s.dev a sz s t := by
  rcases memWrite_cases h with ⟨c, hc, rfl⟩ | ⟨r, h₁, h₂, h₃, rfl⟩ | ⟨h₁, h₂, h₃, h₄, q, rfl⟩ | ⟨h₁, h₂, rfl⟩
  · exact .trap c hc
  · exact .ctrl r _ ⟨h₁, h₂, h₃⟩
  · exact .other q h₁ h₂ h₃ h₄
  · exact .ram v h₁ h₂

/-- What a store leaves as it was, whatever its effect: registers, accumulators, pc, repeat counter, `hz_old`, parameters,
and what the other SFRs hold where the device leaves SfrWrite at its default. -/
theorem StoreEffect.keeps {d : Dev} {a : Word} {sz : Size} {m w : State} (h : StoreEffect d a sz m w) :
    w.getW = m.getW ∧ w.acc = m.acc ∧ (w.pc = m.pc ∧ w.rc = m.rc) ∧
      (w.hzOldModcon = m.hzOldModcon ∧ w.hzOldXbrev = m.hzOldXbrev) ∧ ParamsKept m w ∧
      (d.sfrWrite = .refuse → w.sfrs = m.sfrs) := by
  cases h with
  | trap c h => exact ⟨rfl, rfl, ⟨rfl, rfl⟩, ⟨rfl, rfl⟩, ⟨rfl, rfl, rfl, rfl⟩, fun _ => rfl⟩
  | ctrl r v h => cases r <;> exact ⟨rfl, rfl, ⟨rfl, rfl⟩, ⟨rfl, rfl⟩, ⟨rfl, rfl, rfl, rfl⟩, fun _ => rfl⟩
  | other q h hk hc hd =>
    exact ⟨rfl, rfl, ⟨rfl, rfl⟩, ⟨rfl, rfl⟩, ⟨rfl, rfl, rfl, rfl⟩, fun e => by rw [hd] at e; cases e⟩
  | ram v h hr => cases sz <;> exact ⟨rfl, rfl, ⟨rfl, rfl⟩, ⟨rfl, rfl⟩, ⟨rfl, rfl, rfl, rfl⟩, fun _ => rfl⟩

/-- The store of an instruction: it touches the listed registers at most, then has the effect of its write. -/
theorem storeOperand_effect {s t : State} {a v : Word} {sz : Size} {rs : List Reg}
    (h : storeOperand s a sz v rs = .next t) :
    ∃ m, OnlyTouched rs s m ∧ m.faultRecord = s.faultRecord ∧ StoreEffect s.dev a sz m t := by
  rcases storeOperand_cases h with ⟨c, hc, rfl⟩ | ⟨-, hw⟩
  · exact ⟨_, .drawAll s rs, by simp, .trap c hc⟩
  · exact ⟨s, .refl _ _, rfl, memWrite_effect hw⟩

/-- The write back of a MAC: it sets the accumulators, touches the listed registers at most, then has the effect of its
write. -/
theorem macWriteBack_effect {s t : State} {wa wb : Word} {acc : Accumulators} {rs : List Reg}
    (h : macWriteBack s wa wb acc rs = .next t) :
    ∃ m, OnlyTouched rs s { m with acc := s.acc } ∧ m.faultRecord = s.faultRecord ∧ StoreEffect s.dev wa .word m t := by
  unfold macWriteBack at h
  split at h
  · have hd := OnlyTouched.drawAll s rs
    have hf := State.drawAll_faultRecord s rs
    simp only at h
    generalize s.drawAll rs = d at h hd hf
    have he := memWrite_effect h
    rw [← hd.dev]
    exact ⟨{ d with acc := Config.freeAccumulators d.freeCount, freeCount := d.freeCount + 1 },
      ⟨by rw [hd.same], hd.regs, hd.record, hd.sfrsKept⟩, hf, he⟩
  · have he := memWrite_effect h
    exact ⟨{ s with acc := acc }, ⟨rfl, fun _ _ => rfl, fun _ h => h, fun _ => rfl⟩, rfl, he⟩

/-- What an instruction did before the pc moved: over the DMA controller's turns it touched the registers it may write,
changed the accumulators if it is a MAC, and had the effect of its store if it makes one, upon the record its reads
left. -/
structure Effect (i : Instr) (s m w : State) : Prop where
  touched : OnlyTouched (writtenRegs i) (s.dmaTurns (turnsWithin i)) { m with acc := s.acc }
  accKept : (∀ m n x kx xd y ky yd kw, i ≠ .macPrefetchWb m n x kx xd y ky yd kw) → m.acc = s.acc
  stored : (storeTarget s i = none ∧ w = m) ∨
    ∃ u a sz, beforeStore s i = some u ∧ m.faultRecord = u.faultRecord ∧ storeTarget s i = some (a, sz) ∧
      StoreEffect s.dev a sz m w

/-- The registers a MOV may write, by its destination. -/
theorem writtenRegs_reg {i : Instr} {sz : Size} {src : MovSrc} {d : Reg} (hp : movParts i = some (sz, src, .reg d)) :
    writtenRegs i = d :: MovSrc.updates src := by
  cases i <;> cases hp <;> rfl

theorem writtenRegs_direct {i : Instr} {sz : Size} {src : MovSrc} {f : Word}
    (hp : movParts i = some (sz, src, .direct f)) : writtenRegs i = MovSrc.updates src := by
  cases i <;> cases hp <;> rfl

theorem writtenRegs_mem {i : Instr} {sz : Size} {src : MovSrc} {o : MemOperand}
    (hp : movParts i = some (sz, src, .mem o)) : writtenRegs i = MovSrc.updates src ++ MemOperand.updates o := by
  cases i <;> cases hp <;> rfl

/-- The turn between the accesses of a MOV is the turn counted within it. -/
theorem dmaTurns_movParts {i : Instr} {sz : Size} {src : MovSrc} {dst : MovDst} (hp : movParts i = some (sz, src, dst))
    (s : State) : s.dmaTurns (turnsWithin i) = turnBetween src dst s := by
  have : turnsWithin i = if (MovSrc.accesses src && MovDst.accesses dst) = true then 1 else 0 := by
    cases i <;> cases hp <;> rfl
  rw [this]; unfold turnBetween; split <;> rfl

/-- Where the write operand of a MOV begins (R64, R70). -/
theorem beforeStore_movParts {i : Instr} {sz : Size} {src : MovSrc} {dst : MovDst} {s u : State} {v : Word}
    (hp : movParts i = some (sz, src, dst)) (hl : loadSource s sz src = .next (v, u)) :
    beforeStore s i = some (turnBetween src dst u) := by
  have : beforeStore s i = (stateOf (loadSource s sz src)).map (turnBetween src dst) := by
    cases i <;> cases hp <;> rfl
  rw [this, hl]; rfl

/-- Where the destination of a MOV stores (R187). -/
theorem targetFrom_movParts {i : Instr} {sz : Size} {src : MovSrc} {dst : MovDst} (hp : movParts i = some (sz, src, dst))
    (u : State) : targetFrom u i = destinationTarget u sz dst := by
  cases i <;> cases hp <;> rfl

theorem movRun_effect {i : Instr} {sz : Size} {src : MovSrc} {dst : MovDst} {s w : State}
    (hp : movParts i = some (sz, src, dst)) (h : MovRun sz src dst s w) : ∃ m, Effect i s m w := by
  obtain ⟨v, u, hl, hs⟩ := h.accesses
  have hb := beforeStore_movParts hp hl
  have hu := (OnlyTouched.loadSource hl).turnBetween src dst
  rw [← dmaTurns_movParts hp] at hu
  generalize turnBetween src dst u = u' at hs hb hu
  have hsd : (s.dmaTurns (turnsWithin i)).dev = s.dev := by
    rw [dmaTurns_movParts hp]; unfold turnBetween; split <;> rfl
  have hsa : (s.dmaTurns (turnsWithin i)).acc = s.acc := by
    rw [dmaTurns_movParts hp]; unfold turnBetween; split <;> rfl
  have hst : storeTarget s i = targetFrom u' i := by unfold storeTarget; rw [hb]; rfl
  rw [targetFrom_movParts hp] at hst
  have fin : ∀ m, OnlyTouched (writtenRegs i) (s.dmaTurns (turnsWithin i)) m →
      ((storeTarget s i = none ∧ w = m) ∨ ∃ u a sz, beforeStore s i = some u ∧ m.faultRecord = u.faultRecord ∧
        storeTarget s i = some (a, sz) ∧ StoreEffect s.dev a sz m w) → Effect i s m w := by
    intro m hm hd
    refine ⟨?_, fun _ => hm.acc.trans hsa, hd⟩
    rw [← hsa, ← hm.acc]; exact hm
  cases dst with
  | reg d =>
    cases hs
    refine ⟨_, fin _ ?_ (.inl ⟨hst, rfl⟩)⟩
    rw [writtenRegs_reg hp]
    exact hu.trans (.setW u' v (by simp)) fun r hr => by simp [hr]
  | direct f =>
    obtain ⟨m, hm, hf, he⟩ := storeOperand_effect hs
    refine ⟨m, fin m ?_ (.inr ⟨u', f, sz, hb, hf, hst, by rw [← hsd, ← hu.dev]; exact he⟩)⟩
    rw [writtenRegs_direct hp]
    exact hu.trans hm fun _ h => h
  | mem o =>
    rw [storeDestination] at hs
    obtain ⟨a, m₁, ho, hs⟩ := andThen_eq_next.mp hs
    obtain ⟨m, hm, hf, he⟩ := storeOperand_effect hs
    have h₁ : OnlyTouched (MemOperand.updates o) u' m₁ ∧ m₁.faultRecord = u'.faultRecord := by
      rcases operand_mcu_state ho with rfl | ⟨hu, a, rfl⟩
      · exact ⟨.refl _ _, rfl⟩
      · exact ⟨.setW u' a hu, rfl⟩
    simp only [destinationTarget, ho, accessAt] at hst
    refine ⟨m, fin m ?_ (.inr ⟨u', a, sz, hb, hf.trans h₁.2, hst, by rw [← hsd, ← hu.dev, ← h₁.1.dev]; exact he⟩)⟩
    rw [writtenRegs_mem hp]
    exact hu.trans (h₁.1.trans hm fun r hr => by simp [hr]) fun r hr => by simp [hr]

theorem macRun_effect {m n : Reg} {x : XPtr} {kx : Int} {xd : Reg} {y : YPtr} {ky : Int} {yd : Reg} {kw : Int}
    {s w : State} (h : MacRun m n x kx xd y ky yd kw s w) :
    ∃ q, Effect (.macPrefetchWb m n x kx xd y ky yd kw) s q w := by
  obtain ⟨u, wa, t, h₁, h₂, h₃⟩ := h.accesses
  obtain ⟨q, hq, hf, he⟩ := macWriteBack_effect h₃
  have hb : beforeStore s (.macPrefetchWb m n x kx xd y ky yd kw) = some u := by
    simp only [beforeStore, h₁, stateOf]
  have ht : storeTarget s (.macPrefetchWb m n x kx xd y ky yd kw) = some (wa, .word) := by
    simp only [storeTarget, hb, targetFrom, h₂, accessAt, Option.bind_some]
  have hu := OnlyTouched.macPrefetches h₁
  have ho := OnlyTouched.operand h₂
  have hA : OnlyTouched [x.reg, y.reg, xd, yd, 13] s.dmaTurn.dmaTurn t :=
    (hu.mono (by intro r hr; simp only [List.mem_cons, List.not_mem_nil, or_false] at hr ⊢; tauto)).trans
      (ho.mono (by simp)) fun _ h => h
  have hfu : t.faultRecord = u.faultRecord := by
    rcases operand_state h₂ with rfl | ⟨a, rfl⟩ <;> rfl
  have hta : t.acc = s.acc := hA.acc
  have hB := hA.trans hq fun _ h => h
  refine ⟨q, ⟨hta ▸ hB, fun hn => absurd rfl (hn m n x kx xd y ky yd kw),
    .inr ⟨u, wa, .word, hb, hf.trans hfu, ht, hA.dev ▸ he⟩⟩⟩

/-- The inversion lemma of `exec` in one form: the effect, then the pc moved, or for a REPEAT the counter loaded. -/
theorem exec_effect {i : Instr} {s t : State} (h : exec i s = .next t) :
    ∃ m w, Effect i s.start m w ∧
      (((∀ lit, i ≠ .repeatLit lit) ∧ t = w.advance) ∨
        ∃ lit, i = .repeatLit lit ∧ w = s.start ∧ t = { w with rc := lit, pc := s.pc + 1 }) := by
  obtain ⟨-, ⟨sz, src, dst, w, hp, hw, ht⟩ | ⟨rfl, ht⟩ | ⟨lit, rfl, ht⟩ | ⟨m, n, x, kx, xd, y, ky, yd, kw, w, rfl, hw, ht⟩⟩ :=
    exec_cases h
  · obtain ⟨m, hm⟩ := movRun_effect hp hw
    exact ⟨m, w, hm, .inl ⟨fun lit e => (by subst e; cases hp), ht⟩⟩
  · exact ⟨s.start, s.start, ⟨.refl _ _, fun _ => rfl, .inl ⟨rfl, rfl⟩⟩, .inl ⟨nofun, ht⟩⟩
  · exact ⟨s.start, s.start, ⟨.refl _ _, fun _ => rfl, .inl ⟨rfl, rfl⟩⟩, .inr ⟨lit, rfl, rfl, ht⟩⟩
  · obtain ⟨q, hq⟩ := macRun_effect hw
    exact ⟨q, w, hq, .inl ⟨nofun, ht⟩⟩

end Sys2Proof.Machine
end

