-- ==== Sys2Proof/Laws/Statements.lean ====
section
/-!
SUPPORT. The decoder's reading of the token lists the encoder's texts have: operands and statements.
-/
namespace Sys2Proof

/-- A memory operand's tokens read back as the operand. -/
theorem operandOf_memTokens (syms : SymbolTable) (o : MemOperand) : operandOf syms (memTokens o) = some (.mem o) := by
  rcases o with ⟨r, m⟩
  cases m with
  | indirect => simp [memTokens, operandOf, memOperandOf]
  | postInc => simp [memTokens, operandOf, memOperandOf]
  | postDec => simp [memTokens, operandOf, memOperandOf]
  | preInc => simp [memTokens, operandOf, memOperandOf]
  | preDec => simp [memTokens, operandOf, memOperandOf]
  | indexed x => simp [memTokens, operandOf, memOperandOf]
  | offset k =>
    cases k with
    | ofNat n => simp [memTokens, signedTokens, operandOf, memOperandOf]
    | negSucc n => simp [memTokens, signedTokens, operandOf, memOperandOf, Int.negSucc_eq]

theorem wordOfNat_toNat (v : Word) : wordOfNat v.toNat = some v := by
  simp [wordOfNat, v.isLt]

/-- A source's tokens read back as the source. -/
theorem operandOf_srcTokens (syms : SymbolTable) (s : MovSrc) : operandOf syms (srcTokens s) = some s := by
  cases s with
  | reg r => simp [srcTokens, operandOf]
  | lit k => simp [srcTokens, operandOf, wordOfNat_toNat]
  | direct f => simp [srcTokens, operandOf, wordOfNat_toNat]
  | mem o => exact operandOf_memTokens syms o

/-- A destination's tokens read back as the destination. -/
theorem operandOf_dstTokens (syms : SymbolTable) (d : MovDst) :
    (operandOf syms (dstTokens d)).bind MovSrc.asDst = some d := by
  cases d with
  | reg r => simp [dstTokens, operandOf, MovSrc.asDst]
  | direct f => simp [dstTokens, operandOf, wordOfNat_toNat, MovSrc.asDst]
  | mem o => simp [dstTokens, operandOf_memTokens, MovSrc.asDst]

/-- A DSP-class operand's tokens read back as its register and constant. -/
theorem postModOf_tokens (r : Reg) (k : Int) : postModOf (postModTokens r k) = some (regName r, k) := by
  cases k with
  | ofNat n => simp [postModTokens, signedTokens, postModOf]
  | negSucc n => simp [postModTokens, signedTokens, postModOf, Int.negSucc_eq]

@[simp] theorem xPtrOf_regName (x : XPtr) : xPtrOf (regName x.reg) = some x := by
  cases x <;> simp [xPtrOf, XPtr.reg]

@[simp] theorem yPtrOf_regName (y : YPtr) : yPtrOf (regName y.reg) = some y := by
  cases y <;> simp [yPtrOf, YPtr.reg]

/-- No token of a list is a comma. -/
def NoComma (ts : List Token) : Prop := ∀ t ∈ ts, t ≠ .comma

theorem splitCommas_noComma {ts : List Token} (h : NoComma ts) : splitCommas ts = [ts] := by
  induction ts with
  | nil => rfl
  | cons t ts ih =>
    rw [splitCommas, if_neg (h t (by simp)), ih fun u hu => h u (by simp [hu])]

theorem splitCommas_append {a b : List Token} (h : NoComma a) :
    splitCommas (a ++ .comma :: b) = a :: splitCommas b := by
  induction a with
  | nil => simp [splitCommas]
  | cons t a ih =>
    rw [List.cons_append, splitCommas, if_neg (h t (by simp)), ih fun u hu => h u (by simp [hu])]

theorem noComma_signed (k : Int) : NoComma (signedTokens k) := by
  cases k <;> simp [NoComma, signedTokens]

theorem noComma_mem (o : MemOperand) : NoComma (memTokens o) := by
  rcases o with ⟨r, m⟩
  cases m with
  | offset k => cases k <;> simp [NoComma, memTokens, signedTokens]
  | indirect => simp [NoComma, memTokens]
  | postInc => simp [NoComma, memTokens]
  | postDec => simp [NoComma, memTokens]
  | preInc => simp [NoComma, memTokens]
  | preDec => simp [NoComma, memTokens]
  | indexed x => simp [NoComma, memTokens]

theorem noComma_src (s : MovSrc) : NoComma (srcTokens s) := by
  cases s with
  | mem o => exact noComma_mem o
  | reg r => simp [NoComma, srcTokens]
  | lit k => simp [NoComma, srcTokens]
  | direct f => simp [NoComma, srcTokens]

theorem noComma_dst (d : MovDst) : NoComma (dstTokens d) := by
  cases d with
  | mem o => exact noComma_mem o
  | reg r => simp [NoComma, dstTokens]
  | direct f => simp [NoComma, dstTokens]

theorem noComma_postMod (r : Reg) (k : Int) : NoComma (postModTokens r k) := by
  cases k <;> simp [NoComma, postModTokens, signedTokens]

/-- The decoder on the tokens of a statement: a mnemonic that is no label, then its operands. -/
theorem instrOf_statement {syms : SymbolTable} {m : List Byte} {ops : List Token} {i : Instr}
    (hl : ∀ rest, ops ≠ .colon :: rest) (h : statementOf syms m (splitCommas ops) = some (some i))
    (hw : i.wellFormed = true) : instrOf syms (.word m :: ops) = .ok i := by
  have hd : dropLabel (.word m :: ops) = .word m :: ops := by
    unfold dropLabel
    split
    · next heq => cases heq; exact absurd rfl (hl _)
    · rfl
  unfold instrOf
  rw [hd]
  simp only [h, hw, if_true]

/-- A MOV statement of words reads as the row its operands are. -/
theorem statementOf_mov (syms : SymbolTable) (src : MovSrc) (dst : MovDst) :
    statementOf syms (ascii "MOV") [srcTokens src, dstTokens dst] = some (some (movOf .word src dst)) := by
  have : statementOf syms (ascii "MOV") [srcTokens src, dstTokens dst] =
      some (movStatement syms .word [srcTokens src, dstTokens dst]) := by
    unfold statementOf; rw [if_pos (by decide)]
  rw [this, movStatement, operandOf_srcTokens, operandOf_dstTokens]

/-- A MOV.B statement reads as the general MOV of bytes. -/
theorem statementOf_movB (syms : SymbolTable) (src : MovSrc) (dst : MovDst) :
    statementOf syms (ascii "MOV.B") [srcTokens src, dstTokens dst] = some (some (movOf .byte src dst)) := by
  have : statementOf syms (ascii "MOV.B") [srcTokens src, dstTokens dst] =
      some (movStatement syms .byte [srcTokens src, dstTokens dst]) := by
    unfold statementOf; rw [if_neg (by decide), if_pos (by decide)]
  rw [this, movStatement, operandOf_srcTokens, operandOf_dstTokens]

theorem mnemonic_isLexeme :
    ∀ m ∈ [ascii "MOV", ascii "MOV.B", ascii "NOP", ascii "REPEAT", ascii "DO", ascii "MAC", ascii "POP",
      ascii "RETURN", ascii "RETFIE", ascii "RETLW", ascii "ULNK"], isName m = true := by decide

/-- The text of a MOV breaks into its tokens. -/
theorem tok_movText (m : List Byte) (hm : isName m = true) (src : MovSrc) (dst : MovDst) :
    EndsTokens ((m ++ [32#8]) ++ srcText src ++ ascii ", " ++ dstText dst)
      ([.word m] ++ srcTokens src ++ [.comma] ++ dstTokens dst) :=
  ((((tok_mnemonic (isLexeme_name hm)).append_ends (tok_src src)).append
    (fun rest => stops_of_head (by decide) rest) tok_commaBlank).append_ends (tok_dst dst))

theorem srcTokens_noColon (src : MovSrc) (dst : List Token) (rest : List Token) :
    srcTokens src ++ .comma :: dst ≠ .colon :: rest := by
  cases src with
  | mem o => rcases o with ⟨r, m⟩; cases m <;> simp [srcTokens, memTokens]
  | reg r => simp [srcTokens]
  | lit k => simp [srcTokens]
  | direct f => simp [srcTokens]

/-- The decoder reads a MOV's text as the row its operands are. -/
theorem decode_movText (syms : SymbolTable) (src : MovSrc) (dst : MovDst)
    (hw : (movOf .word src dst).wellFormed = true) :
    decode syms (ascii "MOV " ++ srcText src ++ ascii ", " ++ dstText dst) = .ok (movOf .word src dst) := by
  refine (decode_of_tokens syms (tok_movText (ascii "MOV") (mnemonic_isLexeme _ (by simp)) src dst)).trans ?_
  simp only [List.cons_append, List.append_assoc, List.nil_append]
  refine instrOf_statement (srcTokens_noColon src _) ?_ hw
  rw [splitCommas_append (noComma_src src), splitCommas_noComma (noComma_dst dst)]
  exact statementOf_mov syms src dst

/-- The decoder reads a MOV.B's text as the general MOV of bytes. -/
theorem decode_movBText (syms : SymbolTable) (src : MovSrc) (dst : MovDst)
    (hw : (movOf .byte src dst).wellFormed = true) :
    decode syms (ascii "MOV.B " ++ srcText src ++ ascii ", " ++ dstText dst) = .ok (movOf .byte src dst) := by
  refine (decode_of_tokens syms (tok_movText (ascii "MOV.B") (mnemonic_isLexeme _ (by simp)) src dst)).trans ?_
  simp only [List.cons_append, List.append_assoc, List.nil_append]
  refine instrOf_statement (srcTokens_noColon src _) ?_ hw
  rw [splitCommas_append (noComma_src src), splitCommas_noComma (noComma_dst dst)]
  exact statementOf_movB syms src dst

/-- A statement whose operands are one number and one more list of tokens after a comma. -/
theorem tok_numberThen (m : List Byte) (hm : isName m = true) (n : Nat) {bs : List Byte} {ts : List Token}
    (h : EndsTokens bs ts) :
    EndsTokens ((m ++ [32#8]) ++ ascii "#" ++ decimal n ++ ascii ", " ++ bs)
      ([.word m] ++ [.hash] ++ [.num n] ++ [.comma] ++ ts) :=
  (((((tok_mnemonic (isLexeme_name hm)).append tok_hash).append_ends (isLexeme_decimal n).endsTokens).append
    (fun rest => stops_of_head (by decide) rest) tok_commaBlank).append_ends h)

end Sys2Proof
end

