-- ==== Sys2Proof/Laws/PerInstr.lean ====
section
/-!
SUPPORT. The family RoundTrip: the decoder reads the encoder's text of a well-formed instruction back as that
instruction, one lemma a constructor.
-/
namespace Sys2Proof.Laws.RoundTrip
open Sys2Proof

/-- The text of a well-formed instruction decodes to it, whatever names are known. -/
def Statement (i : Instr) : Prop := i.wellFormed = true → ∀ syms, decode syms (encode i) = .ok i

theorem movLitW (k : Word) (d : Reg) : Statement (.movLitW k d) := fun _ syms =>
  decode_movText syms (.lit k) (.reg d) rfl

theorem movWF (s : Reg) (f : Word) : Statement (.movWF s f) := fun _ syms =>
  decode_movText syms (.reg s) (.direct f) rfl

theorem movIndW (s d : Reg) : Statement (.movIndW s d) := fun _ syms =>
  decode_movText syms (.mem ⟨s, .indirect⟩) (.reg d) rfl

theorem movPostincW (s d : Reg) : Statement (.movPostincW s d) := fun _ syms =>
  decode_movText syms (.mem ⟨s, .postInc⟩) (.reg d) rfl

theorem movWPostinc (s d : Reg) : Statement (.movWPostinc s d) := fun _ syms =>
  decode_movText syms (.reg s) (.mem ⟨d, .postInc⟩) rfl

theorem movPostincPostinc (s d : Reg) : Statement (.movPostincPostinc s d) := fun _ syms =>
  decode_movText syms (.mem ⟨s, .postInc⟩) (.mem ⟨d, .postInc⟩) rfl

/-- The operands of an admitted general MOV are of no form that has a row of its own. -/
theorem movOf_admitted {size : Size} {src : MovSrc} {dst : MovDst} (h : admittedGeneral size src dst = true) :
    movOf size src dst = .movGeneral size src dst := by
  unfold movOf
  split <;> first | rfl | simp [admittedGeneral, shownForm] at h

theorem movGeneral (size : Size) (src : MovSrc) (dst : MovDst) : Statement (.movGeneral size src dst) := by
  intro hw syms
  have hm := movOf_admitted hw
  cases size with
  | word => exact (decode_movText syms src dst (hm ▸ hw)).trans (congrArg Except.ok hm)
  | byte => exact (decode_movBText syms src dst (hm ▸ hw)).trans (congrArg Except.ok hm)

theorem nop : Statement .nop := fun _ syms => by
  rw [show encode .nop = ascii "NOP" from rfl,
    decode_of_tokens syms (isLexeme_name (mnemonic_isLexeme (ascii "NOP") (by simp))).endsTokens]
  rfl

theorem repeatLit (n : Nat) : Statement (.repeatLit n) := fun _ syms => by
  have h : EndsTokens (encode (.repeatLit n)) [.word (ascii "REPEAT"), .hash, .num n] :=
    ((tok_mnemonic (isLexeme_name (mnemonic_isLexeme (ascii "REPEAT") (by simp)))).append tok_hash).append_ends
      (isLexeme_decimal n).endsTokens
  rw [decode_of_tokens syms h]
  exact instrOf_statement (m := ascii "REPEAT") (ops := [.hash, .num n]) (by simp) rfl rfl

theorem doLitLabel (n : Nat) (label : List Byte) : Statement (.doLitLabel n label) := fun hw syms => by
  have h := tok_numberThen (ascii "DO") (mnemonic_isLexeme _ (by simp)) n (isLexeme_name hw).endsTokens
  have e : ascii "DO #" = ascii "DO" ++ [32#8] ++ ascii "#" := by decide
  rw [encode, e, decode_of_tokens syms h]
  simp only [List.cons_append, List.nil_append]
  exact instrOf_statement (by simp) rfl hw

theorem macPrefetchWb (m n : Reg) (x : XPtr) (kx : Int) (xd : Reg) (y : YPtr) (ky : Int) (yd : Reg) (kw : Int) :
    Statement (.macPrefetchWb m n x kx xd y ky yd kw) := fun hw syms => by
  have hc : ∀ rest, Stops (ascii ", " ++ rest) := fun rest => stops_of_head (by decide) rest
  have hstar : ∀ rest, Stops (ascii "*" ++ rest) := fun rest => stops_of_head (by decide) rest
  have hcA' : ∀ rest, Stops (ascii ", A, " ++ rest) := fun rest => stops_of_head (by decide) rest
  have hA : EndsTokens (ascii "A") [.word (ascii "A")] := (isLexeme_name (bs := ascii "A") (by decide)).endsTokens
  have hcA : HasTokens (ascii ", A, ") [.comma, .word (ascii "A"), .comma] :=
    (tok_commaBlank.append_ends hA).append hc tok_commaBlank
  have h := ((((((((((((tok_mnemonic (isLexeme_name (mnemonic_isLexeme (ascii "MAC") (by simp)))).append_ends
      (tok_reg m)).append hstar tok_star).append_ends (tok_reg n)).append
      hcA' hcA).append_ends (tok_postMod x.reg kx)).append hc
      tok_commaBlank).append_ends (tok_reg xd)).append hc tok_commaBlank).append_ends (tok_postMod y.reg ky)).append hc
      tok_commaBlank).append_ends (tok_reg yd)).append hc tok_commaBlank |>.append_ends (tok_postMod 13 kw)
  have e : ascii "MAC " = ascii "MAC" ++ [32#8] := by decide
  rw [encode, e, decode_of_tokens syms h]
  simp only [List.cons_append, List.nil_append, List.append_assoc]
  have e₁ : splitCommas (.word (regName m) :: .star :: .word (regName n) :: .comma :: .word (ascii "A") :: .comma ::
      (postModTokens x.reg kx ++ .comma :: .word (regName xd) :: .comma :: (postModTokens y.reg ky ++ .comma ::
        .word (regName yd) :: .comma :: postModTokens 13 kw))) =
      [[.word (regName m), .star, .word (regName n)], [.word (ascii "A")], postModTokens x.reg kx,
        [.word (regName xd)], postModTokens y.reg ky, [.word (regName yd)], postModTokens 13 kw] := by
    simp only [splitCommas, splitCommas_append (noComma_postMod x.reg kx),
      splitCommas_append (noComma_postMod y.reg ky), splitCommas_noComma (noComma_postMod 13 kw), reduceCtorEq, if_false,
      if_true]
  have e₂ : ∀ g, statementOf syms (ascii "MAC") g = some (macStatement g) := fun g => by
    unfold statementOf
    rw [if_neg (by decide), if_neg (by decide), if_neg (by decide), if_neg (by decide), if_neg (by decide),
      if_pos (by decide)]
  have e₃ : ∀ {ops : List Token}, (∀ rest, ops ≠ .colon :: rest) →
      statementOf syms (ascii "MAC") (splitCommas ops) = some (some (.macPrefetchWb m n x kx xd y ky yd kw)) →
      instrOf syms (.word (ascii "MAC") :: ops) = .ok (.macPrefetchWb m n x kx xd y ky yd kw) :=
    fun h₁ h₂ => instrOf_statement h₁ h₂ hw
  refine e₃ (by simp) ?_
  rw [e₁, e₂]
  simp only [macStatement, postModOf_tokens, regOf, regOfName_regName, xPtrOf_regName, yPtrOf_regName, beq_self_eq_true,
    if_true]

theorem pop (d : MovDst) : Statement (.pop d) := fun _ syms => by
  have h : EndsTokens (encode (.pop d)) (.word (ascii "POP") :: dstTokens d) :=
    (tok_mnemonic (isLexeme_name (mnemonic_isLexeme (ascii "POP") (by simp)))).append_ends (tok_dst d)
  rw [decode_of_tokens syms h]
  refine instrOf_statement (m := ascii "POP") (ops := dstTokens d) (i := .pop d) ?_ ?_ rfl
  · cases d with
    | mem o => rcases o with ⟨r, m⟩; cases m <;> simp [dstTokens, memTokens]
    | reg r => simp [dstTokens]
    | direct f => simp [dstTokens]
  · rw [splitCommas_noComma (noComma_dst d)]
    have : statementOf syms (ascii "POP") [dstTokens d] = some (popStatement syms [dstTokens d]) := by
      unfold statementOf
      rw [if_neg (by decide), if_neg (by decide), if_neg (by decide), if_neg (by decide), if_neg (by decide),
        if_neg (by decide), if_pos (by decide)]
    rw [this, popStatement, operandOf_dstTokens]; rfl

theorem returnCall : Statement .returnCall := fun _ syms => by
  rw [show encode .returnCall = ascii "RETURN" from rfl,
    decode_of_tokens syms (isLexeme_name (mnemonic_isLexeme (ascii "RETURN") (by simp))).endsTokens]
  rfl

theorem retfie : Statement .retfie := fun _ syms => by
  rw [show encode .retfie = ascii "RETFIE" from rfl,
    decode_of_tokens syms (isLexeme_name (mnemonic_isLexeme (ascii "RETFIE") (by simp))).endsTokens]
  rfl

theorem retlw (n : Nat) (d : Reg) : Statement (.retlw n d) := fun _ syms => by
  have h := tok_numberThen (ascii "RETLW") (mnemonic_isLexeme _ (by simp)) n (tok_reg d)
  have e : ascii "RETLW #" = ascii "RETLW" ++ [32#8] ++ ascii "#" := by decide
  have e₂ : ∀ g, statementOf syms (ascii "RETLW") g = some (retlwStatement g) := fun g => by
    unfold statementOf
    rw [if_neg (by decide), if_neg (by decide), if_neg (by decide), if_neg (by decide), if_neg (by decide),
      if_neg (by decide), if_neg (by decide), if_neg (by decide), if_neg (by decide), if_pos (by decide)]
  rw [encode, e, decode_of_tokens syms h]
  simp only [List.cons_append, List.nil_append]
  refine instrOf_statement (by simp) ?_ rfl
  rw [show splitCommas [.hash, .num n, .comma, .word (regName d)] = [[.hash, .num n], [.word (regName d)]] from rfl, e₂]
  simp [retlwStatement]

theorem ulnk : Statement .ulnk := fun _ syms => by
  rw [show encode .ulnk = ascii "ULNK" from rfl,
    decode_of_tokens syms (isLexeme_name (mnemonic_isLexeme (ascii "ULNK") (by simp))).endsTokens]
  rfl

end Sys2Proof.Laws.RoundTrip
end

