-- ==== Sys2Proof/Tests/Slice0.lean ====
section
/-!
SUPPORT. Tests of the model: ill-formed terms the well-formedness check refuses, statements written out from the spec's
syntax and examples and read by the decoder, single steps whose results are the spec's test vectors (95_test_vectors.md,
named V… as there), and for every obligation with hypotheses a concrete witness that meets them.
-/
set_option Elab.async false

namespace Sys2Proof.Tests

open Sys2Proof Sys2Proof.Machine

/-! ### Small states -/

/-- Registers of the reset state set. -/
def withRegs (s : State) (l : List (Reg × Word)) : State := l.foldl (fun t p => t.setW p.1 p.2) s

/-- Words of RAM written. -/
def withWords (s : State) (l : List (Nat × Word)) : State := l.foldl (fun t p => t.setWord p.1 p.2) s

/-- The reset state with registers and words of RAM set. -/
def at0 (regs : List (Reg × Word)) (words : List (Nat × Word)) : State := withWords (withRegs State.reset regs) words

/-- X modulo addressing through W1 in the buffer from 0x1100 to 0x1163 (V20). -/
def inModulo (regs : List (Reg × Word)) (words : List (Nat × Word)) : State :=
  { at0 regs words with modcon := 0x8FF1, xmodsrt := 0x1100, xmodend := 0x1163 }

/-- Bit-reversed addressing through W1 with the modifier 0x0008 (B5). -/
def inReversal (regs : List (Reg × Word)) (words : List (Nat × Word)) : State :=
  { at0 regs words with modcon := 0x01FF, xbrev := 0x8008 }

/-- The example device with program memory visible in its upper half. -/
def psvDev : Dev := { Config.exampleDev with regions := Config.exampleDev.regions ++ [⟨0x8000, 0xFFFF, .psv, .x⟩] }

/-- The same device with a behaviour of its own for SfrRead, SfrWrite and PsvRead. -/
def openDev : Dev := { psvDev with sfrRead := .given, sfrWrite := .given, psvRead := .given }

/-- What a step answered. -/
def regAfter (r : StepResult) (n : Reg) : Option Word :=
  match r with
  | .next t => some (t.getW n)
  | .fault _ => none
  | .refused _ => none

/-- The word of RAM after a step. -/
def wordAfter (r : StepResult) (a : Nat) : Option Word :=
  match r with
  | .next t =>
    match Memory.read t.mem (a + 1), Memory.read t.mem a with
    | some hi, some lo => some (hi ++ lo)
    | _, _ => none
  | .fault _ => none
  | .refused _ => none

/-- The control register after a step. -/
def ctrlAfter (r : StepResult) (k : CtrlReg) : Option Word :=
  match r with
  | .next t => some (t.readCtrl k)
  | .fault _ => none
  | .refused _ => none

/-- The fault record after a step. -/
def recordAfter (r : StepResult) : Option AddressErrorCause :=
  match r with
  | .next t => t.faultRecord
  | .fault _ => none
  | .refused _ => none

/-- The fault a step answers with, if it does. -/
def faultOf (r : StepResult) : Option Fault :=
  match r with
  | .next _ => none
  | .fault f => some f
  | .refused _ => none

/-- The refusal a step answers with, if it does. -/
def refusalOf (r : StepResult) : Option Refusal :=
  match r with
  | .next _ => none
  | .fault _ => none
  | .refused q => some q

/-- The state a step answers with, if it does. -/
def nextOf (r : StepResult) : Option State :=
  match r with
  | .next t => some t
  | .fault _ => none
  | .refused _ => none

/-- The latch holds MODCON. -/
def afterModconWrite (s : State) : State := { s with hz := HazardLatch.empty.add .modcon }

/-- The reset state with the latch at a register. -/
def afterWriteOf (k : CtrlReg) (s : State) : State := { s with hz := HazardLatch.empty.add k }

/-! ### Ill-formed terms -/

theorem test_illFormed_shownForm : (Instr.movGeneral .word (.mem ⟨1, .indirect⟩) (.reg 2)).wellFormed = false := by decide

/-- R86: the six shown forms have rows of their own; every other combination of words is the general MOV's. -/
theorem test_wellFormed_general : (Instr.movGeneral .word (.lit 5) (.reg 2)).wellFormed = false ∧
    (Instr.movGeneral .word (.reg 1) (.direct 0x0900)).wellFormed = false ∧
    (Instr.movGeneral .word (.direct 0x0900) (.reg 2)).wellFormed = true ∧
    (Instr.movGeneral .word (.lit 5) (.mem ⟨1, .indirect⟩)).wellFormed = true := by decide

theorem test_illFormed_byteRegister : (Instr.movGeneral .byte (.reg 1) (.mem ⟨2, .indirect⟩)).wellFormed = false := by
  decide

theorem test_illFormed_macOdd : (Instr.macPrefetchWb 4 5 .w8 1 4 .w10 2 5 2).wellFormed = false ∧
    (Instr.macPrefetchWb 4 5 .w8 2 4 .w10 3 5 2).wellFormed = false ∧
    (Instr.macPrefetchWb 4 5 .w8 2 4 .w10 2 5 (-1)).wellFormed = false := by decide

theorem test_illFormed_label : (Instr.doLitLabel 49 (ascii "9L")).wellFormed = false ∧
    (Instr.doLitLabel 49 []).wellFormed = false := by decide

/-! ### Statements written out (R83 to R85, 95_test_vectors part A) -/

/-- Decoding with the example device's names (R41). -/
def read (t : String) : Except DecodeError Instr := decode Config.exampleDev.symbols (ascii t)

theorem test_decode_movLitW : read "MOV #0x8FF4, w0     ;Initialize MODCON" = .ok (.movLitW 0x8FF4 0) := by decide +kernel

theorem test_decode_movLitW_close : read "MOV #0x01FF,W0" = .ok (.movLitW 0x01FF 0) := by decide +kernel

theorem test_decode_movWF : read "MOV w0, MODCON" = .ok (.movWF 0 0x0046) := by decide +kernel

theorem test_decode_movWF_xbrev : read "MOV W0,XBREV" = .ok (.movWF 0 0x0050) := by decide +kernel

theorem test_decode_movIndW : read "MOV [w1], w2        ;Incorrect EA generated here" = .ok (.movIndW 1 2) := by decide +kernel

theorem test_decode_movPostincW : read "MOV [w4++], w5" = .ok (.movPostincW 4 5) := by decide +kernel

theorem test_decode_movWPostinc : read "FILL: MOV W0,[W1++]" = .ok (.movWPostinc 0 1) := by decide +kernel

theorem test_decode_movPostincPostinc : read "MOV [W0++],[W1++]" = .ok (.movPostincPostinc 0 1) := by decide +kernel

theorem test_decode_movGeneral_dec : read "MOV W0, [W1--]" = .ok (.movGeneral .word (.reg 0) (.mem ⟨1, .postDec⟩)) := by
  decide +kernel

theorem test_decode_movGeneral_byte :
    read "MOV.B [++W1], [W2]" = .ok (.movGeneral .byte (.mem ⟨1, .preInc⟩) (.mem ⟨2, .indirect⟩)) := by decide +kernel

theorem test_decode_movGeneral_indexed :
    read "MOV [W1+W12], [--W15]" = .ok (.movGeneral .word (.mem ⟨1, .indexed 12⟩) (.mem ⟨15, .preDec⟩)) := by decide +kernel

theorem test_decode_movGeneral_offset :
    read "MOV [W1 + 100], W3" = .ok (.movGeneral .word (.mem ⟨1, .offset 100⟩) (.reg 3)) := by decide +kernel

theorem test_decode_nop : read "NOP                 ;See Note below" = .ok .nop := by decide +kernel

theorem test_decode_repeatLit : read "REPEAT #15" = .ok (.repeatLit 15) := by decide +kernel

theorem test_decode_doLitLabel : read "DO #49, FILL" = .ok (.doLitLabel 49 (ascii "FILL")) := by decide +kernel

theorem test_decode_mac : read "MAC W4*W5, A, [W8]+=2, W4, [W10]+=2, W5, [W13]+=2" =
    .ok (.macPrefetchWb 4 5 .w8 2 4 .w10 2 5 2) := by decide +kernel

theorem test_decode_pop : read "POP MODCON" = .ok (.pop (.direct 0x0046)) := by decide +kernel

theorem test_decode_returns : read "RETURN" = .ok .returnCall ∧ read "RETFIE" = .ok .retfie ∧
    read "RETLW #3, W0" = .ok (.retlw 3 0) ∧ read "ULNK" = .ok .ulnk := by decide +kernel

/-- V45. -/
theorem test_decode_unknownMnemonic : read "ADD W0, W1, W2" = .error .unknownMnemonic := by decide +kernel

/-- R45: W10 is no X prefetch pointer. -/
theorem test_decode_macPointer :
    read "MAC W4*W5, A, [W10]+=2, W4, [W10]+=2, W5, [W13]+=2" = .error .badOperands := by decide +kernel

/-- R86, R187: the combinations of the forms of R83 that D0 shows no statement of. -/
theorem test_decode_directSource : read "MOV MODCON, W0" = .ok (.movGeneral .word (.direct 0x0046) (.reg 0)) ∧
    read "MOV 0x0900, 0x0A00" = .ok (.movGeneral .word (.direct 0x0900) (.direct 0x0A00)) ∧
    read "MOV #5, [W1++]" = .ok (.movGeneral .word (.lit 5) (.mem ⟨1, .postInc⟩)) := by decide +kernel

/-- D27: a byte MOV with a register operand is no form. -/
theorem test_decode_byteRegister : read "MOV.B W0, [W1]" = .error .formNotAdmitted := by decide +kernel

/-! ### Control registers and memory (B1, B2) -/

/-- V7, V8. -/
theorem test_select_predicates : ({ State.reset with modcon := 0x8FF4 } : State).xModSel 4 = true ∧
    ({ State.reset with modcon := 0x8FF4 } : State).xModSel 5 = false ∧
    ({ State.reset with modcon := 0x8FF4 } : State).yModSel 15 = false ∧
    ({ State.reset with modcon := 0x8FFF } : State).xModSel 15 = false := by decide +kernel

/-- V9. -/
theorem test_bitRevSel_afterReset : ({ State.reset with xbrev := 0x8008 } : State).bitRevSel 0 = true ∧
    ({ State.reset with xbrev := 0x8008 } : State).bitRevSel 1 = false := by decide +kernel

/-- V6: a byte write to the upper half of MODCON. -/
theorem test_byteWrite_modcon :
    ctrlAfter (memWrite { State.reset with modcon := 0x0FF4 } 0x0047 .byte 0x8F) .modcon = some 0x8FF4 := by
  decide +kernel

/-- The value a read delivers. -/
def delivered (r : Result Word) : Option Word :=
  match r with
  | .next p => some p.1
  | .fault _ => none
  | .refused _ => none

/-- The fault record a read leaves. -/
def recordOf (r : Result Word) : Option AddressErrorCause :=
  match r with
  | .next p => p.2.faultRecord
  | .fault _ => none
  | .refused _ => none

/-- The pointer register an operand leaves. -/
def pointerAfter (r : Result Word) (n : Reg) : Option Word :=
  match r with
  | .next p => some (p.2.getW n)
  | .fault _ => none
  | .refused _ => none

/-- V11, V13. -/
theorem test_memRead : delivered (memRead (at0 [] [(0x0900, 0xBEEF)]) 0x0900 .word) = some 0xBEEF ∧
    delivered (memRead (at0 [] [(0x0900, 0xBEEF)]) 0x0900 .byte) = some 0x00EF ∧
    delivered (memRead (at0 [] [(0x0900, 0xBEEF)]) 0x0901 .byte) = some 0x00BE ∧
    delivered (memRead (at0 [] [(0x0900, 0xBEEF)]) 0x0901 .word) = some 0xBEEF ∧
    recordOf (memRead (at0 [] [(0x0900, 0xBEEF)]) 0x0901 .word) = some .misalignedRead := by decide +kernel

/-- V12, V14. -/
theorem test_memWrite : wordAfter (memWrite (at0 [] [(0x0900, 0xBEEF)]) 0x0901 .byte 0x12) 0x0900 = some 0x12EF ∧
    wordAfter (memWrite (at0 [] [(0x0900, 0xBEEF)]) 0x0901 .word 0x1234) 0x0900 = some 0xBEEF ∧
    recordAfter (memWrite (at0 [] [(0x0900, 0xBEEF)]) 0x0901 .word 0x1234) = some .misalignedWrite := by decide +kernel

/-- V15, V16. -/
theorem test_unimplemented : delivered (memRead State.reset 0x8000 .word) = some 0 ∧
    recordOf (memRead State.reset 0x8000 .word) = some .unimplementedRead ∧
    recordAfter (memWrite State.reset 0x8000 .word 0x1234) = some .unimplementedWrite := by decide +kernel

/-- V17, V18, V19. -/
theorem test_splitView : delivered (memRead (at0 [] [(0x4800, 0x2222)]) 0x4800 .word) = some 0x2222 ∧
    delivered (memReadX (at0 [] [(0x4800, 0x2222)]) 0x4800) = some 0 ∧
    delivered (memReadY (at0 [] [(0x4800, 0x2222)]) 0x4800) = some 0x2222 ∧
    delivered (memReadX (at0 [] [(0x0900, 0x1111)]) 0x0900) = some 0x1111 ∧
    delivered (memReadY (at0 [] [(0x0900, 0x1111)]) 0x0900) = some 0 ∧
    delivered (memReadY State.reset 0x0046) = some 0 ∧ recordOf (memReadY State.reset 0x0046) = none ∧
    recordOf (memReadY State.reset 0x4801) = some .misalignedRead := by decide +kernel

/-- V74, D31. -/
theorem test_unwritten_read : faultOf (exec (.movIndW 1 2) (at0 [(1, 0x0900)] [])) = some .unwrittenRead := by decide +kernel

/-! ### Addressing (B3, B4, B5) -/

/-- VA4, VA6, VA7, VA9. -/
theorem test_linear : delivered (operand (at0 [(4, 0x1200)] []) .xRagu (.mcu .preInc) 4 .word) = some 0x1202 ∧
    delivered (operand (at0 [(4, 0x1200), (5, 0xFFFE)] []) .xRagu (.mcu (.indexed 5)) 4 .word) = some 0x11FE ∧
    delivered (operand (at0 [(4, 0x1200)] []) .xRagu (.mcu (.offset 6)) 4 .word) = some 0x1206 ∧
    pointerAfter (operand (at0 [(4, 0x1200)] []) .xRagu (.mcu .preInc) 4 .byte) 4 = some 0x1201 := by decide +kernel

/-- V20 step 5, V23a, V23b, V23f. -/
theorem test_modulo_up : delivered (operand (inModulo [(1, 0x1162)] []) .xRagu (.mcu .preInc) 1 .word) = some 0x1100 ∧
    delivered (operand (inModulo [(1, 0x1160)] []) .xRagu (.mcu (.offset 8)) 1 .word) = some 0x1104 ∧
    delivered (operand (inModulo [(1, 0x1162)] []) .xRagu (.mcu (.offset 100)) 1 .word) = some 0x1162 ∧
    delivered (operand (inModulo [(1, 0x1200)] []) .xRagu (.mcu .indirect) 1 .word) = some 0x1200 := by decide +kernel

/-- V22c, V23c, V23d, V23e, V28. -/
theorem test_modulo_refused : modAdjust 0x1140 0x11A3 0x1140 2 = .error .moduloStartNotOnZeros ∧
    modAdjust 0x1100 0x1163 0x1162 102 = .error .moduloJumpTooLong ∧
    modAdjust 0x1100 0x1163 0x1110 (-4) = .error .moduloEndNotOnOnes ∧
    modAdjust 0x1100 0x1163 0x1200 2 = .error .moduloPointerOutside ∧
    modAdjust 0x1100 0x10FF 0x1100 2 = .error .moduloEndBelowStart := by decide +kernel

/-- V21 step 2, V22b, V24a, V24b, V25, V26, V27. -/
theorem test_modulo_adjust : modAdjust 0x11D0 0x11FF 0x11D0 (-2) = .ok 0x11FE ∧
    modAdjust 0x119C 0x11FF 0x119C (-2) = .ok 0x11FE ∧ modAdjust 0x1200 0x12FF 0x12FE 2 = .ok 0x1200 ∧
    modAdjust 0x1200 0x12FF 0x1200 (-2) = .ok 0x12FE ∧ modAdjust 0x0900 0x0909 0x0909 1 = .ok 0x0900 ∧
    modAdjust 0x1000 0x1001 0x1000 2 = .ok 0x1000 ∧ modAdjust 0x0000 0xFFFF 0xFFFE 2 = .ok 0x0000 := by
  decide +kernel

/-- V29c: Y modulo addressing of a Y prefetch. -/
theorem test_modulo_y : pointerAfter (operandY { at0 [(10, 0x4802)] [] with
    modcon := 0x4FAF, ymodsrt := 0x4800, ymodend := 0x4803 } 2 10) 10 = some 0x4800 := by decide +kernel

/-- V30, V33, V35, V35b. -/
theorem test_reverse_carry : revCarrySum 0x0014 0x0008 = 0x000C ∧ revCarrySum 0xC000 0x4000 = 0x2000 ∧
    revCarrySum 0xABC0 0x0008 = 0xABD0 ∧ revCarrySum 0x095E 0x0008 = 0x0940 := by decide +kernel

/-- V34, V36a. -/
theorem test_bitReversed_operand :
    delivered (operand (inReversal [(1, 0x0940)] []) .xWagu (.mcu .preInc) 1 .word) = some 0x0950 ∧
    pointerAfter (operand (inReversal [(1, 0x0940)] []) .xWagu (.mcu .postInc) 1 .byte) 1 = some 0x0941 := by
  decide +kernel

/-! ### Single steps (B6) -/

/-- V40. -/
theorem test_movLitW : regAfter (exec (.movLitW 0x12FF 0) State.reset) 0 = some 0x12FF := by decide +kernel

/-- V1, V2, V3. -/
theorem test_movWF_controls : ctrlAfter (exec (.movWF 0 0x0046) (at0 [(0, 0xFFFF)] [])) .modcon = some 0xCFFF ∧
    ctrlAfter (exec (.movWF 4 0x0048) (at0 [(4, 0x1201)] [])) .xmodsrt = some 0x1200 ∧
    ctrlAfter (exec (.movWF 0 0x004A) (at0 [(0, 0x12FE)] [])) .xmodend = some 0x12FF := by decide +kernel

/-- R50, R182. -/
theorem test_movWF_ram : wordAfter (exec (.movWF 0 0x0900) (at0 [(0, 0xBEEF)] [])) 0x0900 = some 0xBEEF := by
  decide +kernel

/-- V41. -/
theorem test_movIndW : regAfter (exec (.movIndW 1 2) (at0 [(1, 0x0900)] [(0x0900, 0xBEEF)])) 2 = some 0xBEEF := by
  decide +kernel

/-- P5. -/
theorem test_movIndW_misaligned :
    regAfter (exec (.movIndW 1 2) (at0 [(1, 0x0901)] [(0x0900, 0xBEEF)])) 2 = some 0xBEEF ∧
    recordAfter (exec (.movIndW 1 2) (at0 [(1, 0x0901)] [(0x0900, 0xBEEF)])) = some .misalignedRead := by decide +kernel

/-- V20 step 3 as a load. -/
theorem test_movPostincW : regAfter (exec (.movPostincW 1 2) (inModulo [(1, 0x1162)] [(0x1162, 7)])) 1 = some 0x1100 := by
  decide +kernel

/-- V29b: Y modulo addressing does not act on an MCU access. -/
theorem test_movPostincW_y : regAfter (exec (.movPostincW 10 0) { at0 [(10, 0x4802)] [(0x4802, 7)] with
    modcon := 0x4FAF, ymodsrt := 0x4800, ymodend := 0x4803 }) 10 = some 0x4804 := by decide +kernel

/-- V31 and P1: bit-reversed and modulo stores. -/
theorem test_movWPostinc : regAfter (exec (.movWPostinc 0 1) (inReversal [(1, 0x0950)] [])) 1 = some 0x0948 ∧
    regAfter (exec (.movWPostinc 0 1) (inModulo [(1, 0x1162)] [])) 1 = some 0x1100 := by decide +kernel

/-- P5's variant. -/
theorem test_movWPostinc_misaligned :
    recordAfter (exec (.movWPostinc 0 1) (at0 [(1, 0x0901)] [(0x0900, 0xBEEF)])) = some .misalignedWrite ∧
    wordAfter (exec (.movWPostinc 0 1) (at0 [(1, 0x0901)] [(0x0900, 0xBEEF)])) 0x0900 = some 0xBEEF := by decide +kernel

/-- P3, execution 1. -/
theorem test_movPostincPostinc :
    wordAfter (exec (.movPostincPostinc 0 1) (inReversal [(0, 0x0902), (1, 0x0950)] [(0x0902, 0x1001)])) 0x0950 =
      some 0x1001 ∧
    regAfter (exec (.movPostincPostinc 0 1) (inReversal [(0, 0x0902), (1, 0x0950)] [(0x0902, 0x1001)])) 0 =
      some 0x0904 ∧
    regAfter (exec (.movPostincPostinc 0 1) (inReversal [(0, 0x0902), (1, 0x0950)] [(0x0902, 0x1001)])) 1 =
      some 0x0948 := by decide +kernel

/-- V44. -/
theorem test_movPostincPostinc_conflict :
    refusalOf (exec (.movPostincPostinc 1 1) (at0 [(1, 0x0900)] [])) = some .registerConflict := by decide +kernel

/-- P2, statement 9 at the start of the buffer. -/
theorem test_movGeneral_postDec :
    regAfter (exec (.movGeneral .word (.reg 0) (.mem ⟨1, .postDec⟩)) { at0 [(1, 0x11D0)] [] with
      modcon := 0x8FF1, xmodsrt := 0x11D0, xmodend := 0x11FF }) 1 = some 0x11FE := by decide +kernel

/-- V63, its first execution: the word copied to MODCON through an indirect write is what MODCON holds. -/
theorem test_movGeneral_control :
    ctrlAfter (exec (.movGeneral .word (.mem ⟨2, .postInc⟩) (.mem ⟨3, .indirect⟩))
      (at0 [(2, 0x0900), (3, 0x0046)] [(0x0900, 0x0FFF)])) .modcon = some 0x0FFF ∧
    regAfter (exec (.movGeneral .word (.mem ⟨2, .postInc⟩) (.mem ⟨3, .indirect⟩))
      (at0 [(2, 0x0900), (3, 0x0046)] [(0x0900, 0x0FFF)])) 2 = some 0x0902 := by decide +kernel

/-- R52, R187: a byte is copied, its neighbour kept. -/
theorem test_movGeneral_byte :
    wordAfter (exec (.movGeneral .byte (.mem ⟨1, .postInc⟩) (.mem ⟨2, .indirect⟩))
      (at0 [(1, 0x0901), (2, 0x0A00)] [(0x0900, 0xBEEF), (0x0A00, 0x1234)])) 0x0A00 = some 0x12BE ∧
    regAfter (exec (.movGeneral .byte (.mem ⟨1, .postInc⟩) (.mem ⟨2, .indirect⟩))
      (at0 [(1, 0x0901), (2, 0x0A00)] [(0x0900, 0xBEEF), (0x0A00, 0x1234)])) 1 = some 0x0902 := by decide +kernel

/-- R187: a word is read from one absolute address and written to another. -/
theorem test_movGeneral_direct :
    wordAfter (exec (.movGeneral .word (.direct 0x0900) (.direct 0x0A00)) (at0 [] [(0x0900, 0xBEEF)])) 0x0A00 =
      some 0xBEEF ∧
    ctrlAfter (exec (.movGeneral .word (.lit 0x8008) (.direct 0x0050)) State.reset) .xbrev = some 0x8008 := by
  decide +kernel

/-- R70, D16: a burst between the read and the write of one MOV in DMA RAM: the word read before it is the one written,
and it overwrites the burst's byte. -/
theorem test_dmaBetween :
    wordAfter (exec (.movGeneral .word (.direct 0x7800) (.direct 0x7900))
      { at0 [] [(0x7800, 0xBEEF)] with dma := [[⟨0x7800, 1⟩, ⟨0x7900, 2⟩]] }) 0x7900 = some 0xBEEF ∧
    wordAfter (exec (.movGeneral .word (.direct 0x7800) (.direct 0x7900))
      { at0 [] [(0x7800, 0xBEEF)] with dma := [[⟨0x7800, 1⟩, ⟨0x7900, 2⟩]] }) 0x7800 = some 0xBE01 := by decide +kernel

/-- R41, R47: a device that gives SfrRead, SfrWrite and PsvRead a behaviour lets the accesses complete. -/
theorem test_openParameters :
    (nextOf (exec (.movWF 0 0x0100) { State.reset with dev := openDev })).isSome = true ∧
    (nextOf (exec (.movGeneral .word (.direct 0x0100) (.reg 0)) { State.reset with dev := openDev })).isSome = true ∧
    (nextOf (exec (.movGeneral .word (.direct 0x8000) (.reg 0)) { State.reset with dev := openDev })).isSome = true ∧
    refusalOf (exec (.movWF 0 0x0100) State.reset) = some .otherSfr ∧
    refusalOf (exec (.movWF 0 0x8000) { State.reset with dev := openDev }) = some .psvWrite := by decide +kernel

/-- V51: NOP empties the latch. -/
theorem test_nop : nextOf (exec .nop (afterModconWrite State.reset)) = some State.reset.start.advance := by decide +kernel

/-- V42's first statement. -/
theorem test_repeatLit : nextOf (exec (.repeatLit 3) State.reset) = some { State.reset.start with rc := 3, pc := 1 } := by
  decide +kernel

/-- R191. -/
theorem test_doLitLabel : refusalOf (exec (.doLitLabel 49 (ascii "FILL")) State.reset) = some .doNotDescribed := by
  decide +kernel

/-- V47, but for the write-back word, which is open. -/
theorem test_mac_splitView :
    [4, 5, 8, 10, 13].map (regAfter (exec (.macPrefetchWb 4 5 .w8 2 4 .w10 2 5 2)
      (at0 [(8, 0x4800), (10, 0x0900), (13, 0x0A00)] [(0x4800, 1), (0x0900, 2)]))) =
      [some 0, some 0, some 0x4802, some 0x0902, some 0x0A02] := by decide +kernel

/-- V48. -/
theorem test_mac_unimplemented :
    recordAfter (exec (.macPrefetchWb 4 5 .w8 2 4 .w10 2 5 2)
      (at0 [(8, 0x8000), (10, 0x0900), (13, 0x0A00)] [(0x0900, 2)])) = some .unimplementedRead := by decide +kernel

/-- V46, V64 and the rest of R200 to R204. -/
theorem test_implicit_reads : refusalOf (exec (.pop (.direct 0x0046)) State.reset) = some .popNotDescribed ∧
    refusalOf (exec .returnCall State.reset) = some .returnNotDescribed ∧ refusalOf (exec .retfie State.reset) = some .retfieNotDescribed ∧
    refusalOf (exec (.retlw 3 0) State.reset) = some .retlwNotDescribed ∧ refusalOf (exec .ulnk State.reset) = some .ulnkNotDescribed ∧
    faultOf (exec .returnCall (afterModconWrite State.reset)) = some .hazardViolated := by decide +kernel

/-! ### Hazards (B7) -/

/-- V50, V52, V57, V61. -/
theorem test_hazards : faultOf (exec (.movIndW 1 2) (afterModconWrite State.reset)) = some .hazardViolated ∧
    faultOf (exec (.movPostincW 4 5) (afterWriteOf .xmodend { at0 [] [] with modcon := 0x8FF4 })) = some .hazardViolated ∧
    faultOf (exec (.movIndW 1 2) (afterWriteOf .xbrev { inReversal [] [] with hzOldXbrev := 0x8008 })) = some .hazardViolated ∧
    faultOf (exec (.macPrefetchWb 4 5 .w8 2 4 .w10 2 5 2) (afterModconWrite State.reset)) = some .hazardViolated := by
  decide +kernel

/-- V54, V55, V56, V58, V59. -/
theorem test_noHazards : hazardViolated (afterWriteOf .xmodsrt State.reset) (.through [4]) = false ∧
    hazardViolated (afterWriteOf .xmodend { State.reset with modcon := 0x8FF4 }) (.through [1]) = false ∧
    hazardViolated (afterWriteOf .ymodend { State.reset with modcon := 0x8FF4 }) (.through [4]) = false ∧
    hazardViolated (afterWriteOf .xbrev { inReversal [] [] with hzOldXbrev := 0x8008 }) (.through [0]) = false ∧
    hazardViolated (afterWriteOf .xbrev { inReversal [] [] with hzOldXbrev := 0x0008 }) (.through [1]) = false := by
  decide +kernel

/-! ### The step -/

/-- A statement placed where the next step fetches is fetched and executed. -/
theorem test_step : (match step { State.reset with program := [ascii "MOV #0x12FF, w0"] } with
    | .next t => some (t.getW 0, t.pc)
    | .fault _ => none
    | .refused _ => none) = some (0x12FF, 1) := by decide +kernel

/-- The word of the text `NOP` placed for the next step. -/
theorem test_withFetchWord : fetch (State.reset.withFetchWord 24 0x504F4E) = .ok .nop := by decide +kernel

/-- The step after an address error faults. -/
theorem test_step_afterError :
    faultOf (step (State.reset.raise .misalignedWrite)) = some (.addressError .misalignedWrite) := by decide +kernel

/-- The DMA controller's byte reaches DMA RAM and no other (R70). -/
theorem test_dmaTurn : ({ State.reset with dma := [[⟨0x7800, 5⟩, ⟨0x0900, 6⟩]] } : State).dmaTurn.mem = [(0x7800, 5)] := by
  decide +kernel

/-! ### Witnesses: for every obligation with hypotheses, states and operands that meet them -/

/-- A device with nothing but X RAM where the example device has Y RAM and DMA RAM. -/
def flatDev : Dev :=
  { Config.exampleDev with
    regions := [⟨0x0800, 0x47FF, .ram, .x⟩, ⟨0x4800, 0x77FF, .ram, .x⟩, ⟨0x7800, 0x7FFF, .dpsram, .x⟩] }

/-- A state whose pointers lie in X RAM, Y RAM and X RAM, with a word written at each. -/
def macState : State := at0 [(8, 0x0900), (10, 0x4800), (13, 0x0A00)] [(0x0900, 0x1111), (0x4800, 0x2222)]

/-- The reset state with one statement. -/
def holding (t : String) : State := { State.reset with program := [ascii t] }

theorem witness_AfterResetModifiers : AfterReset { withRegs State.reset [(3, 0x1234)] with xbrev := 0x8008 } where
  modconZero := by decide +kernel
  ctrlFixed := by intro r; cases r <;> decide +kernel
  ramUnwritten := by decide +kernel
  latchEmpty := by decide +kernel
  notRepeating := by decide +kernel
  noFault := by decide +kernel
  firstStatement := by decide +kernel

theorem witness_ControlRegisterAccess : fixedBit .modcon 12 = some false ∧ fixedBit .ymodend 0 = some true ∧
    fixedBit .modcon 11 = none ∧ fixedBit .xbrev 15 = none ∧
    (∀ i, fixedBit .xmodsrt i = none → (0x1201 : Word).getLsbD i = (0x1200 : Word).getLsbD i) ∧
    CtrlReg.xmodend ≠ CtrlReg.xmodsrt := by
  refine ⟨rfl, rfl, rfl, rfl, fun i h => ?_, by decide⟩
  by_cases hi : i < 16
  · have : ∀ i : Fin 16, i.val ≠ 0 → (0x1201 : Word).getLsbD i.val = (0x1200 : Word).getLsbD i.val := by decide
    refine this ⟨i, hi⟩ ?_
    rintro rfl
    simp [fixedBit] at h
  · rw [BitVec.getLsbD_of_ge _ _ (by omega), BitVec.getLsbD_of_ge _ _ (by omega)]

theorem witness_WordsAreLittleEndian : RamWritable Config.exampleDev 0x0800 ∧ RamWritable Config.exampleDev 0x7FFE ∧
    Memory.read (at0 [] [(0x0800, 0xBEEF)]).mem 0x0800 = some 0xEF ∧
    Memory.read (at0 [] [(0x0800, 0xBEEF)]).mem 0x0801 = some 0xBE := by decide +kernel

theorem witness_BytesAreAddressed : isRam Config.exampleDev (wordAddr 0x0801).toNat = true ∧
    Memory.read (at0 [] [(0x0800, 0xBEEF)]).mem 0x0801 = some 0xBE := by decide +kernel

theorem witness_MisalignedWordAccess : isOdd 0x0901 = true ∧
    WordDelivers (at0 [] [(0x0900, 0xBEEF)]) (wordAddr 0x0901) 0xBEEF ∧ WordDelivers State.reset (wordAddr 0x0047) 0 ∧
    XDelivers macState (wordAddr 0x0901) 0x1111 ∧ YDelivers macState (wordAddr 0x4801) 0x2222 ∧
    (at0 [] [(0x0900, 0xBEEF)]).faultRecord = none :=
  ⟨by decide +kernel, .inl (by decide +kernel), .inr ⟨by decide +kernel, .modcon, by decide +kernel, by decide +kernel⟩,
    ⟨by decide +kernel, .inr (.inl (by decide +kernel))⟩, ⟨by decide +kernel, .inr (.inr (by decide +kernel))⟩,
    by decide +kernel⟩

theorem witness_UnimplementedAccess : Config.exampleDev.kind (wordAddr 0x8000).toNat = .absent ∧ isOdd 0x8000 = false ∧
    Config.exampleDev.kind (wordAddr 0xFFFF).toNat = .absent := by decide +kernel

theorem witness_ControlRegistersInSfrSpace : Config.exampleDev.wf = true ∧ openDev.wf = true ∧
    Config.exampleDev.kind (wordAddr 0x07FF).toNat = .sfr ∧ (∀ r, Config.exampleDev.addrOf r ≠ wordAddr 0x07FF) ∧
    isOdd 0x07FE = false ∧ Config.exampleDev.sfrRead = .refuse ∧ Config.exampleDev.sfrWrite = .refuse ∧
    openDev.kind (wordAddr 0x07FF).toNat = .sfr ∧ (∀ r, openDev.addrOf r ≠ wordAddr 0x07FF) ∧
    openDev.sfrRead = .given ∧ openDev.sfrWrite = .given := by
  refine ⟨by decide +kernel, by decide +kernel, by decide +kernel, fun r => ?_, by decide +kernel, by decide +kernel,
    by decide +kernel, by decide +kernel, fun r => ?_, by decide +kernel, by decide +kernel⟩ <;> cases r <;> decide +kernel

theorem witness_SplitView : XDelivers macState 0x4800 0 ∧ XDelivers macState 0x0900 0x1111 ∧
    XDelivers macState 0x0046 0 ∧ YDelivers macState 0x0900 0 ∧ YDelivers macState 0x0046 0 ∧
    YDelivers macState 0x4800 0x2222 :=
  ⟨⟨by decide +kernel, .inl (by decide +kernel)⟩, ⟨by decide +kernel, .inr (.inl (by decide +kernel))⟩,
    ⟨by decide +kernel, .inr (.inr ⟨by decide +kernel, .modcon, by decide +kernel, by decide +kernel⟩)⟩,
    ⟨by decide +kernel, .inl (by decide +kernel)⟩, ⟨by decide +kernel, .inr (.inl (by decide +kernel))⟩,
    ⟨by decide +kernel, .inr (.inr (by decide +kernel))⟩⟩

theorem witness_PsvAccess : psvDev.wf = true ∧ openDev.wf = true ∧ isOdd 0x8000 = false ∧ isOdd 0xFFFF = true ∧
    psvDev.kind (wordAddr 0x8000).toNat = .psv ∧ psvDev.kind (wordAddr 0xFFFF).toNat = .psv ∧
    openDev.kind (wordAddr 0x8000).toNat = .psv ∧ openDev.kind (wordAddr 0xFFFF).toNat = .psv ∧
    psvDev.psvRead = .refuse ∧ openDev.psvRead = .given := by decide +kernel

theorem witness_CombinedViewIgnoresPartition : SameButPartition Config.exampleDev flatDev ∧
    Config.exampleDev.space 0x4800 ≠ flatDev.space 0x4800 ∧
    ∀ m n x kx xd y ky yd kw, Instr.movIndW 1 2 ≠ .macPrefetchWb m n x kx xd y ky yd kw := by
  refine ⟨⟨fun a => ?_, fun r => by cases r <;> rfl, rfl, rfl, rfl, rfl⟩, by decide +kernel, nofun⟩
  simp only [Dev.kind, Dev.regionAt, flatDev, Config.exampleDev, List.find?_cons, List.find?_nil]
  split
  · rfl
  · cases h₁ : (decide (0x0800 ≤ a) && decide (a ≤ 0x47FF)) <;>
      cases h₂ : (decide (0x4800 ≤ a) && decide (a ≤ 0x77FF)) <;>
      cases h₃ : (decide (0x7800 ≤ a) && decide (a ≤ 0x7FFF)) <;> rfl

theorem witness_DmaReachesDmaRamOnly : Config.exampleDev.kind 0x77FF ≠ .dpsram ∧
    ({ Config.exampleDev with hasDmaRam := false } : Dev).hasDmaRam = false ∧ Config.exampleDev.kind 0x7800 = .dpsram ∧
    Config.exampleDev.kind 0x7FFF = .dpsram ∧ Config.exampleDev.hasDmaRam = true ∧ State.reset.dma = [] := by
  decide +kernel

theorem witness_LinearAddressing : Unmodified State.reset .xRagu 0 ∧ Unmodified State.reset .xWagu 15 ∧
    Unmodified State.reset .yAgu 10 ∧ Unmodified { State.reset with modcon := 0x4FAF } .yAgu 11 := by decide +kernel

theorem witness_ModuloAdjustsWhichValue :
    moduloBounds (inModulo [(1, 0x1162)] []) .xWagu 1 = some (0x1100, 0x1163) ∧
    (inModulo [(1, 0x1162)] []).bitRevSel 1 = false ∧
    deltaOf (inModulo [(1, 0x1162)] []) .word (.mcu .postInc) ≠ 0 ∧
    modAdjust (0x1100 : Word).toNat (0x1163 : Word).toNat ((inModulo [(1, 0x1162)] []).getW 1).toNat
      (deltaOf (inModulo [(1, 0x1162)] []) .word (.mcu .postInc)) = .ok (((0x1100 : Word).toNat : Nat) : Int) := by
  decide +kernel

/-- The bounds of each clause: the last moved address that is not wrapped, the first that is, and the longest jump. -/
theorem witness_ModuloAdjustment : LeastExponent (0x1163 - 0x1100 + 1) 7 ∧ 0x1100 % 2 ^ 7 = 0 ∧
    0x1162 + 1 ≤ 0x1163 + (0x1163 - 0x1100 + 1) ∧ 0x1163 + 100 ≤ 0x1163 + (0x1163 - 0x1100 + 1) ∧
    LeastExponent (0x11FF - 0x11D0 + 1) 6 ∧ 0x11FF % 2 ^ 6 = 2 ^ 6 - 1 ∧
    0x11D0 - (0x11FF - 0x11D0 + 1) ≤ 0x11D0 - 48 := by decide +kernel

theorem witness_ModuloRefusals : (0x1100 : Nat) < 0x1163 ∧ LeastExponent (0x11A3 - 0x1140 + 1) 7 ∧ 0x1140 % 2 ^ 7 ≠ 0 ∧
    LeastExponent (0x1163 - 0x1100 + 1) 7 ∧ 0x1163 + (0x1163 - 0x1100 + 1) < 0x1162 + 102 ∧
    0x1163 % 2 ^ 7 ≠ 2 ^ 7 - 1 ∧ LeastExponent (0x11FF - 0x11D0 + 1) 6 ∧ 0x11FF % 2 ^ 6 = 2 ^ 6 - 1 ∧
    (0x11D0 : Int) - 49 < 0x11D0 - (0x11FF - 0x11D0 + 1) ∧
    modAdjust 0x1100 0x1163 0x1200 2 = .error .moduloPointerOutside ∧
    moduloBounds (inModulo [(1, 0x1200)] []) .xRagu 1 = some (0x1100, 0x1163) ∧
    deltaOf (inModulo [(1, 0x1200)] []) .word (.mcu .postInc) = 2 ∧
    deltaOf (inModulo [(1, 0x1200), (2, 0)] []) .word (.mcu (.indexed 2)) = 0 ∧
    deltaOf (inModulo [(1, 0x1200)] []) .word (.mcu (.offset 0)) = 0 ∧
    (inReversal [] []).bitRevSel 1 = true ∧ (inReversal [] []).xModSel 1 = false := by decide +kernel

theorem witness_ModuloStaysInBuffer : modAdjust 0x1100 0x1163 0x1162 2 = .ok 0x1100 := by decide +kernel

/-- Both sides of the equivalence, with the shortest and the longest moves it speaks of. -/
theorem witness_BothDirectionsIffPowerOfTwo : modAdjust 0x1200 0x12FF 0x12FE 0x100 = .ok 0x12FE ∧
    modAdjust 0x1200 0x12FF 0x1200 (-0x100) = .ok 0x1200 ∧ modAdjust 0x1200 0x12FF 0x1200 (-1) = .ok 0x12FF ∧
    0x12FF - 0x1200 + 1 = 2 ^ 8 ∧ 0x1200 % 2 ^ 8 = 0 ∧ modAdjust 0x1100 0x1163 0x1100 2 = .ok 0x1102 ∧
    modAdjust 0x1100 0x1163 0x1102 (-2) = .error .moduloEndNotOnOnes := by decide +kernel

theorem witness_ModuloBufferIsCircular : (0x1100 : Nat) < 0x1163 ∧ 0x1163 < 65536 ∧
    LeastExponent (0x1163 - 0x1100 + 1) 7 ∧ 0x1100 % 2 ^ 7 = 0 ∧ 0x1162 ≤ 0x1163 := by decide +kernel

theorem witness_BitReversalActsExactly : BitReversalActs (inReversal [] []) .xWagu (.mcu .preInc) 1 .word ∧
    modifierValid (inReversal [] []).xb = true ∧ ¬BitReversalActs (inReversal [] []) .xWagu (.mcu .postInc) 1 .byte ∧
    (0x8001 : Word).getLsbD 15 = (inReversal [] []).xbrev.getLsbD 15 := by decide +kernel

theorem witness_ReadsNeverBitReversed : Agu.xRagu ≠ .xWagu ∧
    ∀ i, i < 8 ∨ 12 ≤ i → (0x0F00 : Word).getLsbD i = State.reset.modcon.getLsbD i := by
  refine ⟨by decide, fun i h => ?_⟩
  by_cases hi : i < 16
  · have : ∀ i : Fin 16, i.val < 8 ∨ 12 ≤ i.val → (0x0F00 : Word).getLsbD i.val = State.reset.modcon.getLsbD i.val := by
      decide
    exact this ⟨i, hi⟩ h
  · rw [BitVec.getLsbD_of_ge _ _ (by omega), BitVec.getLsbD_of_ge _ _ (by omega)]

/-- D0's own case: one register for both (A7.9). -/
def bothOnW1 : State :=
  { at0 [(1, 0x1162)] [] with modcon := 0x8101, xmodsrt := 0x1100, xmodend := 0x1163, xbrev := 0x8008 }

theorem witness_BitReversalTakesPrecedence : bothOnW1.xModSel 1 = true ∧ bothOnW1.bitRevSel 1 = true ∧
    modifierValid bothOnW1.xb = true ∧
    modAdjust (bothOnW1.readCtrl .xmodsrt).toNat (bothOnW1.readCtrl .xmodend).toNat (bothOnW1.getW 1).toNat 2 =
      .ok (((0x1100 : Word).toNat : Nat) : Int) := by decide +kernel

theorem witness_NormalAddressesElsewhere : (inReversal [] []).bitRevSel 1 = true ∧
    ¬BitReversalActs (inReversal [] []) .xWagu (.mcu .postDec) 1 .word ∧ (inReversal [] []).xModSel 1 = false ∧
    ¬BitReversalActs bothOnW1 .xWagu (.mcu .postInc) 1 .byte ∧ bothOnW1.bitRevSel 1 = true ∧
    bothOnW1.xModSel 1 = true := by decide +kernel

theorem witness_BitReversedWriteAddress : (inReversal [] []).bitRevSel 1 = true ∧
    modifierValid (inReversal [] []).xb = true ∧
    BitReversalActs { inReversal [] [] with xbrev := 0xFFFF } .xWagu (.mcu .postInc) 1 .word ∧
    modifierValid ({ inReversal [] [] with xbrev := 0xFFFF } : State).xb = false := by decide +kernel

theorem witness_ReverseCarryClosedForm : revCarrySum 0xABC0 (BitVec.twoPow 15 (4 - 1)) = 0xABD0 ∧
    revCarrySum 0xC000 (BitVec.twoPow 15 (15 - 1)) = 0x2000 ∧ revCarrySum 0x0942 (BitVec.twoPow 15 (1 - 1)) = 0x0940 := by
  decide +kernel

theorem witness_BitReversedSequence : ∀ j, 1 ≤ j → j ≤ 4 → (0x0940 : Word).getLsbD j = false := by
  intro j h₁ h₂
  interval_cases j <;> decide

/-- A post-modification under linear addressing. -/
theorem postModTo_linear {s : State} {agu : Agu} {n : Reg} {k : Int} {p : Word} (hm : moduloBounds s agu n = none)
    (h : p = s.getW n + BitVec.ofInt 16 k) : PostModTo s agu n k p := by
  unfold PostModTo; rw [hm]; exact h

/-- A post-modification under modulo addressing. -/
theorem postModTo_modulo {s : State} {agu : Agu} {n : Reg} {k : Int} {p lo hi : Word}
    (hm : moduloBounds s agu n = some (lo, hi)) (hk : k ≠ 0)
    (h : modAdjust lo.toNat hi.toNat (s.getW n).toNat k = .ok (p.toNat : Int)) : PostModTo s agu n k p := by
  unfold PostModTo; rw [hm]; simp only [if_neg hk]; exact h

/-- V10: MODCON = 0x4F0F. -/
theorem witness_ReservedYwmRefused : ({ macState with modcon := 0x4F0F } : State).ymoden = true ∧
    ywmReserved ({ macState with modcon := 0x4F0F } : State).ywm = true ∧
    ¬Violation { macState with modcon := 0x4F0F } (.through [XPtr.w8.reg, YPtr.w10.reg]) ∧
    macConflict 4 5 XPtr.w8.reg 4 YPtr.w10.reg 5 = false ∧
    PostModTo { macState with modcon := 0x4F0F } .xRagu XPtr.w8.reg 2 0x0902 ∧
    XDelivers { macState with modcon := 0x4F0F } (macState.getW XPtr.w8.reg) 0x1111 ∧
    PostModTo { macState.setW 8 0x0901 with modcon := 0x4F0F } .xRagu XPtr.w8.reg 2 0x0903 ∧
    isOdd ((macState.setW 8 0x0901).getW XPtr.w8.reg) = true ∧
    PostModTo { macState.setW 8 0x8000 with modcon := 0x4F0F } .xRagu XPtr.w8.reg 2 0x8002 ∧
    isOdd ((macState.setW 8 0x8000).getW XPtr.w8.reg) = false ∧
    macState.dev.kind ((macState.setW 8 0x8000).getW XPtr.w8.reg).toNat = .absent ∧ State.reset.ymoden = false :=
  ⟨by decide +kernel, by decide +kernel, by decide +kernel, by decide +kernel,
    postModTo_linear (by decide +kernel) (by decide +kernel), ⟨by decide +kernel, .inr (.inl (by decide +kernel))⟩,
    postModTo_linear (by decide +kernel) (by decide +kernel), by decide +kernel,
    postModTo_linear (by decide +kernel) (by decide +kernel), by decide +kernel, by decide +kernel, by decide +kernel⟩

/-- Each clause, with a state whose latch holds the write it speaks of: no indirect read; a read through W1 where W4 is
designated; modulo addressing off; a read through W0 after an XBREV write where W1 is designated; BREN clear before it. -/
theorem witness_SafeAfterControlWrite : readPointersOf (.movWPostinc 2 1) = .noRead ∧
    (afterWriteOf .xmodend { State.reset with modcon := 0x8FF4 }).hz.modcon = false ∧
    (afterWriteOf .xmodend { State.reset with modcon := 0x8FF4 }).hz.xbrev = false ∧
    readPointersOf (.movIndW 1 2) = .through [1] ∧
    ¬(ReadPointers.through [1]).Designates (afterWriteOf .xmodend { State.reset with modcon := 0x8FF4 }).xwm ∧
    ¬(ReadPointers.through [1]).Designates (afterWriteOf .xmodend { State.reset with modcon := 0x8FF4 }).ywm ∧
    (afterWriteOf .xmodsrt State.reset).xmoden = false ∧ (afterWriteOf .xmodsrt State.reset).ymoden = false ∧
    (afterWriteOf .xbrev (inReversal [] [])).hz.modcon = false ∧
    (afterWriteOf .xbrev (inReversal [] [])).hz.xmodend = false ∧
    (afterWriteOf .xbrev (inReversal [] [])).hz.xbrev = true ∧ readPointersOf (.movIndW 0 2) = .through [0] ∧
    ¬(ReadPointers.through [0]).Designates (afterWriteOf .xbrev (inReversal [] [])).bwm ∧
    (afterWriteOf .xbrev { inReversal [] [] with hzOldXbrev := 0x0008 }).hzOldXbrev.getLsbD 15 = false := by
  and_intros <;> decide +kernel

/-- The two sides of R252: a violation, and none. -/
theorem witness_HazardFaultExactly : readPointersOf (.movIndW 1 2) = .through [1] ∧ readPointersOf .nop = .noRead ∧
    Violation (afterModconWrite State.reset) (.through [1]) ∧
    ¬Violation (afterModconWrite State.reset) .noRead := by
  and_intros <;> decide +kernel

theorem witness_LatchHoldsWrites : State.reset.dev.wf = true ∧
    (∃ t, exec (.movWF 0 0x0046) State.reset = .next t) ∧
    storeTarget State.reset.start (.movWF 0 0x0046) = some (0x0046, .word) ∧
    ReachesCtrl State.reset.dev 0x0046 .word .modcon :=
  ⟨by decide +kernel, ⟨_, rfl⟩, by decide +kernel, by decide +kernel⟩

theorem witness_StepRunsDecodedStatement : (holding "NOP").faultRecord = none ∧
    (holding "NOP").program[(holding "NOP").pc]? = some (ascii "NOP") ∧
    decode (holding "NOP").names (ascii "NOP") = .ok .nop ∧ (holding "NOP").dma = [] ∧
    State.reset.program[State.reset.pc]? = none ∧
    decode (holding "ADD W0, W1, W2").names (ascii "ADD W0, W1, W2") = .error .unknownMnemonic := by decide +kernel

theorem witness_AddressErrorIsTerminal : (State.reset.raise .misalignedRead).faultRecord = some .misalignedRead ∧
    ∃ t, exec .nop (State.reset.raise .misalignedRead) = .next t := ⟨by decide +kernel, _, rfl⟩

/-- With nothing scheduled and with bursts before and within the instruction. -/
theorem witness_ParametersNeverChange : (nextOf (step (holding "NOP"))).isSome = true ∧
    ((nextOf (step { at0 [] [(0x7800, 0xBEEF)] with
      program := [ascii "MOV 0x7800, 0x7900"], dma := [[⟨0x7802, 1⟩], [⟨0x7900, 2⟩], [⟨0x7904, 3⟩]] })).map
      fun t => t.dma.length) = some 1 := by decide +kernel

theorem witness_StepKeepsInvariant :
    Sys2Proof.Machine.Inv { holding "MOV W0, 0x0900" with pc := 0 } ∧ (nextOf (step (holding "MOV W0, 0x0900"))).isSome = true := by
  refine ⟨⟨by decide +kernel, (by intro c hc; cases hc), (by intro r; cases r <;> decide +kernel), by decide +kernel⟩,
    by decide +kernel⟩

theorem witness_InstructionsMoveOn : (∀ lit, Instr.nop ≠ .repeatLit lit) ∧ ∃ t, exec .nop State.reset = .next t :=
  ⟨(by simp), _, rfl⟩

/-- V42 and V43: a count of 0 and a count of 2, the instruction executed to the end. -/
theorem witness_RepeatedInstructionRuns : (∀ l, Instr.movWPostinc 0 1 ≠ .repeatLit l) ∧
    ((nextOf (exec (.repeatLit 0) (at0 [(1, 0x0900)] []))).bind (execTimes (.movWPostinc 0 1) (0 + 1))).isSome = true ∧
    ((nextOf (exec (.repeatLit 2) (at0 [(1, 0x0900)] []))).bind (execTimes (.movWPostinc 0 1) 2)).isSome = true ∧
    ((nextOf (exec (.repeatLit 2) (at0 [(1, 0x0900)] []))).bind (execTimes (.movWPostinc 0 1) (2 + 1))).isSome = true := by
  refine ⟨by simp, ?_, ?_, ?_⟩ <;> decide +kernel

theorem witness_DecodeReadsEncoded : (Instr.movGeneral .word (.reg 0) (.mem ⟨1, .postDec⟩)).wellFormed = true ∧
    (Instr.macPrefetchWb 4 5 .w9 (-6) 4 .w11 6 5 0).wellFormed = true ∧
    (Instr.doLitLabel 49 (ascii "FILL")).wellFormed = true := by decide +kernel

theorem witness_RegistersKept : (∃ t, exec (.movLitW 1 2) State.reset = .next t) ∧
    ∀ m n x kx xd y ky yd kw, Instr.movLitW 1 2 ≠ .macPrefetchWb m n x kx xd y ky yd kw := ⟨⟨_, rfl⟩, by simp⟩

theorem witness_MemoryKept : (∃ t, exec (.movLitW 1 2) State.reset = .next t) ∧
    storeTarget State.reset.start (.movLitW 1 2) = none ∧ (∃ t, exec (.movWF 0 0x0900) State.reset = .next t) ∧
    storeTarget State.reset.start (.movWF 0 0x0900) = some (0x0900, .word) :=
  ⟨⟨_, rfl⟩, by decide +kernel, ⟨_, rfl⟩, by decide +kernel⟩

/-- A store's own error, and a read's before it. -/
theorem witness_OffendingStoreChangesNothing : (nextOf (exec (.movWF 0 0x8000) State.reset)).isSome = true ∧
    storeTarget State.reset.start (.movWF 0 0x8000) = some (0x8000, .word) ∧
    writeTrap State.reset.dev 0x8000 .word = some .unimplementedWrite ∧
    ((beforeStore State.reset.start (.movWF 0 0x8000)).map fun u => u.faultRecord) = some none ∧
    (nextOf (exec (.movPostincPostinc 1 2) (at0 [(1, 0x0901), (2, 0x8000)] []))).isSome = true ∧
    storeTarget (at0 [(1, 0x0901), (2, 0x8000)] []).start (.movPostincPostinc 1 2) = some (0x8000, .word) ∧
    ((beforeStore (at0 [(1, 0x0901), (2, 0x8000)] []).start (.movPostincPostinc 1 2)).map fun u => u.faultRecord) =
      some (some .misalignedRead) := by decide +kernel

/-- Each clause of the stores to an address: RAM at both ends of the map, each register, odd, nothing there. -/
theorem witness_MovToAddress : RamWritable State.reset.dev 0x0800 ∧ RamWritable State.reset.dev 0x7FFE ∧
    State.reset.dev.wf = true ∧ State.reset.dev.addrOf .xbrev = 0x0050 ∧ State.reset.faultRecord = none ∧
    isOdd 0x0801 = true ∧ isOdd 0x8000 = false ∧ State.reset.dev.kind (0x8000 : Word).toNat = .absent := by
  and_intros <;> decide +kernel

theorem witness_MovIndirect : ¬Violation (at0 [(1, 0x0900)] [(0x0900, 0xBEEF)]) (.through [1]) ∧
    WordDelivers (at0 [(1, 0x0900)] [(0x0900, 0xBEEF)]) ((at0 [(1, 0x0900)] [(0x0900, 0xBEEF)]).getW 1) 0xBEEF ∧
    WordDelivers (at0 [(1, 0x0046)] []) ((at0 [(1, 0x0046)] []).getW 1) 0 ∧
    isOdd ((at0 [(1, 0x0901)] []).getW 1) = true ∧ isOdd ((at0 [(1, 0x8000)] []).getW 1) = false ∧
    Config.exampleDev.kind ((at0 [(1, 0x8000)] []).getW 1).toNat = .absent ∧
    Violation (afterModconWrite State.reset) (.through [1]) := by
  refine ⟨by decide +kernel, .inl (by decide +kernel), .inr ⟨by decide +kernel, .modcon, by decide +kernel,
    by decide +kernel⟩, by decide +kernel, by decide +kernel, by decide +kernel, ?_⟩
  and_intros <;> decide +kernel

/-- Each clause: a word there, odd, nothing there, with the pointer modulo and with it linear. -/
theorem witness_MovPostincLoad : ¬Violation (inModulo [(1, 0x1162)] [(0x1162, 7)]) (.through [1]) ∧ (1 : Reg) ≠ 2 ∧
    WordDelivers (inModulo [(1, 0x1162)] [(0x1162, 7)]) ((inModulo [(1, 0x1162)] [(0x1162, 7)]).getW 1) 7 ∧
    PostIncTo (inModulo [(1, 0x1162)] [(0x1162, 7)]) .xRagu 1 0x1100 ∧
    PostIncTo (at0 [(1, 0x0901)] []) .xRagu 1 0x0903 ∧ isOdd ((at0 [(1, 0x0901)] []).getW 1) = true ∧
    PostIncTo (at0 [(1, 0xFFFE)] []) .xRagu 1 0x0000 ∧ isOdd ((at0 [(1, 0xFFFE)] []).getW 1) = false ∧
    Config.exampleDev.kind ((at0 [(1, 0xFFFE)] []).getW 1).toNat = .absent ∧
    ¬Violation (at0 [(1, 0xFFFE)] []) (.through [1]) :=
  ⟨by decide +kernel, by decide, .inl (by decide +kernel), by decide +kernel, by decide +kernel, by decide +kernel,
    by decide +kernel, by decide +kernel, by decide +kernel, by decide +kernel⟩

/-- Each clause, with the pointer bit-reversed, modulo and linear. -/
theorem witness_MovPostincStore : PostIncTo (inReversal [(1, 0x0950)] []) .xWagu 1 0x0948 ∧
    RamWritable Config.exampleDev ((inReversal [(1, 0x0950)] []).getW 1) ∧
    PostIncTo (inModulo [(1, 0x1162)] []) .xWagu 1 0x1100 ∧ Config.exampleDev.wf = true ∧
    (at0 [(1, 0x0050)] []).getW 1 = Config.exampleDev.addrOf .xbrev ∧ PostIncTo (at0 [(1, 0x0050)] []) .xWagu 1 0x0052 ∧
    PostIncTo (at0 [(1, 0x0901)] []) .xWagu 1 0x0903 ∧ isOdd ((at0 [(1, 0x0901)] []).getW 1) = true ∧
    PostIncTo (at0 [(1, 0x8000)] []) .xWagu 1 0x8002 ∧ isOdd ((at0 [(1, 0x8000)] []).getW 1) = false ∧
    Config.exampleDev.kind ((at0 [(1, 0x8000)] []).getW 1).toNat = .absent := by
  and_intros <;> decide +kernel

/-- P3's state after one execution. -/
def copying : State := inReversal [(0, 0x0902), (1, 0x0950)] [(0x0902, 0x1001)]

/-- Each clause over `copying`, with one of its pointers moved. -/
theorem witness_MovPostincCopy : ¬Violation copying (.through [0]) ∧ PostIncTo copying .xRagu 0 0x0904 ∧
    PostIncTo copying .xWagu 1 0x0948 ∧ WordDelivers copying (copying.getW 0) 0x1001 ∧
    RamWritable copying.dev (copying.getW 1) ∧ copying.dev.wf = true ∧
    (copying.setW 1 0x0046).getW 1 = copying.dev.addrOf .modcon ∧
    PostIncTo (copying.setW 1 0x0046) .xWagu 1 0x0056 ∧ copying.faultRecord = none ∧
    isOdd ((copying.setW 1 0x0951).getW 1) = true ∧ PostIncTo (copying.setW 1 0x0951) .xWagu 1 0x0949 ∧
    isOdd ((copying.setW 1 0x8000).getW 1) = false ∧
    copying.dev.kind ((copying.setW 1 0x8000).getW 1).toNat = .absent ∧
    PostIncTo (copying.setW 1 0x8000) .xWagu 1 0x8010 ∧ isOdd ((copying.setW 0 0x0901).getW 0) = true ∧
    PostIncTo (copying.setW 0 0x0901) .xRagu 0 0x0903 ∧ isRam copying.dev (copying.getW 1).toNat = true ∧
    isOdd ((copying.setW 0 0x8000).getW 0) = false ∧
    copying.dev.kind ((copying.setW 0 0x8000).getW 0).toNat = .absent ∧
    ((copying.setW 0 0x0901).setW 1 0x0046).getW 1 = copying.dev.addrOf .modcon := by
  refine ⟨by decide +kernel, by decide +kernel, by decide +kernel, .inl (by decide +kernel), ?_⟩
  and_intros <;> decide +kernel

/-- P2's store, a byte copied through an index register, and a byte of MODCON. -/
theorem witness_MovGeneralCompletes : byteFormDescribed .word (.reg 0) (.mem ⟨1, .postDec⟩) = true ∧
    movConflict (.reg 0) (.mem ⟨1, .postDec⟩) = false ∧ ¬Violation State.reset .noRead ∧
    SourceGives State.reset.start .word (.reg 0) 0 State.reset.start ∧
    (∃ t, DestinationTakes (at0 [(1, 0x11FE)] []).start .word 7 (.mem ⟨1, .postDec⟩) t) ∧
    byteFormDescribed .byte (.mem ⟨1, .indexed 2⟩) (.mem ⟨3, .preInc⟩) = true ∧
    SourceGives (at0 [(1, 0x0900), (2, 1)] [(0x0900, 0xBEEF)]).start .byte (.mem ⟨1, .indexed 2⟩) 0x00BE
      (at0 [(1, 0x0900), (2, 1)] [(0x0900, 0xBEEF)]).start ∧
    (∃ t, DestinationTakes (at0 [(3, 0x0046)] []).start .byte 7 (.mem ⟨3, .preInc⟩) t) ∧
    SourceGives (at0 [(1, 0x0046)] []).start .word (.mem ⟨1, .indirect⟩) 0 (at0 [(1, 0x0046)] []).start :=
  ⟨by decide +kernel, by decide +kernel, by decide +kernel, by decide +kernel,
    ⟨_, by decide +kernel, .inl ⟨by decide +kernel, rfl⟩⟩, by decide +kernel,
    ⟨by decide +kernel, by decide +kernel, .inl (by decide +kernel)⟩,
    ⟨_, by decide +kernel, .inr ⟨by decide +kernel, .modcon, .inr ⟨by decide +kernel, rfl⟩⟩⟩,
    ⟨by decide +kernel, by decide +kernel, .inr ⟨by decide +kernel, .modcon, by decide +kernel, by decide +kernel⟩⟩⟩

/-- V20 step 3 as a source; a destination in RAM, MODCON behind one, and another SFR behind one. -/
theorem witness_MovGeneralUnderModifiers : ¬Violation (inModulo [(1, 0x1162)] [(0x1162, 7)]) (.through [1]) ∧
    (∃ u, SourceReads (inModulo [(1, 0x1162)] [(0x1162, 7)]).start .word (.mem ⟨1, .postInc⟩) 7 u) ∧
    movConflict (.mem ⟨1, .postInc⟩) (.reg 2) = false ∧ WritableAt Config.exampleDev .word 0x0900 ∧
    WritableAt Config.exampleDev .byte 0x0901 ∧ CtrlWritten State.reset .word 0x0046 7 (State.reset.writeCtrl .modcon 7) ∧
    Config.exampleDev.wf = true ∧ AtOtherSfr openDev .word 0x0100 ∧ openDev.sfrWrite = .given ∧
    byteFormDescribed .word (.mem ⟨1, .postInc⟩) (.mem ⟨2, .preDec⟩) = true ∧
    movConflict (.mem ⟨1, .postInc⟩) (.mem ⟨2, .preDec⟩) = false ∧
    ∃ w, operand (turnBetween (.mem ⟨1, .postInc⟩) (.mem ⟨2, .preDec⟩) (at0 [(2, 0x0902)] [])) .xWagu (.mcu .preDec) 2
      .word = .next (0x0900, w) :=
  ⟨by decide +kernel,
    ⟨_, 0x1162, (inModulo [(1, 0x1162)] [(0x1162, 7)]).start.setW 1 0x1100, rfl,
      fun c => by cases c <;> decide +kernel, rfl⟩,
    by decide +kernel, by decide +kernel, by decide +kernel, ⟨.modcon, by decide +kernel, rfl⟩, by decide +kernel,
    ⟨by decide +kernel, fun r => by cases r <;> decide +kernel, by decide +kernel⟩, by decide +kernel, by decide +kernel,
    by decide +kernel, _, rfl⟩

/-- An odd pointer that is moved, an odd absolute address, and a byte read where nothing stands. -/
theorem witness_MovGeneralTrappedRead : ¬Violation (at0 [(1, 0x0901)] [(0x0900, 7)]) (.through [1]) ∧
    (at0 [(1, 0x0901)] [(0x0900, 7)]).faultRecord = none ∧
    SourceAddress (at0 [(1, 0x0901)] [(0x0900, 7)]).start .word (.mem ⟨1, .postInc⟩) 0x0901 ∧
    ReadTraps Config.exampleDev 0x0901 .word .misalignedRead ∧
    TrapDelivers (at0 [(1, 0x0901)] [(0x0900, 7)]) 0x0901 7 .misalignedRead ∧
    SourceAddress State.reset.start .word (.direct 0x0901) 0x0901 ∧
    SourceAddress (at0 [(1, 0x8001)] []).start .byte (.mem ⟨1, .indirect⟩) 0x8001 ∧
    ReadTraps Config.exampleDev 0x8001 .byte .unimplementedRead :=
  ⟨by decide +kernel, by decide +kernel, ⟨_, rfl⟩, ⟨rfl, by decide +kernel⟩, .inl (by decide +kernel), rfl, ⟨_, rfl⟩,
    ⟨nofun, by decide +kernel⟩⟩

theorem witness_RefusedMovForms : ¬Violation State.reset (.through [1]) ∧
    (MovSrc.reg 1).isMem = false ∧ (MovDst.reg 1).isMem = false ∧
    byteFormDescribed .byte (.mem ⟨1, .preInc⟩) (.mem ⟨2, .indexed 1⟩) = true ∧
    (1 : Reg) ∈ MovSrc.updates (.mem ⟨1, .preInc⟩) ∧ (1 : Reg) ∈ MovDst.names (.mem ⟨2, .indexed 1⟩) := by
  and_intros <;> decide +kernel

theorem witness_ImplicitReadsRefused : ¬Violation State.reset (.through [15]) ∧ ¬Violation State.reset .every ∧
    (afterModconWrite State.reset).hz.modcon = true := by
  and_intros <;> decide +kernel

/-- P6: X linear, Y modulo at the end of its buffer. -/
def p6 : State :=
  { at0 [(8, 0x0900), (10, 0x4802), (13, 0x0A00), (4, 2), (5, 3)] [(0x0900, 0x1111), (0x4802, 0x3333)] with
    modcon := 0x4FAF, ymodsrt := 0x4800, ymodend := 0x4803 }

theorem witness_MacCompletes : ¬Violation p6 (.through [XPtr.w8.reg, YPtr.w10.reg]) ∧
    macConflict 4 5 XPtr.w8.reg 4 YPtr.w10.reg 5 = false ∧ ¬(p6.ymoden = true ∧ ywmReserved p6.ywm = true) ∧
    PostModTo p6 .xRagu XPtr.w8.reg 2 0x0902 ∧ XDelivers p6 (p6.getW XPtr.w8.reg) 0x1111 ∧
    PostModTo p6 .yAgu YPtr.w10.reg 2 0x4800 ∧ YDelivers p6.dmaTurn (p6.getW YPtr.w10.reg) 0x3333 ∧
    (p6.bitRevSel 13 = true → p6.xModSel 13 = false) ∧ PostModTo p6 .xWagu 13 2 0x0A02 ∧
    RamWritable p6.dev (p6.getW 13) :=
  ⟨by decide +kernel, by decide +kernel, by decide +kernel, postModTo_linear (by decide +kernel) (by decide +kernel),
    ⟨by decide +kernel, .inr (.inl (by decide +kernel))⟩,
    postModTo_modulo (lo := 0x4800) (hi := 0x4803) (by decide +kernel) (by decide) (by decide +kernel),
    ⟨by decide +kernel, .inr (.inr (by decide +kernel))⟩, by decide +kernel,
    postModTo_linear (by decide +kernel) (by decide +kernel), by decide +kernel⟩

/-- The trapping clauses over `macState` with one or both of its prefetch pointers moved, and a conflict. -/
theorem witness_MacTrapsAndConflicts :
    PostModTo (macState.setW 8 0x0901) .xRagu 8 2 0x0903 ∧
    ReadTraps macState.dev ((macState.setW 8 0x0901).getW 8) .word .misalignedRead ∧
    PostModTo (macState.setW 8 0x8000) .xRagu 8 2 0x8002 ∧
    ReadTraps macState.dev ((macState.setW 8 0x8000).getW 8) .word .unimplementedRead ∧
    YDelivers macState.dmaTurn (macState.getW 10) 0x2222 ∧
    PostModTo (macState.setW 10 0x4801) .yAgu 10 2 0x4803 ∧
    ReadTraps macState.dev ((macState.setW 10 0x4801).getW 10) .word .misalignedRead ∧
    PostModTo (macState.setW 10 0x8000) .yAgu 10 2 0x8002 ∧
    ReadTraps macState.dev ((macState.setW 10 0x8000).getW 10) .word .unimplementedRead ∧
    XDelivers macState (macState.getW 8) 0x1111 ∧
    ReadTraps macState.dev (((macState.setW 8 0x8000).setW 10 0x4801).getW 8) .word .unimplementedRead ∧
    ReadTraps macState.dev (((macState.setW 8 0x8000).setW 10 0x4801).getW 10) .word .misalignedRead ∧
    macState.faultRecord = none ∧ ¬Violation macState (.through [XPtr.w8.reg, YPtr.w10.reg]) ∧
    (13 : Reg) ∈ [XPtr.w8.reg, YPtr.w10.reg, 13] :=
  ⟨postModTo_linear (by decide +kernel) (by decide +kernel), by decide +kernel,
    postModTo_linear (by decide +kernel) (by decide +kernel), by decide +kernel,
    ⟨by decide +kernel, .inr (.inr (by decide +kernel))⟩, postModTo_linear (by decide +kernel) (by decide +kernel),
    by decide +kernel, postModTo_linear (by decide +kernel) (by decide +kernel), by decide +kernel,
    ⟨by decide +kernel, .inr (.inl (by decide +kernel))⟩, by decide +kernel, by decide +kernel, by decide +kernel,
    by decide +kernel, by decide +kernel⟩

end Sys2Proof.Tests
end

/-! ### Fetch and step, by what stands at the statement index (R12, D19) -/

section
namespace Sys2Proof.Machine

/-- The DMA controller's turn writes data memory only: the statement at the index and the known names stay (R73, log 23). -/
theorem fetch_dmaTurn (s : State) : fetch s.dmaTurn = fetch s := by
  simp only [fetch, State.names, State.dmaTurn_program, State.dmaTurn_pc, State.dmaTurn_dev, State.dmaTurn_symbols]

theorem fetch_of_noStatement {s : State} (hp : s.program[s.pc]? = none) : fetch s = .error .noStatement := by
  simp only [fetch, hp]

theorem fetch_of_decode_ok {s : State} {text : List Byte} {i : Instr} (hp : s.program[s.pc]? = some text)
    (hd : decode s.names text = .ok i) : fetch s = .ok i := by
  simp only [fetch, hp, hd]

theorem fetch_of_decode_error {s : State} {text : List Byte} {e : DecodeError} (hp : s.program[s.pc]? = some text)
    (hd : decode s.names text = .error e) : fetch s = .error (.notAStatement e) := by
  simp only [fetch, hp, hd]

/-- Fetching before or after the DMA controller's turn is the same, so the step is told by the fetch from `s` itself. -/
theorem step_of_fetch_ok {s : State} {i : Instr} (hf : s.faultRecord = none) (h : fetch s = .ok i) :
    step s = exec i s.dmaTurn := by
  simp only [step, hf, fetch_dmaTurn, h]

theorem step_of_fetch_error {s : State} {r : Refusal} (hf : s.faultRecord = none) (h : fetch s = .error r) :
    step s = .refused r := by
  simp only [step, hf, fetch_dmaTurn, h]

/-- Settles O34, by the three answers of `fetch`; the decoder answers with well-formed instructions only. -/
theorem stepRunsDecodedStatement : Obligations.StepRunsDecodedStatement := by
  refine ⟨fun s text i hf hp hd => ⟨?runs, ?wellFormed, ?quiet⟩, fun s hf hp => ?noStatement,
    fun s text e hf hp hd => ?notAStatement⟩
  case runs => exact step_of_fetch_ok hf (fetch_of_decode_ok hp hd)
  case wellFormed => exact decode_wellFormed hd
  case quiet => exact State.dmaTurn_of_quiet
  case noStatement => exact step_of_fetch_error hf (fetch_of_noStatement hp)
  case notAStatement => exact step_of_fetch_error hf (fetch_of_decode_error hp hd)

end Sys2Proof.Machine
end

/-! ### The parameters of the step and the invariant, over the DMA controller's turns (R33, R70) -/

section
namespace Sys2Proof.Machine

@[simp] theorem State.dmaTurns_dev (s : State) (k : Nat) : (s.dmaTurns k).dev = s.dev := by
  induction k with
  | zero => rfl
  | succ k ih => exact ih

@[simp] theorem State.dmaTurns_program (s : State) (k : Nat) : (s.dmaTurns k).program = s.program := by
  induction k with
  | zero => rfl
  | succ k ih => exact ih

@[simp] theorem State.dmaTurns_symbols (s : State) (k : Nat) : (s.dmaTurns k).symbols = s.symbols := by
  induction k with
  | zero => rfl
  | succ k ih => exact ih

/-- Each turn takes one burst of the schedule (R70, log 23). -/
@[simp] theorem State.dmaTurns_dma (s : State) (k : Nat) : (s.dmaTurns k).dma = s.dma.drop k := by
  induction k with
  | zero => rfl
  | succ k ih => rw [State.dmaTurns, State.dmaTurn_dma, ih, List.tail_drop]

theorem Inv.dmaTurns {s : State} (hi : Inv s) (k : Nat) : Inv (s.dmaTurns k) := by
  induction k with
  | zero => exact hi
  | succ k ih => exact ih.dmaTurn

end Sys2Proof.Machine
end

/-! ### The map is the same for both bytes of a word (R3, U37) -/

section
namespace Sys2Proof

/-- An admitted region begins at an even and ends at an odd address (R3). -/
theorem Dev.regions_aligned {d : Dev} (hw : d.wf = true) {r : Region} (hr : r ∈ d.regions) :
    r.first % 2 = 0 ∧ r.last % 2 = 1 := by
  simp only [Dev.wf, Bool.and_eq_true, List.all_eq_true] at hw
  obtain ⟨⟨⟨⟨hregions, -⟩, -⟩, -⟩, -⟩ := hw
  have hwf := hregions r hr
  simp only [Region.wf, Bool.and_eq_true, beq_iff_eq] at hwf
  obtain ⟨⟨⟨⟨⟨hfirst, hlast⟩, -⟩, -⟩, -⟩, -⟩ := hwf
  exact ⟨hfirst, hlast⟩

/-- On an admitted device the two bytes of a word lie in the same region. -/
theorem Dev.regionAt_of_sameWord {d : Dev} (hw : d.wf = true) {a b : Nat} (h : a / 2 = b / 2) :
    d.regionAt a = d.regionAt b := by
  refine List.find?_congr fun r hr => ?_
  obtain ⟨hfirst, hlast⟩ := Dev.regions_aligned hw hr
  have hlo : r.first ≤ a ↔ r.first ≤ b := by omega
  have hhi : a ≤ r.last ↔ b ≤ r.last := by omega
  simp only [hlo, hhi]

/-- On an admitted device the same stands behind the two bytes of a word. -/
theorem Dev.kind_of_sameWord {d : Dev} (hw : d.wf = true) {a b : Nat} (h : a / 2 = b / 2) : d.kind a = d.kind b := by
  have hsfr : a ≤ 0x07FF ↔ b ≤ 0x07FF := by omega
  simp only [Dev.kind, hsfr, Dev.regionAt_of_sameWord hw h]

namespace Machine

theorem isRam_of_sameWord {d : Dev} (hw : d.wf = true) {a b : Nat} (h : a / 2 = b / 2) : isRam d a = isRam d b := by
  simp only [isRam, Dev.kind_of_sameWord hw h]

/-- A byte address and the address of the word that holds it are in the same word. -/
theorem wordAddr_sameWord (a : Word) : (wordAddr a).toNat / 2 = a.toNat / 2 := by
  have hmask : a.toNat / 2 &&& (2 ^ 15 - 1) = a.toNat / 2 % 2 ^ 15 := Nat.and_two_pow_sub_one_eq_mod _ 15
  have hlt := a.isLt
  rw [wordAddr, BitVec.toNat_and, Nat.and_div_two]
  exact hmask.trans (by omega)

theorem isOdd_eq_false_iff {a : Word} : isOdd a = false ↔ a.toNat % 2 = 0 := by
  simp [isOdd, BitVec.getLsbD]

/-- A word access that does not trap is at an even address (R53). -/
theorem even_of_writeTrap_none {d : Dev} {a : Word} (h : writeTrap d a .word = none) : a.toNat % 2 = 0 := by
  rw [← isOdd_eq_false_iff]
  unfold writeTrap at h
  split at h
  · cases h
  · next hodd => simpa using hodd

end Machine
end Sys2Proof
end

/-! ### Every step keeps the invariant (R13, R14, U37) -/

section
namespace Sys2Proof.Machine

theorem Inv.start {s : State} (hi : Inv s) : Inv s.start :=
  hi.of_same rfl rfl fun r => by cases r <;> rfl

theorem Inv.advance {s : State} (hi : Inv s) : Inv s.advance :=
  hi.of_same rfl rfl fun r => by cases r <;> rfl

theorem Inv.raise {s : State} (hi : Inv s) (c : AddressErrorCause) : Inv (s.raise c) :=
  hi.onlyRaised (.raise s c)

/-- RAM bytes written keep the invariant: each lies in the word whose address RAM backs (R50, R52). -/
theorem Inv.writeRam {s : State} (hi : Inv s) {a : Word} {sz : Size} (v : Word)
    (ht : writeTrap s.dev a sz = none) (hr : isRam s.dev (wordAddr a).toNat = true) : Inv (writeRam s a sz v) := by
  have ram : ∀ b, a.toNat / 2 = b / 2 → isRam s.dev b = true := fun b hb =>
    isRam_of_sameWord hi.devAdmitted ((wordAddr_sameWord a).trans hb) ▸ hr
  cases sz with
  | byte => exact hi.setByte _ (ram _ rfl)
  | word =>
    have heven := even_of_writeTrap_none ht
    exact (hi.setByte _ (ram _ rfl)).setByte _ (ram (a.toNat + 1) (by omega))

theorem Inv.storeEffect {a : Word} {sz : Size} {m w : State} (hi : Inv m) (h : StoreEffect m.dev a sz m w) : Inv w := by
  cases h with
  | trap c _ => exact hi.raise c
  | ctrl r v _ => exact hi.writeCtrl r v
  | other q _ _ _ _ => exact hi.setSfrs q
  | ram v ht hr => exact hi.writeRam v ht hr

theorem Effect.dev {i : Instr} {s m w : State} (h : Effect i s m w) : m.dev = s.dev :=
  h.touched.dev.trans (State.dmaTurns_dev s _)

/-- What an instruction does before the pc moves keeps the invariant: touching registers leaves it alone, and so does
any effect of its store. -/
theorem Inv.effect {i : Instr} {s m w : State} (hi : Inv s) (h : Effect i s m w) : Inv w := by
  have hm : Inv m := ((hi.dmaTurns _).onlyTouched h.touched).of_same rfl rfl fun r => by cases r <;> rfl
  rcases h.stored with ⟨-, rfl⟩ | ⟨u, a, sz, -, -, -, hs⟩
  · exact hm
  · exact hm.storeEffect (h.dev ▸ hs)

theorem Inv.exec {i : Instr} {s t : State} (hi : Inv s) (h : exec i s = .next t) : Inv t := by
  obtain ⟨m, w, he, ⟨-, rfl⟩ | ⟨lit, -, -, rfl⟩⟩ := exec_effect h
  · exact (hi.start.effect he).advance
  · exact (hi.start.effect he).of_same rfl rfl fun r => by cases r <;> rfl

/-- Settles O37: a step is the DMA controller's turn and an instruction, and both keep the invariant. -/
theorem stepKeepsInvariant : Obligations.StepKeepsInvariant := by
  intro s t hi h
  obtain ⟨-, i, -, hexec⟩ := step_cases h
  exact hi.dmaTurn.exec hexec

end Sys2Proof.Machine
end

/-! ### Control registers bit by bit (R14, decision D30) -/

section
namespace Sys2Proof.Machine

theorem modconMask_getLsbD {i : Nat} (hi : i < 16) : (0xCFFF : Word).getLsbD i = !decide (i = 12 ∨ i = 13) :=
  (by decide : ∀ i : Fin 16, (0xCFFF : Word).getLsbD i = !decide (i.val = 12 ∨ i.val = 13)) ⟨i, hi⟩

theorem startMask_getLsbD {i : Nat} (hi : i < 16) : (0xFFFE : Word).getLsbD i = !decide (i = 0) :=
  (by decide : ∀ i : Fin 16, (0xFFFE : Word).getLsbD i = !decide (i.val = 0)) ⟨i, hi⟩

theorem endMask_getLsbD {i : Nat} (hi : i < 16) : (0x0001 : Word).getLsbD i = decide (i = 0) :=
  (by decide : ∀ i : Fin 16, (0x0001 : Word).getLsbD i = decide (i.val = 0)) ⟨i, hi⟩

/-- Each bit of what a control register holds of a value: the printed constant where the bit is fixed, else the bit of
the value. -/
theorem CtrlReg.fix_getLsbD (r : CtrlReg) (v : Word) {i : Nat} (hi : i < 16) :
    (CtrlReg.fix r v).getLsbD i = (fixedBit r i).getD (v.getLsbD i) := by
  cases r with
  | modcon =>
    rw [CtrlReg.fix, BitVec.getLsbD_and, modconMask_getLsbD hi, fixedBit]
    split <;> simp [*]
  | xmodsrt | ymodsrt =>
    rw [CtrlReg.fix, BitVec.getLsbD_and, startMask_getLsbD hi, fixedBit]
    split <;> simp [*]
  | xmodend | ymodend =>
    rw [CtrlReg.fix, BitVec.getLsbD_or, endMask_getLsbD hi, fixedBit]
    split <;> simp [*]
  | xbrev => rfl

/-- A writable bit is held as it is, and past bit 15 there is none on either side. -/
theorem CtrlReg.fix_getLsbD_writable {r : CtrlReg} (v : Word) {i : Nat} (h : fixedBit r i = none) :
    (CtrlReg.fix r v).getLsbD i = v.getLsbD i := by
  rcases Nat.lt_or_ge i 16 with hi | hi
  · rw [CtrlReg.fix_getLsbD r v hi, h]; rfl
  · rw [BitVec.getLsbD_of_ge _ i hi, BitVec.getLsbD_of_ge _ i hi]

/-- A control register holds the same of two values that agree in its writable bits. -/
theorem CtrlReg.fix_congr {r : CtrlReg} {v v' : Word}
    (h : ∀ i, fixedBit r i = none → v.getLsbD i = v'.getLsbD i) : CtrlReg.fix r v = CtrlReg.fix r v' := by
  refine BitVec.eq_of_getLsbD_eq fun i hi => ?_
  rw [CtrlReg.fix_getLsbD r v hi, CtrlReg.fix_getLsbD r v' hi]
  cases hb : fixedBit r i with
  | none => exact h i hb
  | some b => rfl

/-- A write stores of the value what the register holds of it, so it sees nothing else of it. -/
theorem State.writeCtrl_congr (s : State) {r : CtrlReg} {v v' : Word} (h : CtrlReg.fix r v = CtrlReg.fix r v') :
    s.writeCtrl r v = s.writeCtrl r v' := by
  cases r <;> simp only [State.writeCtrl, State.storeCtrl, h]

/-- Settles O3, bit by bit over what a control register holds of a value. -/
theorem controlRegisterAccess : Obligations.ControlRegisterAccess := by
  refine ⟨fun s r i b hb hi => ?fixed, fun s r i h => ?writable, fun s r v i hi => ?written, fun s r v v' h => ?unseen,
    fun s r k v h => ?others⟩
  case fixed => rw [State.readCtrl, CtrlReg.fix_getLsbD r _ hi, hb]; rfl
  case writable => exact CtrlReg.fix_getLsbD_writable _ h
  case written => rw [State.writeCtrl_readCtrl, if_pos rfl, CtrlReg.fix_getLsbD r v hi]
  case unseen => exact s.writeCtrl_congr (CtrlReg.fix_congr h)
  case others => rw [State.writeCtrl_readCtrl, if_neg h]

end Sys2Proof.Machine
end

/-! ### No step changes the parameters (R33) -/

section
namespace Sys2Proof.Machine

theorem ParamsKept.trans {s t u : State} (h₁ : ParamsKept s t) (h₂ : ParamsKept t u) : ParamsKept s u := by
  obtain ⟨hdev, hprogram, hsymbols, hdma⟩ := h₁
  obtain ⟨hdev', hprogram', hsymbols', hdma'⟩ := h₂
  exact ⟨hdev'.trans hdev, hprogram'.trans hprogram, hsymbols'.trans hsymbols, hdma'.trans hdma⟩

theorem OnlyTouched.paramsKept {rs : List Reg} {s t : State} (h : OnlyTouched rs s t) : ParamsKept s t := by
  rw [h.same]
  exact ⟨rfl, rfl, rfl, rfl⟩

/-- Neither what an instruction touches nor its store changes a parameter of the step. -/
theorem Effect.paramsKept {i : Instr} {s m w : State} (h : Effect i s m w) :
    ParamsKept (s.dmaTurns (turnsWithin i)) w := by
  have hm : ParamsKept (s.dmaTurns (turnsWithin i)) m := h.touched.paramsKept
  rcases h.stored with ⟨-, rfl⟩ | ⟨u, a, sz, -, -, -, hs⟩
  · exact hm
  · obtain ⟨-, -, -, -, hw, -⟩ := hs.keeps
    exact hm.trans hw

/-- Over the DMA controller's turns within it an instruction keeps the parameters of the step, the schedule less the
bursts of those turns among them. -/
theorem exec_paramsKept {i : Instr} {s t : State} (h : exec i s = .next t) :
    ParamsKept (s.dmaTurns (turnsWithin i)) t := by
  obtain ⟨m, w, he, ht⟩ := exec_effect h
  have hstart : ParamsKept (s.dmaTurns (turnsWithin i)) (s.start.dmaTurns (turnsWithin i)) := by simp [ParamsKept]
  have hend : ParamsKept w t := by
    rcases ht with ⟨-, rfl⟩ | ⟨lit, -, -, rfl⟩ <;> exact ⟨rfl, rfl, rfl, rfl⟩
  exact (hstart.trans he.paramsKept).trans hend

/-- Settles O36: the turn before the instruction takes the first burst, the turns within it one each. -/
theorem parametersNeverChange : Obligations.ParametersNeverChange := by
  intro s t h
  obtain ⟨-, i, hfetch, hexec⟩ := step_cases h
  obtain ⟨hdev, hprogram, hsymbols, hdma⟩ := exec_paramsKept hexec
  refine ⟨by simpa using hdev, by simpa using hprogram, by simpa using hsymbols, i, fetch_dmaTurn s ▸ hfetch, ?_⟩
  rw [hdma, State.dmaTurns_dma, State.dmaTurn_dma, List.drop_tail, Nat.add_comm]

end Sys2Proof.Machine
end

/-! ### The select predicates (R27, R29) -/

section
namespace Sys2Proof.Machine

theorem selects_iff {field : BitVec 4} {n : Reg} : selects field n = true ↔ field ≠ 15#4 ∧ field.toNat = n.val := by
  simp only [selects, Bool.and_eq_true, bne_iff_ne, beq_iff_eq]

/-- A 4-bit field of a control register as a number. -/
theorem field_toNat (v : Word) (k : Nat) : (v.extractLsb' k 4).toNat = v.toNat / 2 ^ k % 16 := by
  rw [BitVec.extractLsb'_toNat, Nat.shiftRight_eq_div_pow]

/-- Settles O4: each predicate is an enable bit and a select field. -/
theorem selectPredicates : Obligations.SelectPredicates := by
  intro s n
  refine ⟨?xModSel, ?yModSel, ?bitRevSel⟩
  case xModSel =>
    rw [State.xModSel, Bool.and_eq_true, selects_iff, State.xwm, field_toNat, pow_zero, Nat.div_one, State.xmoden]
  case yModSel => rw [State.yModSel, Bool.and_eq_true, selects_iff, State.ywm, field_toNat, State.ymoden]; rfl
  case bitRevSel => rw [State.bitRevSel, Bool.and_eq_true, selects_iff, State.bwm, field_toNat, State.bren]; rfl

theorem AfterReset.readCtrl_modcon {s : State} (h : AfterReset s) : s.readCtrl .modcon = 0 := by
  rw [State.readCtrl, State.storedCtrl, h.modconZero]; rfl

/-- A select field that holds 0 selects W0 alone. -/
theorem selects_zero {n : Reg} : selects 0 n = true ↔ n = 0 := by
  rw [selects_iff, Fin.ext_iff]
  exact ⟨fun ⟨_, h⟩ => h.symm, fun h => ⟨by decide, h.symm⟩⟩

/-- Settles O1: with MODCON at 0 the enable bits of modulo addressing are clear and BWM selects W0. -/
theorem afterResetModifiers : Obligations.AfterResetModifiers := by
  intro s h
  have hmodcon := h.readCtrl_modcon
  have hxmoden : s.xmoden = false := by rw [State.xmoden, hmodcon]; rfl
  have hymoden : s.ymoden = false := by rw [State.ymoden, hmodcon]; rfl
  have hywm : s.ywm = 0 := by rw [State.ywm, hmodcon]; rfl
  have hbwm : s.bwm = 0 := by rw [State.bwm, hmodcon]; rfl
  refine ⟨hmodcon, hxmoden, hymoden, by rw [State.xwm, hmodcon]; rfl, hywm, by rw [hywm]; rfl, hbwm,
    fun n => ⟨by rw [State.xModSel, hxmoden, Bool.false_and], by rw [State.yModSel, hymoden, Bool.false_and]⟩,
    fun n => ?_⟩
  rw [State.bitRevSel, Bool.and_eq_true, hbwm, selects_zero]

end Sys2Proof.Machine
end

/-! ### What the DMA controller's turns change (R70, D16) -/

section
namespace Sys2Proof.Machine

/-- A byte the DMA controller writes changes no byte outside DMA RAM. -/
theorem dmaWrite_read_other {d : Dev} (m : Memory) (x : DmaWrite) {b : Nat}
    (h : d.kind b ≠ .dpsram ∨ d.hasDmaRam = false) : Memory.read (dmaWrite d m x) b = Memory.read m b := by
  unfold dmaWrite
  split
  · next hx =>
    obtain ⟨hram, hkind⟩ := hx
    refine Memory.read_write_other m x.value ?_
    rintro rfl
    simp [hram, hkind] at h
  · rfl

theorem dmaBurst_read_other {d : Dev} (m : Memory) (xs : List DmaWrite) {b : Nat}
    (h : d.kind b ≠ .dpsram ∨ d.hasDmaRam = false) : Memory.read (dmaBurst d m xs) b = Memory.read m b := by
  induction xs generalizing m with
  | nil => rfl
  | cons x xs ih => rw [dmaBurst, ih, dmaWrite_read_other m x h]

theorem State.dmaTurns_read_other (s : State) (k : Nat) {b : Nat}
    (h : s.dev.kind b ≠ .dpsram ∨ s.dev.hasDmaRam = false) :
    Memory.read (s.dmaTurns k).mem b = Memory.read s.mem b := by
  induction k with
  | zero => rfl
  | succ k ih => rw [State.dmaTurns, State.dmaTurn_mem, dmaBurst_read_other _ _ (by simpa using h), ih]

/-- Turns change memory and take bursts off the schedule, and nothing else. -/
theorem State.dmaTurns_eq (s : State) (k : Nat) :
    s.dmaTurns k = { s with mem := (s.dmaTurns k).mem, dma := s.dma.drop k } := by
  rw [← State.dmaTurns_dma]
  induction k with
  | zero => rfl
  | succ k ih =>
    exact congrArg (fun t : State => { t with mem := (s.dmaTurns (k + 1)).mem, dma := (s.dmaTurns (k + 1)).dma }) ih

theorem State.dmaTurns_of_quiet {s : State} (h : s.dma = []) (k : Nat) : s.dmaTurns k = s := by
  induction k with
  | zero => rfl
  | succ k ih => rw [State.dmaTurns, ih, State.dmaTurn_of_quiet h]

/-- A scheduled byte reaches DMA RAM, whatever its value. -/
theorem State.dmaTurn_read_scheduled (s : State) {b : Nat} (v : Byte) (hk : s.dev.kind b = .dpsram)
    (hd : s.dev.hasDmaRam = true) : Memory.read ({ s with dma := [[⟨b, v⟩]] } : State).dmaTurn.mem b = some v := by
  show Memory.read (dmaWrite s.dev s.mem ⟨b, v⟩) b = some v
  rw [dmaWrite, if_pos ⟨hd, hk⟩, Memory.read_write_same]

/-- Settles O13, turn by turn: each writes bytes of DMA RAM only. -/
theorem dmaReachesDmaRamOnly : Obligations.DmaReachesDmaRamOnly :=
  ⟨fun s => ⟨fun k _ h => s.dmaTurns_read_other k h, s.dmaTurns_eq, rfl, fun k h => State.dmaTurns_of_quiet h k⟩,
    fun s _ v hk hd => s.dmaTurn_read_scheduled v hk hd⟩

end Sys2Proof.Machine
end

/-! ### An access by what stands behind its address (R60 to R63): RAM, a control register, another SFR, nothing, PSV -/

section
namespace Sys2Proof.Machine

/-! #### Bytes and addresses of words -/

/-- A word is its two bytes, the second the less significant (R50). -/
theorem wordOfBytes_extractLsb' (v : Word) : wordOfBytes (v.extractLsb' 8 8) (v.extractLsb' 0 8) = v :=
  BitVec.extractLsb'_append_extractLsb'

/-- A byte on the lower 8 bits of the bus leaves the upper 8 bits zero (R52). -/
theorem onLowBits_byte_high (v : Word) : (onLowBits .byte v).extractLsb' 8 8 = 0#8 := by
  refine BitVec.eq_of_getLsbD_eq fun i hi => ?_
  simp [onLowBits, BitVec.getLsbD_extractLsb', BitVec.getLsbD_setWidth]

theorem toNat_add_one_of_even {a : Word} (h : isOdd a = false) : (a + 1).toNat = a.toNat + 1 := by
  have hlt := a.isLt
  rw [isOdd_eq_false_iff] at h
  exact BitVec.toNat_add_of_lt (show a.toNat + 1 < 2 ^ 16 by omega)

theorem isOdd_add_one {a : Word} (h : isOdd a = false) : isOdd (a + 1) = true := by
  have hadd := toNat_add_one_of_even h
  rw [isOdd_eq_false_iff] at h
  rw [← Bool.not_eq_false, isOdd_eq_false_iff]
  omega

/-- The odd address after an even one is in the same word. -/
theorem wordAddr_add_one {a : Word} (h : isOdd a = false) : wordAddr (a + 1) = a := by
  have hadd := toNat_add_one_of_even h
  have heven := isOdd_wordAddr (a + 1)
  have hsame := wordAddr_sameWord (a + 1)
  rw [isOdd_eq_false_iff] at h heven
  exact BitVec.eq_of_toNat_eq (by omega)

/-! #### The alignment test (R53) -/

theorem not_misaligned {a : Word} {sz : Size} (h : sz = .word → isOdd a = false) : ¬(sz = .word ∧ isOdd a = true) :=
  fun ⟨hsz, hodd⟩ => Bool.eq_false_iff.mp (h hsz) hodd

theorem memRead_of_aligned (s : State) {a : Word} {sz : Size} (h : sz = .word → isOdd a = false) :
    memRead s a sz = readAligned s a sz := by
  rw [memRead, if_neg (not_misaligned h)]

theorem memRead_of_odd (s : State) {a : Word} (h : isOdd a = true) :
    memRead s a .word = completeMisaligned s fun t => readAligned t (wordAddr a) .word := by
  rw [memRead, if_pos ⟨rfl, h⟩]

theorem memReadX_of_even (s : State) {a : Word} (h : isOdd a = false) : memReadX s a = readAlignedX s a := by
  simp [memReadX, h]

theorem memReadX_of_odd (s : State) {a : Word} (h : isOdd a = true) :
    memReadX s a = completeMisaligned s fun t => readAlignedX t (wordAddr a) := by
  rw [memReadX, if_pos h]

theorem memReadY_of_even (s : State) {a : Word} (h : isOdd a = false) : memReadY s a = readAlignedY s a := by
  simp [memReadY, h]

theorem memReadY_of_odd (s : State) {a : Word} (h : isOdd a = true) :
    memReadY s a = completeMisaligned s fun t => readAlignedY t (wordAddr a) := by
  rw [memReadY, if_pos h]

theorem writeTrap_of_odd (d : Dev) {a : Word} (h : isOdd a = true) : writeTrap d a .word = some .misalignedWrite := by
  rw [writeTrap, if_pos ⟨rfl, h⟩]

/-- An aligned write traps exactly where nothing stands behind the address. -/
theorem writeTrap_of_aligned (d : Dev) {a : Word} {sz : Size} (h : sz = .word → isOdd a = false) :
    writeTrap d a sz = if d.kind (wordAddr a).toNat = .absent then some .unimplementedWrite else none := by
  rw [writeTrap, if_neg (not_misaligned h)]

theorem memWrite_of_trap {s : State} {a : Word} {sz : Size} {c : AddressErrorCause} (v : Word)
    (h : writeTrap s.dev a sz = some c) : memWrite s a sz v = .next (s.raise c) := by
  simp only [memWrite, h]

end Sys2Proof.Machine
end

section
namespace Sys2Proof

/-! #### The addresses of the control registers (R41, U37) -/

theorem Dev.addrOf_of_ctrlAt {d : Dev} {a : Word} {r : CtrlReg} (h : d.ctrlAt a = some r) : d.addrOf r = a := by
  unfold Dev.ctrlAt at h
  split_ifs at h with h₁ h₂ h₃ h₄ h₅ h₆ <;> cases h <;> exact Eq.symm ‹_›

theorem Dev.ctrlAt_eq_none_iff {d : Dev} {a : Word} : d.ctrlAt a = none ↔ ∀ r, d.addrOf r ≠ a := by
  constructor
  · rintro h r rfl
    unfold Dev.ctrlAt at h
    split_ifs at h with h₁ h₂ h₃ h₄ h₅ h₆
    exact match r with
      | .modcon => h₁ rfl
      | .xmodsrt => h₂ rfl
      | .xmodend => h₃ rfl
      | .ymodsrt => h₄ rfl
      | .ymodend => h₅ rfl
      | .xbrev => h₆ rfl
  · intro h
    by_contra hsome
    obtain ⟨r, hr⟩ := Option.ne_none_iff_exists'.mp hsome
    exact h r (Dev.addrOf_of_ctrlAt hr)

/-- The six control registers, in the order of `Dev.addrs`. -/
def CtrlReg.all : List CtrlReg := [.modcon, .xmodsrt, .xmodend, .ymodsrt, .ymodend, .xbrev]

theorem CtrlReg.mem_all (r : CtrlReg) : r ∈ CtrlReg.all := by
  cases r <;> decide

theorem Dev.addrs_eq_map (d : Dev) : d.addrs = CtrlReg.all.map d.addrOf := rfl

theorem Dev.addrOf_injective {d : Dev} (hw : d.wf = true) {r k : CtrlReg} (h : d.addrOf r = d.addrOf k) : r = k := by
  simp only [Dev.wf, Bool.and_eq_true, decide_eq_true_eq] at hw
  obtain ⟨⟨⟨-, hnodup⟩, -⟩, -⟩ := hw
  rw [Dev.addrs_eq_map] at hnodup
  exact List.inj_on_of_nodup_map hnodup r.mem_all k.mem_all h

/-- On an admitted device the control register found at a register's address is that register. -/
theorem Dev.ctrlAt_addrOf {d : Dev} (hw : d.wf = true) (r : CtrlReg) : d.ctrlAt (d.addrOf r) = some r := by
  cases h : d.ctrlAt (d.addrOf r) with
  | none => exact absurd rfl (Dev.ctrlAt_eq_none_iff.mp h r)
  | some k => rw [Dev.addrOf_injective hw (Dev.addrOf_of_ctrlAt h)]

/-- On an admitted device a register's address is even and in the SFR range. -/
theorem Dev.addrOf_admitted {d : Dev} (hw : d.wf = true) (r : CtrlReg) :
    (d.addrOf r).toNat % 2 = 0 ∧ (d.addrOf r).toNat ≤ 0x07FE := by
  simp only [Dev.wf, Bool.and_eq_true, List.all_eq_true, decide_eq_true_eq, beq_iff_eq] at hw
  obtain ⟨⟨⟨⟨-, haddrs⟩, -⟩, -⟩, -⟩ := hw
  exact haddrs _ (List.mem_map_of_mem r.mem_all)

theorem Dev.kind_addrOf {d : Dev} (hw : d.wf = true) (r : CtrlReg) : d.kind (d.addrOf r).toNat = .sfr := by
  have := (Dev.addrOf_admitted hw r).2
  rw [Dev.kind, if_pos (by omega)]

theorem Dev.isOdd_addrOf {d : Dev} (hw : d.wf = true) (r : CtrlReg) : Machine.isOdd (d.addrOf r) = false :=
  Machine.isOdd_eq_false_iff.mpr (Dev.addrOf_admitted hw r).1

end Sys2Proof
end

section
namespace Sys2Proof.Machine

/-! #### The word at an address, by what stands behind it -/

theorem isRam_iff {d : Dev} {a : Nat} : isRam d a = true ↔ d.kind a = .ram ∨ d.kind a = .dpsram := by
  simp [isRam]

section Reads

variable {s : State} {a : Word} {sz : Size}

theorem readAligned_of_absent (h : s.dev.kind (wordAddr a).toNat = .absent) :
    readAligned s a sz = .next (0, s.raise .unimplementedRead) := by
  simp only [readAligned, h]

theorem readAligned_of_psv (h : s.dev.kind (wordAddr a).toNat = .psv) : readAligned s a sz = readPsv s a sz := by
  simp only [readAligned, h]

theorem readAligned_of_ctrl {r : CtrlReg} (h : s.dev.kind (wordAddr a).toNat = .sfr)
    (hc : s.dev.ctrlAt (wordAddr a) = some r) : readAligned s a sz = .next (onBus sz a (s.readCtrl r), s) := by
  simp only [readAligned, h, hc]

theorem readAligned_of_otherSfr (h : s.dev.kind (wordAddr a).toNat = .sfr)
    (hc : s.dev.ctrlAt (wordAddr a) = none) : readAligned s a sz = readOtherSfr s a sz := by
  simp only [readAligned, h, hc]

theorem readAligned_of_ram (h : isRam s.dev (wordAddr a).toNat = true) : readAligned s a sz = readRam s a sz := by
  rcases isRam_iff.mp h with h | h <;> simp only [readAligned, h]

theorem readAlignedX_of_absent (h : s.dev.kind a.toNat = .absent) :
    readAlignedX s a = .next (0, s.raise .unimplementedRead) := by
  simp only [readAlignedX, h]

theorem readAlignedX_of_psv (h : s.dev.kind a.toNat = .psv) : readAlignedX s a = readPsv s a .word := by
  simp only [readAlignedX, h]

theorem readAlignedX_of_sfr (h : s.dev.kind a.toNat = .sfr) : readAlignedX s a = readAligned s a .word := by
  simp only [readAlignedX, h]

theorem readAlignedX_of_ram (h : isRam s.dev a.toNat = true) :
    readAlignedX s a = if s.dev.space a.toNat = .y then .next (0, s) else readAligned s a .word := by
  rcases isRam_iff.mp h with h | h <;> simp only [readAlignedX, h]

theorem readAlignedY_of_absent (h : s.dev.kind a.toNat = .absent) :
    readAlignedY s a = .next (0, s.raise .unimplementedRead) := by
  simp only [readAlignedY, h]

theorem readAlignedY_of_psv (h : s.dev.kind a.toNat = .psv) : readAlignedY s a = .refused .psvYPrefetch := by
  simp only [readAlignedY, h]

theorem readAlignedY_of_sfr (h : s.dev.kind a.toNat = .sfr) : readAlignedY s a = .next (0, s) := by
  simp only [readAlignedY, h]

theorem readAlignedY_of_ram (h : isRam s.dev a.toNat = true) :
    readAlignedY s a = if s.dev.space a.toNat = .x then .next (0, s) else readRam s a .word := by
  rcases isRam_iff.mp h with h | h <;> simp only [readAlignedY, h]

theorem readOtherSfr_of_refuse (h : s.dev.sfrRead = .refuse) : readOtherSfr s a sz = .refused .otherSfr := by
  simp only [readOtherSfr, h]

/-- Another SFR of a device that gives SfrRead a behaviour delivers a value of the access's size (R52). -/
theorem readOtherSfr_of_given (h : s.dev.sfrRead = .given) :
    ∃ v q, readOtherSfr s a sz = .next (v, s.setSfrs q) ∧ (sz = .byte → v.extractLsb' 8 8 = 0#8) := by
  simp only [readOtherSfr, h]
  exact ⟨_, _, rfl, fun hsz => hsz ▸ onLowBits_byte_high _⟩

theorem readPsv_of_refuse (h : s.dev.psvRead = .refuse) : readPsv s a sz = .refused .psvRead := by
  simp only [readPsv, h]

/-- A PSV-mapped address of a device that gives PsvRead a behaviour delivers a value of the access's size (R52). -/
theorem readPsv_of_given (h : s.dev.psvRead = .given) :
    ∃ v, readPsv s a sz = .next (v, { s with freeCount := s.freeCount + 1 }) ∧
      (sz = .byte → v.extractLsb' 8 8 = 0#8) := by
  simp only [readPsv, h]
  exact ⟨_, rfl, fun hsz => hsz ▸ onLowBits_byte_high _⟩

/-! #### Reads of what is known -/

theorem readRam_of_holdsWord {v : Word} (h : HoldsWord s a v) : readRam s a .word = .next (v, s) := by
  obtain ⟨-, -, hlo, hhi⟩ := h
  simp only [readRam, hlo, hhi, wordOfBytes_extractLsb']

theorem readAligned_of_holdsWord {v : Word} (h : HoldsWord s a v) : readAligned s a .word = .next (v, s) := by
  obtain ⟨heven, hram, -⟩ := id h
  rw [readAligned_of_ram (by rwa [wordAddr_of_even heven]), readRam_of_holdsWord h]

theorem memRead_of_holdsWord {v : Word} (h : HoldsWord s a v) : memRead s a .word = .next (v, s) := by
  rw [memRead_of_aligned s fun _ => h.1, readAligned_of_holdsWord h]

theorem memRead_of_holdsByte {b : Byte} (h : HoldsByte s a b) : memRead s a .byte = .next (b.zeroExtend 16, s) := by
  obtain ⟨hram, hb⟩ := h
  rw [memRead_of_aligned s (sz := .byte) nofun, readAligned_of_ram hram]
  simp only [readRam, hb]

theorem readAligned_of_wordDelivers {v : Word} (h : WordDelivers s a v) : readAligned s a .word = .next (v, s) := by
  obtain hword | ⟨hw, r, rfl, rfl⟩ := h
  · exact readAligned_of_holdsWord hword
  · have heven := wordAddr_of_even (Dev.isOdd_addrOf hw r)
    exact readAligned_of_ctrl (heven.symm ▸ Dev.kind_addrOf hw r) (heven.symm ▸ Dev.ctrlAt_addrOf hw r)

theorem readAlignedX_of_xDelivers {v : Word} (h : XDelivers s a v) : readAlignedX s a = .next (v, s) := by
  obtain ⟨heven, ⟨hram, hy, rfl⟩ | ⟨hx, hword⟩ | ⟨hsfr, r, hr, rfl⟩⟩ := h
  · rw [readAlignedX_of_ram hram, if_pos hy]
  · obtain ⟨-, hram, -⟩ := id hword
    rw [readAlignedX_of_ram hram, if_neg (by simp [hx]), readAligned_of_holdsWord hword]
  · rw [readAlignedX_of_sfr hsfr, readAligned_of_ctrl (r := r) (by rwa [wordAddr_of_even heven])
      (by rwa [wordAddr_of_even heven]), onBus]

theorem readAlignedY_of_yDelivers {v : Word} (h : YDelivers s a v) : readAlignedY s a = .next (v, s) := by
  obtain ⟨-, ⟨⟨hram, hx⟩, rfl⟩ | ⟨hsfr, rfl⟩ | ⟨hy, hword⟩⟩ := h
  · rw [readAlignedY_of_ram hram, if_pos hx]
  · exact readAlignedY_of_sfr hsfr
  · obtain ⟨-, hram, -⟩ := id hword
    rw [readAlignedY_of_ram hram, if_neg (by simp [hy]), readRam_of_holdsWord hword]

/-! #### Misaligned reads (R53, logs 13 and 33) -/

theorem completeMisaligned_of_next {aligned : State → Result Word} {p : Word × State}
    (h : aligned (s.raise .misalignedRead) = .next p) : completeMisaligned s aligned = .next p := by
  simp only [completeMisaligned, h]

theorem completeMisaligned_of_refused {aligned : State → Result Word} {q : Refusal}
    (h : aligned (s.raise .misalignedRead) = .refused q) :
    completeMisaligned s aligned =
      .next (Config.freeWord s.freeCount, { s.raise .misalignedRead with freeCount := s.freeCount + 1 }) := by
  simp only [completeMisaligned, h]

/-- A misaligned read of a PSV-mapped word draws one free value, whether or not the device gives PsvRead a behaviour. -/
theorem completeMisaligned_of_psv {aligned : State → Result Word}
    (h : aligned (s.raise .misalignedRead) = readPsv (s.raise .misalignedRead) a .word) :
    ∃ v, completeMisaligned s aligned =
      .next (v, { s.raise .misalignedRead with freeCount := s.freeCount + 1 }) := by
  cases hd : s.dev.psvRead with
  | refuse => exact ⟨_, completeMisaligned_of_refused (h.trans (readPsv_of_refuse hd))⟩
  | given =>
    obtain ⟨v, hv, -⟩ := readPsv_of_given (s := s.raise .misalignedRead) (a := a) (sz := .word) hd
    exact ⟨v, completeMisaligned_of_next (h.trans hv)⟩

/-- With no error on record a misaligned read records its own. -/
theorem completeMisaligned_records {aligned : State → Result Word} (hf : s.faultRecord = none)
    (hal : ∀ u v t, aligned u = .next (v, t) → OnlyRaised u t) :
    ∃ v t, completeMisaligned s aligned = .next (v, t) ∧ t.faultRecord = some .misalignedRead := by
  obtain ⟨v, t, h, -, c, hc, ht⟩ := completeMisaligned_next s aligned hal
  rw [State.raise_faultRecord, hf] at hc
  exact ⟨v, t, h, ht.trans hc.symm⟩

end Reads

/-! #### Writes, by what stands behind the address (R61) -/

section Writes

variable {s : State} {a : Word} {sz : Size}

theorem writeTrap_of_present {k : AddrKind} (hal : sz = .word → isOdd a = false)
    (h : s.dev.kind (wordAddr a).toNat = k) (hk : k ≠ .absent) : writeTrap s.dev a sz = none := by
  rw [writeTrap_of_aligned s.dev hal, h, if_neg hk]

theorem memWrite_of_psv (v : Word) (hal : sz = .word → isOdd a = false) (h : s.dev.kind (wordAddr a).toNat = .psv) :
    memWrite s a sz v = .refused .psvWrite := by
  simp only [memWrite, writeTrap_of_present hal h nofun, h]

theorem memWrite_of_ctrl {r : CtrlReg} (v : Word) (hal : sz = .word → isOdd a = false)
    (h : s.dev.kind (wordAddr a).toNat = .sfr) (hc : s.dev.ctrlAt (wordAddr a) = some r) :
    memWrite s a sz v = .next (s.writeCtrl r (merged sz a (s.readCtrl r) v)) := by
  simp only [memWrite, writeTrap_of_present hal h nofun, h, hc]

theorem memWrite_of_otherSfr (v : Word) (hal : sz = .word → isOdd a = false)
    (h : s.dev.kind (wordAddr a).toNat = .sfr) (hc : s.dev.ctrlAt (wordAddr a) = none) :
    memWrite s a sz v = writeOtherSfr s a sz v := by
  simp only [memWrite, writeTrap_of_present hal h nofun, h, hc]

theorem memWrite_byte_of_ram (v : Word) (h : isRam s.dev (wordAddr a).toNat = true) :
    memWrite s a .byte v = .next (s.setByte a.toNat (v.extractLsb' 0 8)) := by
  rcases isRam_iff.mp h with h | h <;>
    simp only [memWrite, writeTrap_of_present (sz := .byte) nofun h nofun, h, writeRam]

end Writes

/-- A word written to RAM is held there (R50). -/
theorem HoldsWord.setWord {s : State} {a : Word} (v : Word) (h : RamWritable s.dev a) :
    HoldsWord (s.setWord a.toNat v) a v := by
  obtain ⟨heven, hram⟩ := h
  refine ⟨heven, hram, ?_, Memory.read_write_same _ _ _⟩
  rw [State.setWord_mem, Memory.read_write_other _ _ (by omega), Memory.read_write_same]

end Sys2Proof.Machine
end

/-! ### Words and bytes of RAM (R50, R52) -/

section
namespace Sys2Proof.Machine

/-- Settles O5: a word written is held, and a word held is read. -/
theorem wordsAreLittleEndian : Obligations.WordsAreLittleEndian := by
  refine ⟨fun s a v h => ?written, fun s a hi lo h hlo hhi => memRead_of_holdsWord ?held⟩
  case written =>
    have hheld := HoldsWord.setWord v h
    obtain ⟨-, -, hlo, hhi⟩ := id hheld
    exact ⟨_, memWrite_ram v h, hlo, hhi, memRead_of_holdsWord hheld⟩
  case held =>
    obtain ⟨heven, hram⟩ := h
    exact ⟨heven, hram, hlo.trans (congrArg some BitVec.extractLsb'_append_eq_right.symm),
      hhi.trans (congrArg some BitVec.extractLsb'_append_eq_left.symm)⟩

/-- Settles O6: a byte access reads and writes the one byte at its address. -/
theorem bytesAreAddressed : Obligations.BytesAreAddressed := fun _ _ h =>
  ⟨fun _ hb => memRead_of_holdsByte ⟨h, hb⟩, fun v => ⟨_, memWrite_byte_of_ram v h, Memory.read_write_same _ _ _,
    fun _ hc => Memory.read_write_other _ _ hc⟩⟩

end Sys2Proof.Machine
end

/-! ### Misaligned and unimplemented accesses, and the split view (R53, R56, R62, R63) -/

section
namespace Sys2Proof.Machine

/-- Settles O7: a misaligned read is the read of the aligned word in the state that has the error on record, and what
that word delivers does not depend on the record. -/
theorem misalignedWordAccess : Obligations.MisalignedWordAccess := by
  intro s a hodd
  refine ⟨fun v => memWrite_of_trap v (writeTrap_of_odd s.dev hodd), fun v h => ?word, fun v h => ?x, fun v h => ?y,
    fun hf => ?completes⟩
  case word =>
    rw [memRead_of_odd s hodd]
    exact completeMisaligned_of_next (readAligned_of_wordDelivers h)
  case x =>
    rw [memReadX_of_odd s hodd]
    exact completeMisaligned_of_next (readAlignedX_of_xDelivers h)
  case y =>
    rw [memReadY_of_odd s hodd]
    exact completeMisaligned_of_next (readAlignedY_of_yDelivers h)
  case completes =>
    rw [memRead_of_odd s hodd, memReadX_of_odd s hodd, memReadY_of_odd s hodd]
    exact ⟨completeMisaligned_records hf fun _ _ _ => readAligned_onlyRaised,
      completeMisaligned_records hf fun _ _ _ => readAlignedX_onlyRaised,
      completeMisaligned_records hf fun _ _ _ => readAlignedY_onlyRaised⟩

/-- Settles O8, by what the alignment test passes on. -/
theorem unimplementedAccess : Obligations.UnimplementedAccess := by
  refine ⟨fun s a sz habsent hal => ⟨?read, fun v => ?write⟩, fun s a habsent heven => ⟨?x, ?y⟩⟩
  case read => rw [memRead_of_aligned s hal, readAligned_of_absent habsent]
  case write => exact memWrite_of_trap v (by rw [writeTrap_of_aligned s.dev hal, if_pos habsent])
  case x => rw [memReadX_of_even s heven, readAlignedX_of_absent habsent]
  case y => rw [memReadY_of_even s heven, readAlignedY_of_absent habsent]

/-- Settles O10: an even prefetch is the split view's read. -/
theorem splitView : Obligations.SplitView := by
  refine ⟨fun s a v h => ?x, fun s a v h => ?y⟩
  case x => rw [memReadX_of_even s h.1, readAlignedX_of_xDelivers h]
  case y => rw [memReadY_of_even s h.1, readAlignedY_of_yDelivers h]

/-- Settles O11: an aligned access is by the device's parameter, a misaligned one completes over it. -/
theorem psvAccess : Obligations.PsvAccess := by
  refine ⟨fun s a sz hpsv hal => ⟨fun v => memWrite_of_psv v hal hpsv, ?aligned⟩, fun s a hpsv heven => ?prefetch,
    fun s a hpsv hodd => ⟨fun v => memWrite_of_trap v (writeTrap_of_odd s.dev hodd), ?misaligned⟩⟩
  case aligned =>
    rw [memRead_of_aligned s hal, readAligned_of_psv hpsv]
    exact ⟨readPsv_of_refuse, readPsv_of_given⟩
  case prefetch =>
    rw [wordAddr_of_even heven] at hpsv
    rw [memReadX_of_even s heven, memReadY_of_even s heven, readAlignedX_of_psv hpsv, readAlignedY_of_psv hpsv]
    exact ⟨rfl, readPsv_of_refuse, fun hd => (readPsv_of_given hd).imp fun _ => And.left⟩
  case misaligned =>
    have hpsv' : s.dev.kind (wordAddr (wordAddr a)).toNat = .psv := by
      rwa [wordAddr_of_even (isOdd_wordAddr a)]
    rw [memRead_of_odd s hodd, memReadX_of_odd s hodd, memReadY_of_odd s hodd]
    exact ⟨⟨_, completeMisaligned_of_refused (readAlignedY_of_psv hpsv)⟩,
      completeMisaligned_of_psv (readAligned_of_psv hpsv'), completeMisaligned_of_psv (readAlignedX_of_psv hpsv)⟩

end Sys2Proof.Machine
end

/-! ### The control registers and the other SFRs in SFR space (R41, D21, D22) -/

section
namespace Sys2Proof.Machine

theorem onBus_byte_of_even {a : Word} (v : Word) (h : isOdd a = false) :
    onBus .byte a v = (v.extractLsb' 0 8).zeroExtend 16 := by
  simp only [onBus, h, Bool.false_eq_true, if_false]

theorem onBus_byte_of_odd {a : Word} (v : Word) (h : isOdd a = true) :
    onBus .byte a v = (v.extractLsb' 8 8).zeroExtend 16 := by
  simp only [onBus, h, if_true]

theorem merged_byte_of_even {a : Word} (old v : Word) (h : isOdd a = false) :
    merged .byte a old v = (old.extractLsb' 8 8 ++ v.extractLsb' 0 8 : BitVec 16) := by
  simp only [merged, wordOfBytes, h, Bool.false_eq_true, if_false]

theorem merged_byte_of_odd {a : Word} (old v : Word) (h : isOdd a = true) :
    merged .byte a old v = (v.extractLsb' 0 8 ++ old.extractLsb' 0 8 : BitVec 16) := by
  simp only [merged, wordOfBytes, h, if_true]

theorem memRead_at_ctrl {s : State} {a : Word} {sz : Size} {r : CtrlReg} (hw : s.dev.wf = true)
    (hal : sz = .word → isOdd a = false) (hr : wordAddr a = s.dev.addrOf r) :
    memRead s a sz = .next (onBus sz a (s.readCtrl r), s) := by
  rw [memRead_of_aligned s hal,
    readAligned_of_ctrl (hr ▸ Dev.kind_addrOf hw r) (hr ▸ Dev.ctrlAt_addrOf hw r)]

theorem memWrite_at_ctrl {s : State} {a : Word} {sz : Size} {r : CtrlReg} (v : Word) (hw : s.dev.wf = true)
    (hal : sz = .word → isOdd a = false) (hr : wordAddr a = s.dev.addrOf r) :
    memWrite s a sz v = .next (s.writeCtrl r (merged sz a (s.readCtrl r) v)) :=
  memWrite_of_ctrl v hal (hr ▸ Dev.kind_addrOf hw r) (hr ▸ Dev.ctrlAt_addrOf hw r)

theorem writeOtherSfr_of_refuse {s : State} {a v : Word} {sz : Size} (h : s.dev.sfrWrite = .refuse) :
    writeOtherSfr s a sz v = .refused .otherSfr := by
  simp only [writeOtherSfr, h]

theorem writeOtherSfr_of_given {s : State} {a v : Word} {sz : Size} (h : s.dev.sfrWrite = .given) :
    ∃ q, writeOtherSfr s a sz v = .next (s.setSfrs q) := by
  simp only [writeOtherSfr, h]
  exact ⟨_, rfl⟩

/-- Settles O9: a word of SFR space is a control register's, at whose even address its less significant half is, or the
device's parameter decides. -/
theorem controlRegistersInSfrSpace : Obligations.ControlRegistersInSfrSpace := by
  intro s hw
  have heven := Dev.isOdd_addrOf hw
  have hodd : ∀ r, isOdd (s.dev.addrOf r + 1) = true := fun r => isOdd_add_one (heven r)
  have hat : ∀ r, wordAddr (s.dev.addrOf r) = s.dev.addrOf r := fun r => wordAddr_of_even (heven r)
  have hat' : ∀ r, wordAddr (s.dev.addrOf r + 1) = s.dev.addrOf r := fun r => wordAddr_add_one (heven r)
  refine ⟨fun r => ?read, fun r v => ?write, fun a sz hsfr hnone hal => ?other⟩
  case read =>
    rw [memRead_at_ctrl hw (fun _ => heven r) (hat r), memRead_at_ctrl hw (fun _ => heven r) (hat r),
      memRead_at_ctrl (sz := .byte) hw nofun (hat' r)]
    exact ⟨rfl, by rw [onBus_byte_of_even _ (heven r)], by rw [onBus_byte_of_odd _ (hodd r)]⟩
  case write =>
    rw [memWrite_at_ctrl v hw (fun _ => heven r) (hat r), memWrite_at_ctrl v hw (fun _ => heven r) (hat r),
      memWrite_at_ctrl (sz := .byte) v hw nofun (hat' r)]
    exact ⟨rfl, by rw [merged_byte_of_even _ _ (heven r)], by rw [merged_byte_of_odd _ _ (hodd r)]⟩
  case other =>
    have hother := Dev.ctrlAt_eq_none_iff.mpr hnone
    rw [memRead_of_aligned s hal, readAligned_of_otherSfr hsfr hother]
    refine ⟨readOtherSfr_of_refuse, readOtherSfr_of_given, fun hd v => ?_, fun hd v => ?_⟩
    · rw [memWrite_of_otherSfr v hal hsfr hother, writeOtherSfr_of_refuse hd]
    · rw [memWrite_of_otherSfr v hal hsfr hother]
      exact writeOtherSfr_of_given hd

end Sys2Proof.Machine
end

/-! ### What an instruction leaves of memory and control registers (R61, R70) -/

section
namespace Sys2Proof.Machine

@[simp] theorem State.dmaTurns_readCtrl (s : State) (k : Nat) (r : CtrlReg) :
    (s.dmaTurns k).readCtrl r = s.readCtrl r := by
  rw [State.dmaTurns_eq]; rfl

/-- Emptying the latch before the turns is emptying it after them. -/
theorem State.start_dmaTurns (s : State) (k : Nat) : s.start.dmaTurns k = (s.dmaTurns k).start := by
  induction k with
  | zero => rfl
  | succ k ih => rw [State.dmaTurns, ih]; rfl

theorem OnlyTouched.mem {rs : List Reg} {s t : State} (h : OnlyTouched rs s t) : t.mem = s.mem := by rw [h.same]

theorem OnlyTouched.hz {rs : List Reg} {s t : State} (h : OnlyTouched rs s t) : t.hz = s.hz := by rw [h.same]

theorem OnlyTouched.readCtrl {rs : List Reg} {s t : State} (h : OnlyTouched rs s t) (r : CtrlReg) :
    t.readCtrl r = s.readCtrl r := by
  rw [h.same]; rfl

/-- Until its store an instruction has changed no byte of memory but by the DMA controller's turns, no control register
and nothing in the latch it has emptied. -/
theorem Effect.untilStore {i : Instr} {s m w : State} (h : Effect i s.start m w) :
    m.mem = (s.dmaTurns (turnsWithin i)).mem ∧ m.hz = HazardLatch.empty ∧ ∀ r, m.readCtrl r = s.readCtrl r := by
  have htouched := h.touched
  rw [State.start_dmaTurns] at htouched
  exact ⟨htouched.mem, htouched.hz, fun r => (htouched.readCtrl r).trans (by simp)⟩

/-- A store changes no byte of memory outside its access (R61). -/
theorem StoreEffect.memKeptOutside {d : Dev} {a : Word} {sz : Size} {m w : State} (h : StoreEffect d a sz m w) :
    MemKeptOutside a sz m w := by
  intro b hb
  cases h with
  | trap c _ => rfl
  | ctrl r v _ => rw [State.writeCtrl_mem]
  | other q _ _ _ _ => rfl
  | ram v _ _ =>
    cases sz with
    | byte =>
      have hne : b ≠ a.toNat := by simpa [inAccess] using hb
      exact Memory.read_write_other _ _ hne
    | word =>
      obtain ⟨hlo, hhi⟩ : b ≠ a.toNat ∧ b ≠ a.toNat + 1 := by simpa [inAccess] using hb
      exact (Memory.read_write_other _ _ hhi).trans (Memory.read_write_other _ _ hlo)

/-- A store changes no control register but the one whose word it is at (R61). -/
theorem StoreEffect.readCtrl_other {d : Dev} {a : Word} {sz : Size} {m w : State} (h : StoreEffect d a sz m w)
    {r : CtrlReg} (hr : d.addrOf r ≠ wordAddr a) : w.readCtrl r = m.readCtrl r := by
  cases h with
  | trap c _ => exact State.raise_readCtrl m c r
  | ctrl k v hreach =>
    obtain ⟨-, -, hat⟩ := hreach
    rw [State.writeCtrl_readCtrl, if_neg]
    rintro rfl
    exact hr (Dev.addrOf_of_ctrlAt hat)
  | other q _ _ _ _ => exact State.setSfrs_readCtrl m q r
  | ram v _ _ => cases sz <;> rfl

/-- An offending store records its error and does nothing else (R53, R56). -/
theorem StoreEffect.eq_raise {d : Dev} {a : Word} {sz : Size} {m w : State} {c : AddressErrorCause}
    (h : StoreEffect d a sz m w) (hc : writeTrap d a sz = some c) : w = m.raise c := by
  cases h with
  | trap c' hc' => rw [Option.some.inj (hc'.symm.trans hc)]
  | ctrl r v hreach => exact absurd (hreach.1.symm.trans hc) nofun
  | other q hnone _ _ _ => exact absurd (hnone.symm.trans hc) nofun
  | ram v hnone _ => exact absurd (hnone.symm.trans hc) nofun

/-- The end of an instruction, moving on or loading the repeat counter, leaves memory, latch, record and control
registers as its effect left them. -/
theorem exec_effect_kept {i : Instr} {s t : State} (h : exec i s = .next t) :
    ∃ m w, Effect i s.start m w ∧ t.mem = w.mem ∧ t.hz = w.hz ∧ t.faultRecord = w.faultRecord ∧
      ∀ r, t.readCtrl r = w.readCtrl r := by
  obtain ⟨m, w, he, ⟨-, rfl⟩ | ⟨lit, -, -, rfl⟩⟩ := exec_effect h
  · exact ⟨m, w, he, rfl, rfl, rfl, State.advance_readCtrl w⟩
  · exact ⟨m, w, he, rfl, rfl, rfl, fun _ => rfl⟩

/-- Settles O43: until its store nothing has changed but by the DMA controller, and a store keeps to its access. -/
theorem memoryKept : Obligations.MemoryKept := by
  intro i s t h
  obtain ⟨m, w, he, hmem, -, -, hctrl⟩ := exec_effect_kept h
  obtain ⟨hmem₀, -, hctrl₀⟩ := he.untilStore
  refine ⟨fun hnone => ?silent, fun a sz hsome => ?stores⟩
  case silent =>
    obtain ⟨-, rfl⟩ | ⟨u, a, sz, -, -, hsome, -⟩ := he.stored
    · exact ⟨fun b => by rw [hmem, hmem₀], fun r => (hctrl r).trans (hctrl₀ r)⟩
    · rw [hnone] at hsome; cases hsome
  case stores =>
    obtain ⟨hnone, -⟩ | ⟨u, a', sz', -, -, htarget, hs⟩ := he.stored
    · rw [hsome] at hnone; cases hnone
    · obtain ⟨rfl, rfl⟩ := Prod.mk.inj (Option.some.inj (hsome.symm.trans htarget))
      exact ⟨fun b hb => by rw [hmem, hs.memKeptOutside b hb, hmem₀],
        fun r hr => (hctrl r).trans ((hs.readCtrl_other hr).trans (hctrl₀ r))⟩

/-- Settles O44: an offending store is the record of its error upon what its reads have left. -/
theorem offendingStoreChangesNothing : Obligations.OffendingStoreChangesNothing := by
  intro i s t a sz c h hsome hc
  obtain ⟨m, w, he, hmem, hhz, hrecord, hctrl⟩ := exec_effect_kept h
  obtain ⟨hmem₀, hhz₀, hctrl₀⟩ := he.untilStore
  obtain ⟨hnone, -⟩ | ⟨u, a', sz', hu, hmu, htarget, hs⟩ := he.stored
  · rw [hsome] at hnone; cases hnone
  obtain ⟨rfl, rfl⟩ := Prod.mk.inj (Option.some.inj (hsome.symm.trans htarget))
  obtain rfl := hs.eq_raise hc
  rw [State.raise_faultRecord, hmu] at hrecord
  refine ⟨fun b => by rw [hmem, State.raise_mem, hmem₀], fun r => ?ctrl, hhz.trans hhz₀, u, hu, fun hnone => ?own,
    fun hsome => ?reads⟩
  case ctrl => rw [hctrl, State.raise_readCtrl, hctrl₀]
  case own => rw [hrecord, hnone]
  case reads =>
    obtain ⟨c₀, hc₀⟩ := Option.ne_none_iff_exists'.mp hsome
    rw [hrecord, hc₀]

end Sys2Proof.Machine
end

/-! ### The X and Y partition does not enter the combined view (R44)

Every operation under an MCU-class instruction, and every write, is followed with the device of its state replaced. -/

section
namespace Sys2Proof.Machine

/-- The state on another device. -/
def State.withDev (s : State) (e : Dev) : State := { s with dev := e }

@[simp] theorem State.withDev_dev (s : State) (e : Dev) : (s.withDev e).dev = e := rfl
@[simp] theorem State.withDev_mem (s : State) (e : Dev) : (s.withDev e).mem = s.mem := rfl
@[simp] theorem State.withDev_sfrs (s : State) (e : Dev) : (s.withDev e).sfrs = s.sfrs := rfl
@[simp] theorem State.withDev_freeCount (s : State) (e : Dev) : (s.withDev e).freeCount = s.freeCount := rfl
@[simp] theorem State.withDev_getW (s : State) (e : Dev) (n : Reg) : (s.withDev e).getW n = s.getW n := rfl
@[simp] theorem State.withDev_readCtrl (s : State) (e : Dev) (r : CtrlReg) :
    (s.withDev e).readCtrl r = s.readCtrl r := by
  cases r <;> rfl
@[simp] theorem State.withDev_xb (s : State) (e : Dev) : (s.withDev e).xb = s.xb := rfl
@[simp] theorem State.withDev_xModSel (s : State) (e : Dev) (n : Reg) : (s.withDev e).xModSel n = s.xModSel n := rfl
@[simp] theorem State.withDev_bitRevSel (s : State) (e : Dev) (n : Reg) :
    (s.withDev e).bitRevSel n = s.bitRevSel n := rfl

/-- What a computation gives with the device of its next state replaced: `onDevice` where there is a value too. -/
def onDeviceResult {α : Type} (e : Dev) : Result α → Result α
  | .next p => .next (p.1, p.2.withDev e)
  | .fault f => .fault f
  | .refused q => .refused q

/-- A sequence goes along with the replaced device where its second part does, in every state the first can leave. -/
theorem andThen_onDeviceResult {α β : Type} {e : Dev} {r : Result α}
    {k : α → State → Host.Outcome β Fault Refusal} (g : Host.Outcome β Fault Refusal → Host.Outcome β Fault Refusal)
    (hfault : ∀ f, g (.fault f) = .fault f) (hrefused : ∀ q, g (.refused q) = .refused q)
    (hnext : ∀ a t, r = .next (a, t) → k a (t.withDev e) = g (k a t)) :
    andThen (onDeviceResult e r) k = g (andThen r k) := by
  cases r with
  | next p => exact hnext p.1 p.2 rfl
  | fault f => exact (hfault f).symm
  | refused q => exact (hrefused q).symm

/-- Which control register is at an address depends on the registers' addresses alone. -/
theorem ctrlAt_of_sameAddrs {d e : Dev} (h : ∀ r, e.addrOf r = d.addrOf r) (a : Word) : e.ctrlAt a = d.ctrlAt a := by
  have hmodcon : e.addrModcon = d.addrModcon := h .modcon
  have hxmodsrt : e.addrXmodsrt = d.addrXmodsrt := h .xmodsrt
  have hxmodend : e.addrXmodend = d.addrXmodend := h .xmodend
  have hymodsrt : e.addrYmodsrt = d.addrYmodsrt := h .ymodsrt
  have hymodend : e.addrYmodend = d.addrYmodend := h .ymodend
  have hxbrev : e.addrXbrev = d.addrXbrev := h .xbrev
  simp only [Dev.ctrlAt, hmodcon, hxmodsrt, hxmodend, hymodsrt, hymodend, hxbrev]

/-! #### The operations that do not look at the device -/

theorem readRam_withDev (s : State) (e : Dev) (a : Word) (sz : Size) :
    readRam (s.withDev e) a sz = onDeviceResult e (readRam s a sz) := by
  cases sz <;> simp only [readRam, State.withDev_mem] <;> split <;> rfl

theorem drawAll_withDev (s : State) (e : Dev) (rs : List Reg) :
    (s.withDev e).drawAll rs = (s.drawAll rs).withDev e := by
  induction rs generalizing s with
  | nil => rfl
  | cons r rs ih => exact ih (s.drawInto r)

theorem writeRam_withDev (s : State) (e : Dev) (a : Word) (sz : Size) (v : Word) :
    writeRam (s.withDev e) a sz v = (writeRam s a sz v).withDev e := by
  cases sz <;> rfl

theorem writeCtrl_withDev (s : State) (e : Dev) (r : CtrlReg) (v : Word) :
    (s.withDev e).writeCtrl r v = (s.writeCtrl r v).withDev e := by
  cases r <;> rfl

theorem placeAddress_withDev (s : State) (e : Dev) (n : Reg) (p a : Word) (k : MoveKind) :
    placeAddress (s.withDev e) n p a k =
      ((placeAddress s n p a k).1, (placeAddress s n p a k).2.withDev e) := by
  cases k <;> rfl

theorem moveOf_withDev (s : State) (e : Dev) (sz : Size) (mode : AddrMode) :
    moveOf (s.withDev e) sz mode = moveOf s sz mode := by
  rcases mode with m | k
  · cases m <;> rfl
  · rfl

theorem moduloBounds_withDev (s : State) (e : Dev) (agu : Agu) (n : Reg) :
    moduloBounds (s.withDev e) agu n = moduloBounds s agu n := by
  cases agu <;> rfl

theorem plainOperand_withDev (s : State) (e : Dev) (agu : Agu) (mode : AddrMode) (n : Reg) (sz : Size) :
    plainOperand (s.withDev e) agu mode n sz = onDeviceResult e (plainOperand s agu mode n sz) := by
  simp only [plainOperand, moduloBounds_withDev, moveOf_withDev, placeAddress_withDev, State.withDev_getW]
  split
  · rfl
  · split
    · rfl
    · split <;> rfl

theorem operand_withDev (s : State) (e : Dev) (agu : Agu) (mode : AddrMode) (n : Reg) (sz : Size) :
    operand (s.withDev e) agu mode n sz = onDeviceResult e (operand s agu mode n sz) := by
  simp only [operand, plainOperand_withDev, placeAddress_withDev, State.withDev_bitRevSel,
    State.withDev_xModSel, State.withDev_getW, State.withDev_xb]
  split
  · split
    · split <;> rfl
    · split <;> rfl
  · rfl

/-! #### The operations that look at what stands behind an address -/

section SameButPartition

variable {s : State} {e : Dev} (he : SameButPartition s.dev e)
include he

theorem dmaBurst_of_sameButPartition (m : Memory) (xs : List DmaWrite) : dmaBurst e m xs = dmaBurst s.dev m xs := by
  obtain ⟨hkind, -, hdma, -⟩ := he
  induction xs generalizing m with
  | nil => rfl
  | cons x xs ih => rw [dmaBurst, dmaBurst, ih, dmaWrite, dmaWrite, hkind, hdma]

theorem dmaTurn_withDev : (s.withDev e).dmaTurn = s.dmaTurn.withDev e := by
  rw [State.dmaTurn, State.withDev_dev, State.withDev_mem, dmaBurst_of_sameButPartition he]
  rfl

theorem readOtherSfr_withDev (a : Word) (sz : Size) :
    readOtherSfr (s.withDev e) a sz = onDeviceResult e (readOtherSfr s a sz) := by
  obtain ⟨-, -, -, hsfrRead, -⟩ := he
  simp only [readOtherSfr, State.withDev_dev, State.withDev_freeCount, State.withDev_sfrs, hsfrRead]
  split <;> rfl

theorem readPsv_withDev (a : Word) (sz : Size) :
    readPsv (s.withDev e) a sz = onDeviceResult e (readPsv s a sz) := by
  obtain ⟨-, -, -, -, -, hpsvRead⟩ := he
  simp only [readPsv, State.withDev_dev, State.withDev_freeCount, State.withDev_sfrs, hpsvRead]
  split <;> rfl

theorem writeOtherSfr_withDev (a : Word) (sz : Size) (v : Word) :
    writeOtherSfr (s.withDev e) a sz v = onDevice e (writeOtherSfr s a sz v) := by
  obtain ⟨-, -, -, -, hsfrWrite, -⟩ := he
  simp only [writeOtherSfr, State.withDev_dev, State.withDev_freeCount, State.withDev_sfrs, hsfrWrite]
  split <;> rfl

theorem readAligned_withDev (a : Word) (sz : Size) :
    readAligned (s.withDev e) a sz = onDeviceResult e (readAligned s a sz) := by
  obtain ⟨hkind, haddr, -⟩ := id he
  simp only [readAligned, State.withDev_dev, State.withDev_readCtrl, hkind, ctrlAt_of_sameAddrs haddr, readRam_withDev,
    readPsv_withDev he, readOtherSfr_withDev he]
  split
  · rfl
  · rfl
  · split <;> rfl
  · rfl
  · rfl

theorem memRead_withDev (a : Word) (sz : Size) :
    memRead (s.withDev e) a sz = onDeviceResult e (memRead s a sz) := by
  unfold memRead
  split
  · have haligned : readAligned ((s.withDev e).raise .misalignedRead) (wordAddr a) .word =
        onDeviceResult e (readAligned (s.raise .misalignedRead) (wordAddr a) .word) :=
      readAligned_withDev (s := s.raise .misalignedRead) he (wordAddr a) .word
    simp only [completeMisaligned, haligned]
    cases readAligned (s.raise .misalignedRead) (wordAddr a) .word <;> rfl
  · exact readAligned_withDev he a sz

theorem readTrap_of_sameButPartition (a : Word) (sz : Size) : readTrap e a sz = readTrap s.dev a sz := by
  obtain ⟨hkind, -⟩ := he
  simp only [readTrap, hkind]

theorem writeTrap_of_sameButPartition (a : Word) (sz : Size) : writeTrap e a sz = writeTrap s.dev a sz := by
  obtain ⟨hkind, -⟩ := he
  simp only [writeTrap, hkind]

theorem memWrite_withDev (a : Word) (sz : Size) (v : Word) :
    memWrite (s.withDev e) a sz v = onDevice e (memWrite s a sz v) := by
  obtain ⟨hkind, haddr, -⟩ := id he
  simp only [memWrite, State.withDev_dev, State.withDev_readCtrl, writeTrap_of_sameButPartition he, hkind,
    ctrlAt_of_sameAddrs haddr, writeRam_withDev, writeCtrl_withDev, writeOtherSfr_withDev he]
  split
  · rfl
  · split
    · rfl
    · rfl
    · split <;> rfl
    · rfl
    · rfl

theorem storeOperand_withDev (a : Word) (sz : Size) (v : Word) (touched : List Reg) :
    storeOperand (s.withDev e) a sz v touched = onDevice e (storeOperand s a sz v touched) := by
  simp only [storeOperand, State.withDev_dev, writeTrap_of_sameButPartition he, drawAll_withDev]
  split
  · exact memWrite_withDev (s := s.drawAll touched) (by simpa using he) a sz v
  · exact memWrite_withDev he a sz v

theorem macWriteBack_withDev (wa wb : Word) (acc : Accumulators) (touched : List Reg) :
    macWriteBack (s.withDev e) wa wb acc touched = onDevice e (macWriteBack s wa wb acc touched) := by
  simp only [macWriteBack, State.withDev_dev, writeTrap_of_sameButPartition he, drawAll_withDev]
  split
  · exact memWrite_withDev (s := { s.drawAll touched with
      acc := Config.freeAccumulators (s.drawAll touched).freeCount, freeCount := (s.drawAll touched).freeCount + 1 })
      (by simpa using he) wa .word wb
  · exact memWrite_withDev (s := { s with acc := acc }) he wa .word wb

theorem readOperand_memRead_withDev (a : Word) (sz : Size) (touched : List Reg) :
    readOperand (s.withDev e) a sz touched (memRead · a sz) =
      onDeviceResult e (readOperand s a sz touched (memRead · a sz)) := by
  simp only [readOperand, State.withDev_dev, readTrap_of_sameButPartition he, drawAll_withDev]
  split
  · exact memRead_withDev (s := s.drawAll touched) (by simpa using he) a sz
  · exact memRead_withDev he a sz

/-! #### The operands of MOV, and MOV -/

theorem loadSource_withDev (sz : Size) (src : MovSrc) :
    loadSource (s.withDev e) sz src = onDeviceResult e (loadSource s sz src) := by
  cases src with
  | reg r => rfl
  | lit k => rfl
  | direct f => exact memRead_withDev he f sz
  | mem o =>
    rw [loadSource, loadSource, operand_withDev]
    refine andThen_onDeviceResult _ (fun _ => rfl) (fun _ => rfl) fun ea t ht => ?_
    exact readOperand_memRead_withDev ((OnlyTouched.operand ht).dev ▸ he) ea sz _

theorem storeDestination_withDev (sz : Size) (v : Word) (touched : List Reg) (dst : MovDst) :
    storeDestination (s.withDev e) sz v touched dst = onDevice e (storeDestination s sz v touched dst) := by
  cases dst with
  | reg r => rfl
  | direct f => exact storeOperand_withDev he f sz v touched
  | mem o =>
    rw [storeDestination, storeDestination, operand_withDev]
    refine andThen_onDeviceResult _ (fun _ => rfl) (fun _ => rfl) fun ea t ht => ?_
    exact storeOperand_withDev ((OnlyTouched.operand ht).dev ▸ he) ea sz v _

theorem turnBetween_withDev (src : MovSrc) (dst : MovDst) :
    turnBetween src dst (s.withDev e) = (turnBetween src dst s).withDev e := by
  unfold turnBetween
  split
  · exact dmaTurn_withDev he
  · rfl

end SameButPartition

@[simp] theorem turnBetween_dev (src : MovSrc) (dst : MovDst) (s : State) : (turnBetween src dst s).dev = s.dev := by
  unfold turnBetween; split <;> rfl

theorem finish_onDevice (e : Dev) (r : StepResult) : finish (onDevice e r) = onDevice e (finish r) := by
  cases r <;> rfl

/-- The hazard check does not look at the device. -/
theorem guarded_withDev {p : ReadPointers} {s : State} {e : Dev} {effect : State → StepResult}
    (h : effect (s.start.withDev e) = onDevice e (effect s.start)) :
    guarded p (s.withDev e) effect = onDevice e (guarded p s effect) := by
  have hhazard : hazardViolated (s.withDev e) p = hazardViolated s p := rfl
  simp only [guarded, hhazard]
  split
  · rfl
  · exact h

theorem moveOp_withDev {s : State} {e : Dev} (he : SameButPartition s.dev e) (sz : Size) (src : MovSrc) (dst : MovDst) :
    moveOp (s.withDev e) sz src dst = onDevice e (moveOp s sz src dst) := by
  refine guarded_withDev ?_
  split
  · rfl
  · split
    · rfl
    · rw [loadSource_withDev (s := s.start) he, ← finish_onDevice]
      refine congrArg finish (andThen_onDeviceResult _ (fun _ => rfl) (fun _ => rfl) fun v u hu => ?_)
      have hu' : SameButPartition u.dev e := (OnlyTouched.loadSource hu).dev ▸ he
      rw [turnBetween_withDev hu']
      exact storeDestination_withDev ((turnBetween_dev src dst u).symm ▸ hu') sz v _ dst

/-- An instruction but a MAC is a MOV, which reads and writes the combined view, or accesses no data memory. -/
theorem exec_withDev {i : Instr} {s : State} {e : Dev} (he : SameButPartition s.dev e)
    (hmac : ∀ m n x kx xd y ky yd kw, i ≠ .macPrefetchWb m n x kx xd y ky yd kw) :
    exec i (s.withDev e) = onDevice e (exec i s) := by
  have mov : ∀ sz src dst, movParts i = some (sz, src, dst) →
      exec i (s.withDev e) = onDevice e (exec i s) := fun sz src dst hp => by
    rw [exec_of_movParts hp, exec_of_movParts hp, moveOp_withDev he]
  have stop : ∀ p q, (∀ t, exec i t = guarded p t fun _ => .refused q) →
      exec i (s.withDev e) = onDevice e (exec i s) := fun p q hi => by
    rw [hi, hi, guarded_withDev rfl]
  cases i with
  | movLitW _ _ => exact mov _ _ _ rfl
  | movWF _ _ => exact mov _ _ _ rfl
  | movIndW _ _ => exact mov _ _ _ rfl
  | movPostincW _ _ => exact mov _ _ _ rfl
  | movWPostinc _ _ => exact mov _ _ _ rfl
  | movPostincPostinc _ _ => exact mov _ _ _ rfl
  | movGeneral _ _ _ => exact mov _ _ _ rfl
  | macPrefetchWb m n x kx xd y ky yd kw => exact absurd rfl (hmac m n x kx xd y ky yd kw)
  | nop => rfl
  | repeatLit _ => rfl
  | doLitLabel _ _ => exact stop .noRead _ fun _ => rfl
  | pop _ => exact stop (.through [15]) _ fun _ => rfl
  | returnCall => exact stop .every _ fun _ => rfl
  | retfie => exact stop .every _ fun _ => rfl
  | retlw _ _ => exact stop .every _ fun _ => rfl
  | ulnk => exact stop .every _ fun _ => rfl

/-- Settles O12, operation by operation under the instructions and the writes. -/
theorem combinedViewIgnoresPartition : Obligations.CombinedViewIgnoresPartition := fun _ _ he =>
  ⟨fun _ hmac => exec_withDev he hmac, memWrite_withDev he, macWriteBack_withDev he⟩

end Sys2Proof.Machine
end

/-! ### The statements the decoder reads (R83 to R86) -/

section
namespace Sys2Proof

/-- Settles O41, by the constructors of the instruction: the round trip of each is a law of its own. -/
theorem decodeReadsEncoded : Obligations.DecodeReadsEncoded := by
  intro i syms hw
  suffices h : Laws.RoundTrip.Statement i from h hw syms
  cases i with
  | movLitW k d => exact Laws.RoundTrip.movLitW k d
  | movWF s f => exact Laws.RoundTrip.movWF s f
  | movIndW s d => exact Laws.RoundTrip.movIndW s d
  | movPostincW s d => exact Laws.RoundTrip.movPostincW s d
  | movWPostinc s d => exact Laws.RoundTrip.movWPostinc s d
  | movPostincPostinc s d => exact Laws.RoundTrip.movPostincPostinc s d
  | movGeneral size src dst => exact Laws.RoundTrip.movGeneral size src dst
  | nop => exact Laws.RoundTrip.nop
  | repeatLit lit => exact Laws.RoundTrip.repeatLit lit
  | doLitLabel lit label => exact Laws.RoundTrip.doLitLabel lit label
  | macPrefetchWb m n x kx xd y ky yd kw => exact Laws.RoundTrip.macPrefetchWb m n x kx xd y ky yd kw
  | pop dst => exact Laws.RoundTrip.pop dst
  | returnCall => exact Laws.RoundTrip.returnCall
  | retfie => exact Laws.RoundTrip.retfie
  | retlw lit d => exact Laws.RoundTrip.retlw lit d
  | ulnk => exact Laws.RoundTrip.ulnk

/-- The example of R190 is written as the encoder writes it. -/
theorem encode_repeatExample : encode (.repeatLit 15) = ascii "REPEAT #15" := by decide +kernel

/-- The MAC of R85 is written as the encoder writes it. -/
theorem encode_macExample : encode (.macPrefetchWb 4 5 .w8 2 4 .w10 2 5 2) =
    ascii "MAC W4*W5, A, [W8]+=2, W4, [W10]+=2, W5, [W13]+=2" := by decide +kernel

/-- Settles O40: REPEAT and MAC by the round trip, for their texts are the encoder's own; the statements with a comment, a
name for an address, `w` for `W` or no blank after the comma, which the encoder never writes, and the refused ADD by
running the decoder. -/
theorem exampleStatementsDecode : Obligations.ExampleStatementsDecode := by
  refine ⟨?commented, ?named, ?lowerCase, ?unspaced, ?repeated, ?mac, ?unlisted⟩
  case commented => decide +kernel
  case named => decide +kernel
  case lowerCase => decide +kernel
  case unspaced => decide +kernel
  case repeated => exact encode_repeatExample ▸ decodeReadsEncoded _ _ rfl
  case mac => exact encode_macExample ▸ decodeReadsEncoded _ _ rfl
  case unlisted => decide +kernel

end Sys2Proof
end

/-! ### Linear and modulo-adjusted operands (R105, R106, R110, R140) -/

section
namespace Sys2Proof.Machine

/-- The effective address and the pointer of the mode table, once the moved address is known. -/
theorem placeAddress_moveOf (s : State) (sz : Size) (mode : AddrMode) (n : Reg) (a : Word) :
    placeAddress s n (s.getW n) a (moveOf s sz mode).2 = (adjustedEa s n a mode, adjustedState s n a mode) := by
  cases mode with
  | mcu m => cases m <;> rfl
  | postMod k => rfl

theorem moveOf_fst (s : State) (sz : Size) (mode : AddrMode) : (moveOf s sz mode).1 = deltaOf s sz mode := by
  cases mode with
  | mcu m => cases m <;> rfl
  | postMod k => rfl

/-- Moving an address modulo 2^16 is the addition of words (R106). -/
theorem ofInt_toNat_add (p : Word) (delta : Int) : BitVec.ofInt 16 (p.toNat + delta) = p + BitVec.ofInt 16 delta := by
  rw [BitVec.ofInt_add, BitVec.ofInt_natCast, BitVec.ofNat_toNat, BitVec.setWidth_eq]

@[simp] theorem ofInt_stepOf (sz : Size) : BitVec.ofInt 16 (stepOf sz) = stepWord sz := by cases sz <;> rfl

@[simp] theorem add_ofInt_neg_stepOf (p : Word) (sz : Size) : p + BitVec.ofInt 16 (-stepOf sz) = p - stepWord sz := by
  rw [BitVec.ofInt_neg, ofInt_stepOf, BitVec.sub_eq_add_neg]

/-- Linear addressing is the mode table with the pointer moved modulo 2^16 (R105, R106). -/
theorem adjusted_moved_eq_linear (s : State) (sz : Size) (n : Reg) (mode : AddrMode) :
    (adjustedEa s n (s.getW n + BitVec.ofInt 16 (deltaOf s sz mode)) mode,
        adjustedState s n (s.getW n + BitVec.ofInt 16 (deltaOf s sz mode)) mode) =
      (linearEa s sz n mode, linearState s sz n mode) := by
  cases mode with
  | mcu m => cases m <;> simp [adjustedEa, adjustedState, deltaOf, linearEa, linearState]
  | postMod k => rfl

/-- Where no modulo buffer bounds the access, addressing is linear. -/
theorem plainOperand_of_unbounded {s : State} {agu : Agu} {n : Reg} (mode : AddrMode) (sz : Size)
    (h : moduloBounds s agu n = none) :
    plainOperand s agu mode n sz = .next (linearEa s sz n mode, linearState s sz n mode) := by
  simp only [plainOperand, h, placeAddress_moveOf, moveOf_fst, ofInt_toNat_add, adjusted_moved_eq_linear]

/-- Where a modulo buffer bounds an access that moves the address, the adjusted address is placed by the mode table. -/
theorem plainOperand_of_bounded {s : State} {agu : Agu} {n : Reg} {mode : AddrMode} {sz : Size} {lo hi a : Word}
    (h : moduloBounds s agu n = some (lo, hi)) (hd : deltaOf s sz mode ≠ 0)
    (ha : modAdjust lo.toNat hi.toNat (s.getW n).toNat (deltaOf s sz mode) = .ok (a.toNat : Int)) :
    plainOperand s agu mode n sz = .next (adjustedEa s n a mode, adjustedState s n a mode) := by
  simp only [plainOperand, h, moveOf_fst, if_neg hd, ha, placeAddress_moveOf, BitVec.ofInt_natCast,
    BitVec.ofNat_toNat, BitVec.setWidth_eq]

/-- An access that is no write through the register selected for bit reversal is linear or modulo (R110, R160). -/
theorem operand_of_not_reversed {s : State} {agu : Agu} {n : Reg} (mode : AddrMode) (sz : Size)
    (h : ¬(agu = .xWagu ∧ s.bitRevSel n = true)) : operand s agu mode n sz = plainOperand s agu mode n sz := if_neg h

/-- An access no modifier acts on has no modulo bounds. -/
theorem moduloBounds_of_unmodified {s : State} {agu : Agu} {n : Reg} (h : Unmodified s agu n) :
    moduloBounds s agu n = none := by
  cases agu with
  | xRagu => exact if_neg (ne_true_of_eq_false h)
  | xWagu => exact if_neg (ne_true_of_eq_false h.1)
  | yAgu => exact if_neg (ne_true_of_eq_false h.1)

theorem not_reversed_of_unmodified {s : State} {agu : Agu} {n : Reg} (h : Unmodified s agu n) :
    ¬(agu = .xWagu ∧ s.bitRevSel n = true) := by
  rintro ⟨rfl, hsel⟩
  exact Bool.false_ne_true (h.2.symm.trans hsel)

theorem operand_of_unmodified {s : State} {agu : Agu} {n : Reg} (mode : AddrMode) (sz : Size)
    (h : Unmodified s agu n) :
    operand s agu mode n sz = .next (linearEa s sz n mode, linearState s sz n mode) := by
  rw [operand_of_not_reversed mode sz (not_reversed_of_unmodified h)]
  exact plainOperand_of_unbounded mode sz (moduloBounds_of_unmodified h)

/-- Settles O14: an access no modifier acts on is linear; the Y prefetch is one by post-modification. -/
theorem linearAddressing : Obligations.LinearAddressing := by
  refine ⟨fun s agu mode n sz h => operand_of_unmodified mode sz h, fun s k n h => ?prefetch⟩
  case prefetch =>
    have hnotReserved := h.2
    rw [operandY, if_neg hnotReserved]
    exact operand_of_unmodified (.postMod k) .word h

end Sys2Proof.Machine
end

/-! ### Writes through the register selected for bit reversal (R111, R112, R161) -/

section
namespace Sys2Proof.Machine

/-- An access that bit reversal acts on is placed by its mode at the reverse-carry sum (R163, R168). -/
theorem operand_of_reversible {s : State} {n : Reg} {mode : AddrMode} {sz : Size} {kind : MoveKind}
    (hsel : s.bitRevSel n = true) (hmode : bitReversible sz mode = some kind) (hxb : modifierValid s.xb = true) :
    operand s .xWagu mode n sz = .next (placeAddress s n (s.getW n) (revCarrySum (s.getW n) s.xb) kind) := by
  simp only [operand, hsel, hmode, revCarryAdd, hxb, and_self, if_true]

/-- Selected for bit reversal, an access it does not act on is linear or modulo, and refused if selected for X modulo too
(R112). -/
theorem operand_of_irreversible {s : State} {n : Reg} {mode : AddrMode} {sz : Size} (hsel : s.bitRevSel n = true)
    (hmode : bitReversible sz mode = none) :
    operand s .xWagu mode n sz =
      if s.xModSel n = true then .refused .bitReversalOrModulo else plainOperand s .xWagu mode n sz := by
  simp only [operand, hsel, hmode, and_self, if_true]

/-- Selected for bit reversal, a write it does not act on is of another size or mode than R161 lists. -/
theorem bitReversible_eq_none {s : State} {n : Reg} {mode : AddrMode} {sz : Size} (hsel : s.bitRevSel n = true)
    (h : ¬BitReversalActs s .xWagu mode n sz) : bitReversible sz mode = none := by
  unfold bitReversible
  split
  · exact absurd ⟨rfl, hsel, rfl, .inl rfl⟩ h
  · exact absurd ⟨rfl, hsel, rfl, .inr rfl⟩ h
  · rfl

/-- Settles O24: a write through the register is tested for bit reversal first, a read for modulo addressing alone. -/
theorem bitReversalTakesPrecedence : Obligations.BitReversalTakesPrecedence := by
  intro s n hmod hrev
  refine ⟨fun hxb => ⟨operand_of_reversible (kind := .post) hrev rfl hxb,
    operand_of_reversible (kind := .pre) hrev rfl hxb⟩, fun mode sz a hd ha => ?read⟩
  case read =>
    rw [operand_of_not_reversed (agu := .xRagu) mode sz fun h => nomatch h.1]
    exact plainOperand_of_bounded (if_pos hmod) hd ha

/-- Settles O25: where bit reversal does not act, X modulo selected for the same register refuses the access. -/
theorem normalAddressesElsewhere : Obligations.NormalAddressesElsewhere := by
  intro s mode n sz hrev hacts
  rw [operand_of_irreversible hrev (bitReversible_eq_none hrev hacts)]
  refine ⟨fun hmod => ?linear, fun hmod => if_pos hmod⟩
  case linear =>
    have hnot := ne_true_of_eq_false hmod
    rw [if_neg hnot]
    exact plainOperand_of_unbounded mode sz (if_neg hnot)

end Sys2Proof.Machine
end

/-! ### What an instruction leaves of registers, accumulators and the other SFRs (R105, R187, R195) -/

section
namespace Sys2Proof.Machine

@[simp] theorem State.dmaTurns_getW (s : State) (k : Nat) (r : Reg) : (s.dmaTurns k).getW r = s.getW r := by
  rw [State.dmaTurns_eq]; rfl

@[simp] theorem State.dmaTurns_sfrs (s : State) (k : Nat) : (s.dmaTurns k).sfrs = s.sfrs := by
  rw [State.dmaTurns_eq]

/-- The store of an instruction changes no working register, no accumulator, and the other SFRs only on a device that
gives their writes a behaviour. -/
theorem Effect.storeKeeps {i : Instr} {s m w : State} (h : Effect i s m w) :
    w.getW = m.getW ∧ w.acc = m.acc ∧ (s.dev.sfrWrite = .refuse → w.sfrs = m.sfrs) := by
  obtain ⟨-, rfl⟩ | ⟨u, a, sz, -, -, -, hs⟩ := h.stored
  · exact ⟨rfl, rfl, fun _ => rfl⟩
  · obtain ⟨hregs, hacc, -, -, -, hsfrs⟩ := hs.keeps
    exact ⟨hregs, hacc, hsfrs⟩

theorem Effect.regsKept {i : Instr} {s m w : State} (h : Effect i s m w) : RegsKeptBut (writtenRegs i) s w := by
  intro r hr
  obtain ⟨hregs, -, -⟩ := h.storeKeeps
  calc w.getW r = m.getW r := congrFun hregs r
    _ = (s.dmaTurns (turnsWithin i)).getW r := h.touched.regs r hr
    _ = s.getW r := s.dmaTurns_getW _ r

theorem Effect.sfrsKept {i : Instr} {s m w : State} (h : Effect i s m w) (hread : s.dev.sfrRead = .refuse)
    (hwrite : s.dev.sfrWrite = .refuse) : w.sfrs = s.sfrs := by
  obtain ⟨-, -, hsfrs⟩ := h.storeKeeps
  calc w.sfrs = m.sfrs := hsfrs hwrite
    _ = (s.dmaTurns (turnsWithin i)).sfrs := h.touched.sfrsKept (by simpa using hread)
    _ = s.sfrs := s.dmaTurns_sfrs _

/-- The end of an instruction, moving on or loading the repeat counter, leaves registers, accumulators and the other SFRs
as its effect left them. -/
theorem exec_effect_regsKept {i : Instr} {s t : State} (h : exec i s = .next t) :
    ∃ m w, Effect i s.start m w ∧ t.getW = w.getW ∧ t.acc = w.acc ∧ t.sfrs = w.sfrs := by
  obtain ⟨m, w, he, ⟨-, rfl⟩ | ⟨lit, -, -, rfl⟩⟩ := exec_effect h <;> exact ⟨m, w, he, rfl, rfl, rfl⟩

/-- Settles O42: what an instruction touches are the registers it may write, and its store touches none of these. -/
theorem registersKept : Obligations.RegistersKept := by
  intro i s t h
  obtain ⟨m, w, he, hregs, hacc, hsfrs⟩ := exec_effect_regsKept h
  refine ⟨fun r hr => ?regs, exec_paramsKept h, fun hmac => ?acc, fun hread hwrite => ?sfrs⟩
  case regs => exact (congrFun hregs r).trans (he.regsKept r hr)
  case acc =>
    obtain ⟨-, hstored, -⟩ := he.storeKeeps
    exact hacc.trans (hstored.trans (he.accKept hmac))
  case sfrs => exact hsfrs.trans (he.sfrsKept hread hwrite)

end Sys2Proof.Machine
end

/-! ### The modulo adjustment (R130, R136 to R139, decisions D7 and D8) -/

section
namespace Sys2Proof.Machine

/-! #### The exponent of a buffer's length -/

theorem leastExponentFrom_eq {len n fuel k : Nat} (h : LeastExponent len n) (hk : k ≤ n) (hn : n ≤ k + fuel) :
    leastExponentFrom fuel k len = n := by
  obtain ⟨hle, hlt⟩ := h
  induction fuel generalizing k with
  | zero => exact le_antisymm hk hn
  | succ fuel ih =>
    rw [leastExponentFrom]
    rcases hk.eq_or_lt with rfl | hkn
    · exact if_pos hle
    · rw [if_neg (hlt k hkn).not_ge]
      exact ih hkn (by omega)

/-- For a buffer of at most 65536 bytes the model computes the least exponent of R136. -/
theorem leastExponent_eq {len n : Nat} (hlen : len ≤ 65536) (h : LeastExponent len n) : leastExponent len = n := by
  have hn : n ≤ 16 := by
    by_contra hgt
    exact absurd (h.2 16 (not_le.mp hgt)) hlen.not_gt
  exact leastExponentFrom_eq h n.zero_le (by omega)

theorem leastExponent_spec {len : Nat} (hlen : len ≤ 65536) : LeastExponent len (leastExponent len) := by
  have h : LeastExponent len (Nat.clog 2 len) :=
    ⟨Nat.le_pow_clog one_lt_two len, fun m hm => (Nat.lt_clog_iff_pow_lt one_lt_two).mp hm⟩
  rwa [leastExponent_eq hlen h]

/-! #### The adjustment, by what refuses it and by the direction of the move -/

section Adjustment

variable {lo hi p : Nat} {delta : Int}

theorem modAdjust_of_stop_le_start (h : hi ≤ lo) : modAdjust lo hi p delta = .error .moduloEndBelowStart :=
  if_pos (by omega)

theorem modAdjust_of_outside (hlt : lo < hi) (h : p < lo ∨ hi < p) :
    modAdjust lo hi p delta = .error .moduloPointerOutside := by
  simp only [modAdjust]
  rw [if_neg (by omega), if_pos h]

variable (hlt : lo < hi) (hlo : lo ≤ p) (hhi : p ≤ hi)
include hlt hlo hhi

theorem modAdjust_zero : modAdjust lo hi p 0 = .ok p := by
  simp only [modAdjust]
  rw [if_neg (by omega), if_neg (by omega), if_neg (lt_irrefl 0), if_neg (lt_irrefl 0), add_zero]

/-- An upward move from inside the buffer (R136). -/
theorem modAdjust_up (hd : 0 < delta) :
    modAdjust lo hi p delta =
      if lo % 2 ^ leastExponent (hi - lo + 1) ≠ 0 then .error .moduloStartNotOnZeros
      else if (hi : Int) + (hi - lo + 1) < p + delta then .error .moduloJumpTooLong
      else .ok (if p + delta ≤ hi then p + delta else p + delta - (hi - lo + 1)) := by
  have hlen : ((hi : Int) - lo + 1).toNat = hi - lo + 1 := by omega
  simp only [modAdjust, hlen]
  rw [if_neg (by omega), if_neg (by omega), if_pos hd]
  simp only [← not_le, ite_not]

/-- A downward move from inside the buffer (R136). -/
theorem modAdjust_down (hd : delta < 0) :
    modAdjust lo hi p delta =
      if hi % 2 ^ leastExponent (hi - lo + 1) ≠ 2 ^ leastExponent (hi - lo + 1) - 1 then .error .moduloEndNotOnOnes
      else if (p : Int) + delta < lo - (hi - lo + 1) then .error .moduloJumpTooLong
      else .ok (if lo ≤ p + delta then p + delta else p + delta + (hi - lo + 1)) := by
  have hlen : ((hi : Int) - lo + 1).toNat = hi - lo + 1 := by omega
  simp only [modAdjust, hlen]
  rw [if_neg (by omega), if_neg (by omega), if_neg hd.not_gt, if_pos hd]
  simp only [← not_le, ite_not]

end Adjustment

/-- Settles O17: with the boundary in place and the jump short enough, each direction's adjustment is what is left. -/
theorem moduloAdjustment : Obligations.ModuloAdjustment := by
  intro lo hi p n delta hlt h16 hn hlo hhi
  have hexp : leastExponent (hi - lo + 1) = n := leastExponent_eq (by omega) hn
  refine ⟨fun hd hzeros hjump => ?up, fun hd hones hjump => ?down⟩
  case up => rw [modAdjust_up hlt hlo hhi hd, hexp, if_neg (not_not.mpr hzeros), if_neg hjump.not_gt]
  case down => rw [modAdjust_down hlt hlo hhi hd, hexp, if_neg (not_not.mpr hones), if_neg hjump.not_gt]

/-- Settles O19, by the direction of the move: the length is added or subtracted at most once, and the jump test leaves
no more to correct. -/
theorem moduloStaysInBuffer : Obligations.ModuloStaysInBuffer := by
  intro lo hi p delta a h
  rcases le_or_gt hi lo with hle | hlt
  · rw [modAdjust_of_stop_le_start hle] at h; cases h
  by_cases hout : p < lo ∨ hi < p
  · rw [modAdjust_of_outside hlt hout] at h; cases h
  obtain ⟨hlo, hhi⟩ : lo ≤ p ∧ p ≤ hi := by omega
  rcases lt_trichotomy delta 0 with hd | rfl | hd
  · rw [modAdjust_down hlt hlo hhi hd] at h
    split_ifs at h <;> cases h <;> omega
  · rw [modAdjust_zero hlt hlo hhi] at h
    cases h
    omega
  · rw [modAdjust_up hlt hlo hhi hd] at h
    split_ifs at h <;> cases h <;> omega

/-! #### Both directions at once (R138) -/

section Directions

variable {lo hi p n : Nat} {k : Int} (hlt : lo < hi) (hlo : lo ≤ p) (hhi : p ≤ hi)
include hlt hlo hhi

/-- An upward move by at most the length is admitted exactly on a zero boundary. -/
theorem modAdjust_up_ok_iff (hexp : leastExponent (hi - lo + 1) = n) (hd : 0 < k) (hk : k ≤ hi - lo + 1) :
    (∃ a, modAdjust lo hi p k = .ok a) ↔ lo % 2 ^ n = 0 := by
  rw [modAdjust_up hlt hlo hhi hd, hexp, if_neg (show ¬(hi : Int) + (hi - lo + 1) < p + k by omega)]
  by_cases h : lo % 2 ^ n = 0 <;> simp [h]

/-- A downward move by at most the length is admitted exactly on a ones boundary. -/
theorem modAdjust_down_ok_iff (hexp : leastExponent (hi - lo + 1) = n) (hd : 0 < k) (hk : k ≤ hi - lo + 1) :
    (∃ a, modAdjust lo hi p (-k) = .ok a) ↔ hi % 2 ^ n = 2 ^ n - 1 := by
  rw [modAdjust_down hlt hlo hhi (neg_neg_of_pos hd), hexp,
    if_neg (show ¬(p : Int) + -k < lo - (hi - lo + 1) by omega)]
  by_cases h : hi % 2 ^ n = 2 ^ n - 1 <;> simp [h]

end Directions

/-- A buffer no longer than `2^n` bytes starts on a zero boundary and ends on a ones boundary of `n` bits exactly when
it is a whole block of `2^n` bytes. -/
theorem boundaries_iff_block {lo hi n : Nat} (hlt : lo < hi) (hlen : hi - lo + 1 ≤ 2 ^ n) :
    lo % 2 ^ n = 0 ∧ hi % 2 ^ n = 2 ^ n - 1 ↔ hi - lo + 1 = 2 ^ n ∧ lo % 2 ^ n = 0 := by
  rw [and_comm]
  refine and_congr_left fun hzeros => ?_
  obtain ⟨q, rfl⟩ := Nat.dvd_of_mod_eq_zero hzeros
  obtain ⟨d, rfl⟩ := Nat.exists_eq_add_of_le hlt.le
  rw [Nat.mul_add_mod, Nat.mod_eq_of_lt (show d < 2 ^ n by omega)]
  omega

/-- Settles O20: the two directions ask for both boundaries, which only a whole block of `2^k` bytes has. -/
theorem bothDirectionsIffPowerOfTwo : Obligations.BothDirectionsIffPowerOfTwo := by
  intro lo hi p up down hlt h16 hlo hhi hup hupLen hdown hdownLen
  have hspec := leastExponent_spec (show hi - lo + 1 ≤ 65536 by omega)
  rw [modAdjust_up_ok_iff hlt hlo hhi rfl hup hupLen, modAdjust_down_ok_iff hlt hlo hhi rfl hdown hdownLen,
    boundaries_iff_block hlt hspec.1]
  refine ⟨fun h => ⟨_, h⟩, fun ⟨k, hk, hzeros⟩ => ?_⟩
  have hexp : leastExponent (hi - lo + 1) = k :=
    leastExponent_eq (by omega) ⟨hk.le, fun m hm => hk ▸ Nat.pow_lt_pow_right one_lt_two hm⟩
  rw [hexp]
  exact ⟨hk, hzeros⟩

/-! #### Going round (R130) -/

/-- Two bytes further within a buffer of at least two, counted modulo its length. -/
theorem add_two_mod {x len : Nat} (hlen : 2 ≤ len) :
    (x + 2) % len = if x % len + 2 < len then x % len + 2 else x % len + 2 - len := by
  have hx := Nat.mod_lt x (show 0 < len by omega)
  rw [← Nat.mod_add_mod]
  split_ifs with h
  · exact Nat.mod_eq_of_lt h
  · rw [Nat.mod_eq_sub_mod (not_lt.mp h)]
    exact Nat.mod_eq_of_lt (by omega)

/-- Settles O21, by induction over the steps: a word step from inside the buffer is the adjustment of O17. -/
theorem moduloBufferIsCircular : Obligations.ModuloBufferIsCircular := by
  intro lo hi p n i hlt h16 hn hzeros hlo hhi
  induction i with
  | zero => rw [moduloSteps, mul_zero, add_zero, Nat.mod_eq_of_lt (by omega), Nat.add_sub_cancel' hlo]
  | succ i ih =>
    have hround := add_two_mod (x := p - lo + 2 * i) (show 2 ≤ hi - lo + 1 by omega)
    have hmod := Nat.mod_lt (p - lo + 2 * i) (show 0 < hi - lo + 1 by omega)
    have hq : lo + (p - lo + 2 * i) % (hi - lo + 1) ≤ hi := by omega
    obtain ⟨hup, -⟩ := moduloAdjustment lo hi _ n 2 hlt h16 hn (Nat.le_add_right lo _) hq
    rw [moduloSteps, ih]
    simp only [hup (by decide) hzeros (by omega)]
    rw [mul_add, mul_one, ← add_assoc, hround]
    congr 1
    split_ifs <;> omega

end Sys2Proof.Machine
end

/-! ### Operands under modulo addressing (R133, R140, R141, decisions D9 and D26) -/

section
namespace Sys2Proof.Machine

/-- No select field selects W15: the setting `1111` disables (R17 to R19). -/
@[simp] theorem selects_fifteen (field : BitVec 4) : selects field 15 = false := by
  rw [Bool.eq_false_iff, Ne, selects_iff]
  rintro ⟨hne, heq⟩
  exact hne (BitVec.eq_of_toNat_eq heq)

/-- Settles O15, by the address generator. -/
theorem moduloActsWhere : Obligations.ModuloActsWhere := by
  intro s agu n b
  refine ⟨?acts, ?never⟩
  case acts => cases agu <;> simp [moduloBounds, eq_comm (b := b)]
  case never => cases agu <;> simp [moduloBounds, State.xModSel, State.yModSel]

@[simp] theorem State.setW_getW_self (s : State) (r : Reg) : s.setW r (s.getW r) = s := by
  rw [State.setW, State.getW, Vector.set_getElem_self]

/-- An address that is not moved is placed as it is, and the pointer keeps its value (R141). -/
theorem placeAddress_unmoved (s : State) (n : Reg) (kind : MoveKind) :
    placeAddress s n (s.getW n) (s.getW n) kind = (s.getW n, s) := by
  cases kind <;> simp [placeAddress]

/-- An access that does not move the address is made at the pointer, whatever buffer bounds it (R141). -/
theorem plainOperand_of_unmoved {s : State} {agu : Agu} {n : Reg} {mode : AddrMode} {sz : Size}
    (hd : deltaOf s sz mode = 0) : plainOperand s agu mode n sz = .next (s.getW n, s) := by
  cases hb : moduloBounds s agu n <;> simp [plainOperand, hb, moveOf_fst, hd, placeAddress_unmoved]

/-- Where a modulo buffer bounds an access that moves the address, a refused adjustment refuses the access. -/
theorem plainOperand_of_refused {s : State} {agu : Agu} {n : Reg} {mode : AddrMode} {sz : Size} {lo hi : Word}
    {r : Refusal} (h : moduloBounds s agu n = some (lo, hi)) (hd : deltaOf s sz mode ≠ 0)
    (hr : modAdjust lo.toNat hi.toNat (s.getW n).toNat (deltaOf s sz mode) = .error r) :
    plainOperand s agu mode n sz = .refused r := by
  simp only [plainOperand, h, moveOf_fst, if_neg hd, hr]

theorem stepOf_ne_zero (sz : Size) : stepOf sz ≠ 0 := by cases sz <;> decide

/-- Bit reversal acts on accesses that move the address only (R161). -/
theorem bitReversible_of_unmoved {s : State} {mode : AddrMode} {sz : Size} (hd : deltaOf s sz mode = 0) :
    bitReversible sz mode = none := by
  unfold bitReversible
  split
  · exact absurd hd (stepOf_ne_zero .word)
  · exact absurd hd (stepOf_ne_zero .word)
  · rfl

theorem operand_of_unmoved {s : State} {agu : Agu} {n : Reg} {mode : AddrMode} {sz : Size}
    (hd : deltaOf s sz mode = 0) (hrev : agu = .xWagu → s.bitRevSel n = true → s.xModSel n = false) :
    operand s agu mode n sz = .next (s.getW n, s) := by
  by_cases h : agu = .xWagu ∧ s.bitRevSel n = true
  · obtain ⟨rfl, hsel⟩ := h
    rw [operand_of_irreversible hsel (bitReversible_of_unmoved hd), if_neg (ne_true_of_eq_false (hrev rfl hsel))]
    exact plainOperand_of_unmoved hd
  · rw [operand_of_not_reversed mode sz h]
    exact plainOperand_of_unmoved hd

theorem not_reversed_of_clear {s : State} {agu : Agu} {n : Reg} (h : agu = .xWagu → s.bitRevSel n = false) :
    ¬(agu = .xWagu ∧ s.bitRevSel n = true) := fun ⟨hagu, hsel⟩ => ne_true_of_eq_false (h hagu) hsel

/-- Settles O16: an access bit reversal does not act on is placed by its mode at the adjusted address. -/
theorem moduloAdjustsWhichValue : Obligations.ModuloAdjustsWhichValue := by
  intro s agu mode n sz lo hi a hbounds hrev hd ha
  rw [operand_of_not_reversed mode sz (not_reversed_of_clear hrev)]
  exact plainOperand_of_bounded hbounds hd ha

/-- Settles O18: outside the buffer and for an inverted buffer by the tests that come first, inside by the direction of
the move; and an access that does not move the address does not come to the adjustment. -/
theorem moduloRefusals : Obligations.ModuloRefusals := by
  refine ⟨fun lo hi p delta h => modAdjust_of_stop_le_start h, fun lo hi p delta hlt h => modAdjust_of_outside hlt h,
    fun lo hi p n delta hlt h16 hn hlo hhi => ?inside, fun s agu mode n sz lo hi r hbounds hrev hd hr => ?operand,
    fun s agu mode n sz hd hrev => operand_of_unmoved hd hrev⟩
  case inside =>
    have hexp : leastExponent (hi - lo + 1) = n := leastExponent_eq (by omega) hn
    refine ⟨fun hd hzeros => ?start, fun hd hzeros hjump => ?upTooLong, fun hd hones => ?stop,
      fun hd hones hjump => ?downTooLong⟩
    case start => rw [modAdjust_up hlt hlo hhi hd, hexp, if_pos hzeros]
    case upTooLong => rw [modAdjust_up hlt hlo hhi hd, hexp, if_neg (not_not.mpr hzeros), if_pos hjump]
    case stop => rw [modAdjust_down hlt hlo hhi hd, hexp, if_pos hones]
    case downTooLong => rw [modAdjust_down hlt hlo hhi hd, hexp, if_neg (not_not.mpr hones), if_pos hjump]
  case operand =>
    rw [operand_of_not_reversed mode sz (not_reversed_of_clear hrev)]
    exact plainOperand_of_refused hbounds hd hr

end Sys2Proof.Machine
end

/-! ### The hazard check over the bits of the control registers (R205, R252) -/

section
namespace Sys2Proof.Machine

theorem ReadPointers.reads_iff {p : ReadPointers} : p.reads = true ↔ p ≠ .noRead := by
  cases p <;> simp [ReadPointers.reads]

/-- A select field names a register as the number modulo 16 that it holds. -/
theorem ofNat_field_eq_iff {field : BitVec 4} {r : Reg} : Fin.ofNat 16 field.toNat = r ↔ field.toNat = r.val := by
  rw [Fin.ext_iff, Fin.val_ofNat, Nat.mod_eq_of_lt field.isLt]

theorem ReadPointers.selectedBy_iff {p : ReadPointers} {field : BitVec 4} :
    p.selectedBy field = true ↔ p.Designates field := by
  cases p with
  | noRead => exact ⟨nofun, fun h => h.2.elim⟩
  | through rs =>
    simp only [ReadPointers.selectedBy, List.any_eq_true, selects_iff]
    constructor
    · rintro ⟨r, hr, hne, heq⟩
      exact ⟨hne, ofNat_field_eq_iff.mpr heq ▸ hr⟩
    · rintro ⟨hne, hr⟩
      exact ⟨_, hr, hne, ofNat_field_eq_iff.mp rfl⟩
  | every => exact bne_iff_ne.trans ⟨fun h => ⟨h, trivial⟩, And.left⟩

/-- The model's hazard check is R252's condition. -/
theorem hazardViolated_iff {s : State} {p : ReadPointers} : hazardViolated s p = true ↔ Violation s p := by
  simp only [hazardViolated, Bool.and_eq_true, Bool.or_eq_true, ReadPointers.reads_iff, ReadPointers.selectedBy_iff,
    State.xmoden, State.ymoden, State.xwm, State.ywm, State.bwm, and_assoc, or_assoc]

theorem hazardViolated_of_not_violation {s : State} {p : ReadPointers} (h : ¬Violation s p) :
    hazardViolated s p = false := Bool.eq_false_iff.mpr fun hv => h (hazardViolated_iff.mp hv)

end Sys2Proof.Machine
end

/-! ### The prefetches of a MAC (R62, R134, R195) -/

section
namespace Sys2Proof.Machine

/-- A post-modification that bit reversal does not act on is made at the pointer and leaves it where `PostModTo` says
(R110). -/
theorem operand_of_postModTo {s : State} {agu : Agu} {n : Reg} {k : Int} {p : Word} (sz : Size)
    (hrev : ¬(agu = .xWagu ∧ s.bitRevSel n = true)) (h : PostModTo s agu n k p) :
    operand s agu (.postMod k) n sz = .next (s.getW n, s.setW n p) := by
  rw [operand_of_not_reversed _ sz hrev]
  unfold PostModTo at h
  split at h
  next hbounds =>
    rw [plainOperand_of_unbounded _ sz hbounds, h]
    rfl
  next lo hi hbounds =>
    split_ifs at h with hk
    · rw [plainOperand_of_unmoved (mode := .postMod k) hk, h, State.setW_getW_self]
    · exact plainOperand_of_bounded hbounds hk h

/-- The X prefetch at an address completes (R62): it delivers a word, or traps at an odd or an unimplemented address. -/
abbrev XPrefetchCompletes (s : State) (a : Word) : Prop :=
  (∃ v, XDelivers s a v) ∨ isOdd a = true ∨ (isOdd a = false ∧ s.dev.kind a.toNat = .absent)

theorem memReadX_completes {s : State} {a : Word} (h : XPrefetchCompletes s a) :
    ∃ v t, memReadX s a = .next (v, t) := by
  obtain ⟨v, hv⟩ | hodd | ⟨heven, habsent⟩ := h
  · exact ⟨v, s, by rw [memReadX_of_even s hv.1, readAlignedX_of_xDelivers hv]⟩
  · rw [memReadX_of_odd s hodd]
    obtain ⟨v, t, hnext, -⟩ :=
      completeMisaligned_next s (readAlignedX · (wordAddr a)) fun _ _ _ => readAlignedX_onlyRaised
    exact ⟨v, t, hnext⟩
  · exact ⟨0, _, by rw [memReadX_of_even s heven, readAlignedX_of_absent habsent]⟩

/-- Free values in working registers do not change what the X prefetch finds. -/
theorem XPrefetchCompletes.drawAll {s : State} {a : Word} (h : XPrefetchCompletes s a) (rs : List Reg) :
    XPrefetchCompletes (s.drawAll rs) a := by
  simpa only [XPrefetchCompletes, XDelivers, HoldsWord, State.drawAll_dev, State.drawAll_mem, State.drawAll_readCtrl]
    using h

/-- The X prefetch completes whether or not it traps, touching the updated pointers at most. -/
theorem readOperand_memReadX_completes {s : State} {a : Word} (rs : List Reg) (h : XPrefetchCompletes s a) :
    ∃ v t, readOperand s a .word rs (memReadX · a) = .next (v, t) ∧ OnlyTouched rs s t := by
  have hnext : ∃ v t, readOperand s a .word rs (memReadX · a) = .next (v, t) := by
    cases htrap : readTrap s.dev a .word with
    | none => rw [readOperand_of_none rs _ htrap]; exact memReadX_completes h
    | some c => rw [readOperand_of_some rs _ htrap]; exact memReadX_completes (h.drawAll rs)
  obtain ⟨v, t, hvt⟩ := hnext
  exact ⟨v, t, hvt, .readOperand (fun _ _ _ => memReadX_onlyRaised) hvt⟩

theorem operandY_of_reserved {s : State} {k : Int} {n : Reg} (hen : s.ymoden = true) (hres : ywmReserved s.ywm = true) :
    operandY s k n = .refused .reservedYwm := if_pos ⟨hen, hres⟩

/-- Past an X prefetch that completes, the Y prefetch finds YMODEN and YWM as they were, and a reserved setting refuses
it (R134). -/
theorem macPrefetches_of_reserved {s : State} {x : XPtr} {kx : Int} {y : YPtr} {px : Word} (xd : Reg) (ky : Int)
    (yd : Reg) (hen : s.ymoden = true) (hres : ywmReserved s.ywm = true) (hpost : PostModTo s .xRagu x.reg kx px)
    (hx : XPrefetchCompletes s (s.getW x.reg)) : macPrefetches s x kx xd y ky yd = .refused .reservedYwm := by
  obtain ⟨v, t, hread, htouched⟩ := readOperand_memReadX_completes (s := s.setW x.reg px) [x.reg] hx
  have hmodcon : t.dmaTurn.readCtrl .modcon = s.readCtrl .modcon := htouched.dmaTurn.readCtrl .modcon
  rw [macPrefetches, operand_of_postModTo (agu := .xRagu) .word (fun h => nomatch h.1) hpost, andThen_next, hread,
    andThen_next, operandY_of_reserved (by rwa [State.ymoden, hmodcon]) (by rwa [State.ywm, hmodcon])]
  rfl

/-- A MAC past its hazard check and without a register conflict is its prefetches, the write back's operand and the
write back (R195). -/
theorem exec_macPrefetchWb_of_safe {s : State} {m n xd yd : Reg} {x : XPtr} {kx ky kw : Int} {y : YPtr}
    (hsafe : ¬Violation s (.through [x.reg, y.reg])) (hconf : macConflict m n x.reg xd y.reg yd = false) :
    exec (.macPrefetchWb m n x kx xd y ky yd kw) s =
      finish (andThen (macPrefetches s.start x kx xd y ky yd) fun _ u =>
        andThen (operand u .xWagu (.postMod kw) 13 .word) fun wa w =>
          macWriteBack w wa (Config.macArith (s.getW m) (s.getW n) s.acc).2
            (Config.macArith (s.getW m) (s.getW n) s.acc).1 [x.reg, y.reg, xd, yd, 13]) := by
  rw [exec, execMacPrefetchWb, guarded_of_safe _ (hazardViolated_of_not_violation hsafe),
    if_neg (ne_true_of_eq_false hconf)]
  rfl

/-- Settles O30: the X prefetch completes and leaves MODCON, so the reserved setting stops the MAC at its Y prefetch;
with YMODEN clear the Y AGU addresses linearly. -/
theorem reservedYwmRefused : Obligations.ReservedYwmRefused := by
  refine ⟨fun s m n x kx xd y ky yd kw px hen hres hsafe hconf hpost hx => ?refused, fun s k n hen => ?linear⟩
  case refused =>
    rw [exec_macPrefetchWb_of_safe hsafe hconf,
      macPrefetches_of_reserved (s := s.start) xd ky yd hen hres hpost hx]
    rfl
  case linear =>
    have hunmodified : Unmodified s .yAgu n :=
      ⟨by rw [State.yModSel, hen, Bool.false_and], fun h => ne_true_of_eq_false hen h.1⟩
    obtain ⟨-, hlinear⟩ := linearAddressing
    exact hlinear s k n hunmodified

end Sys2Proof.Machine
end

/-! ### What the bit-reversal controls have no part in (R160, R161) -/

section
namespace Sys2Proof.Machine

/-- The state with other contents of XBREV and MODCON. -/
def State.withReversal (s : State) (x m : Word) : State := { s with xbrev := x, modcon := m }

@[simp] theorem State.withReversal_getW (s : State) (x m : Word) (n : Reg) :
    (s.withReversal x m).getW n = s.getW n := rfl

theorem State.withReversal_readCtrl (s : State) (x m : Word) {r : CtrlReg} (hx : r ≠ .xbrev) (hm : r ≠ .modcon) :
    (s.withReversal x m).readCtrl r = s.readCtrl r := by
  cases r with
  | xbrev => exact absurd rfl hx
  | modcon => exact absurd rfl hm
  | xmodsrt | xmodend | ymodsrt | ymodend => rfl

theorem moveOf_withReversal (s : State) (x m : Word) (sz : Size) (mode : AddrMode) :
    moveOf (s.withReversal x m) sz mode = moveOf s sz mode := by
  cases mode with
  | mcu k => cases k <;> rfl
  | postMod k => rfl

theorem placeAddress_withReversal (s : State) (x m : Word) (n : Reg) (p a : Word) (kind : MoveKind) :
    placeAddress (s.withReversal x m) n p a kind =
      ((placeAddress s n p a kind).1, (placeAddress s n p a kind).2.withReversal x m) := by
  cases kind <;> rfl

/-- A value for MODCON has the enable bits and the modulo select fields of the state's: it differs in BWM at most. -/
def ModuloFieldsKept (s : State) (m : Word) : Prop :=
  ∀ i, i < 8 ∨ 12 ≤ i → m.getLsbD i = s.modcon.getLsbD i

theorem ModuloFieldsKept.refl (s : State) : ModuloFieldsKept s s.modcon := fun _ _ => rfl

section ModuloFieldsKept

variable {s : State} {m : Word} (x : Word) (hm : ModuloFieldsKept s m)
include hm

theorem readCtrl_modcon_getLsbD_withReversal {i : Nat} (hi : i < 8 ∨ 12 ≤ i) :
    ((s.withReversal x m).readCtrl .modcon).getLsbD i = (s.readCtrl .modcon).getLsbD i := by
  change (m &&& 0xCFFF).getLsbD i = (s.modcon &&& 0xCFFF).getLsbD i
  rw [BitVec.getLsbD_and, BitVec.getLsbD_and, hm i hi]

/-- A 4-bit select field below BWM holds what it held. -/
theorem field_withReversal {k : Nat} (hk : k ≤ 4) :
    ((s.withReversal x m).readCtrl .modcon).extractLsb' k 4 = (s.readCtrl .modcon).extractLsb' k 4 := by
  refine BitVec.eq_of_getLsbD_eq fun i hi => ?_
  rw [BitVec.getLsbD_extractLsb', BitVec.getLsbD_extractLsb',
    readCtrl_modcon_getLsbD_withReversal x hm (.inl (by omega))]

theorem xModSel_withReversal (n : Reg) : (s.withReversal x m).xModSel n = s.xModSel n := by
  rw [State.xModSel, State.xmoden, State.xwm, readCtrl_modcon_getLsbD_withReversal x hm (.inr (by decide)),
    field_withReversal x hm (by decide)]
  rfl

theorem yModSel_withReversal (n : Reg) : (s.withReversal x m).yModSel n = s.yModSel n := by
  rw [State.yModSel, State.ymoden, State.ywm, readCtrl_modcon_getLsbD_withReversal x hm (.inr (by decide)),
    field_withReversal x hm (by decide)]
  rfl

theorem moduloBounds_withReversal (agu : Agu) (n : Reg) :
    moduloBounds (s.withReversal x m) agu n = moduloBounds s agu n := by
  cases agu with
  | xRagu | xWagu => rw [moduloBounds, xModSel_withReversal x hm]; rfl
  | yAgu => rw [moduloBounds, yModSel_withReversal x hm]; rfl

/-- Linear and modulo addressing have no part in XBREV and BWM. -/
theorem plainOperand_withReversal (agu : Agu) (mode : AddrMode) (n : Reg) (sz : Size) :
    plainOperand (s.withReversal x m) agu mode n sz = withControls x m (plainOperand s agu mode n sz) := by
  simp only [plainOperand, moduloBounds_withReversal x hm, moveOf_withReversal, placeAddress_withReversal,
    State.withReversal_getW]
  split
  · rfl
  · split
    · rfl
    · split <;> rfl

end ModuloFieldsKept

/-- With BREN as it was, another modifier selects the same register. -/
theorem bitRevSel_withReversal {s : State} {x : Word} (hx : x.getLsbD 15 = s.xbrev.getLsbD 15) (n : Reg) :
    (s.withReversal x s.modcon).bitRevSel n = s.bitRevSel n := congrArg (· && selects s.bwm n) hx

/-- Where bit reversal does not act, the modifier has no influence (R161). -/
theorem operand_withReversal_of_not_acts {s : State} {agu : Agu} {mode : AddrMode} {n : Reg} {sz : Size} {x : Word}
    (h : ¬BitReversalActs s agu mode n sz) (hx : x.getLsbD 15 = s.xbrev.getLsbD 15) :
    operand (s.withReversal x s.modcon) agu mode n sz = withControls x s.modcon (operand s agu mode n sz) := by
  have hplain := plainOperand_withReversal x (.refl s) agu mode n sz
  have hsame := bitRevSel_withReversal hx n
  by_cases hwrite : agu = .xWagu ∧ s.bitRevSel n = true
  · obtain ⟨rfl, hsel⟩ := hwrite
    have hmode := bitReversible_eq_none hsel h
    rw [operand_of_irreversible hsel hmode, operand_of_irreversible (hsame.trans hsel) hmode,
      xModSel_withReversal x (.refl s), hplain]
    split <;> rfl
  · rw [operand_of_not_reversed mode sz hwrite, operand_of_not_reversed mode sz (by rwa [hsame]), hplain]

/-- The two modes bit reversal acts on are the post- and the pre-modification (R161). -/
theorem BitReversalActs.reversible {s : State} {agu : Agu} {mode : AddrMode} {n : Reg} {sz : Size}
    (h : BitReversalActs s agu mode n sz) :
    agu = .xWagu ∧ s.bitRevSel n = true ∧
      (bitReversible sz mode = some .post ∨ bitReversible sz mode = some .pre) := by
  obtain ⟨rfl, hsel, rfl, rfl | rfl⟩ := h
  · exact ⟨rfl, hsel, .inl rfl⟩
  · exact ⟨rfl, hsel, .inr rfl⟩

/-- Settles O22: under the four conditions both modes leave the pointer at the sum; else the access is linear, modulo or
refused, none of which looks at the modifier. -/
theorem bitReversalActsExactly : Obligations.BitReversalActsExactly := by
  refine ⟨fun s agu mode n sz hacts hxb => ?acts, fun s agu mode n sz x hacts hx => ?elsewhere⟩
  case acts =>
    obtain ⟨rfl, hsel, hmode | hmode⟩ := hacts.reversible
    · exact ⟨_, operand_of_reversible hsel hmode hxb⟩
    · exact ⟨_, operand_of_reversible hsel hmode hxb⟩
  case elsewhere => exact operand_withReversal_of_not_acts hacts hx

/-- Settles O23: an access by another generator than X_WAGU is linear or modulo. -/
theorem readsNeverBitReversed : Obligations.ReadsNeverBitReversed := by
  intro s agu mode n sz x m hagu hm
  rw [operand_of_not_reversed mode sz fun h => hagu h.1, operand_of_not_reversed mode sz fun h => hagu h.1]
  exact plainOperand_withReversal x hm agu mode n sz

end Sys2Proof.Machine
end

/-! ### Bit-reversed writes and the modifiers of Table 3-2 (R25, R164, R168, decisions D11 and D12) -/

section
namespace Sys2Proof.Machine

/-- The modifiers of Table 3-2 are the powers of two of 15 bits, downwards (R25). -/
theorem modifierTable_powers : modifierTable.map Prod.fst = (List.range 15).reverse.map (BitVec.twoPow 15) := by
  decide

theorem modifierValid_iff {xb : BitVec 15} : modifierValid xb = true ↔ ∃ k < 15, xb = BitVec.twoPow 15 k := by
  calc modifierValid xb = true
    _ ↔ xb ∈ modifierTable.map Prod.fst := by simp [modifierValid]
    _ ↔ ∃ k < 15, xb = BitVec.twoPow 15 k := by simp [modifierTable_powers, eq_comm]

/-- A write bit reversal acts on is refused for a modifier that is not in Table 3-2 (R164). -/
theorem operand_of_invalid_modifier {s : State} {n : Reg} {mode : AddrMode} {sz : Size} {kind : MoveKind}
    (hsel : s.bitRevSel n = true) (hmode : bitReversible sz mode = some kind) (hxb : modifierValid s.xb = false) :
    operand s .xWagu mode n sz = .refused .modifierNotValid := by
  simp [operand, hsel, hmode, revCarryAdd, hxb]

/-- Settles O26: both modes place the write, or refuse it, by the modifier; the table is the powers of two. -/
theorem bitReversedWriteAddress : Obligations.BitReversedWriteAddress := by
  refine ⟨fun s n hsel hxb => ⟨?postInc, ?preInc⟩, fun s mode n sz hacts hxb => ?refused,
    fun xb => modifierValid_iff⟩
  case postInc => exact operand_of_reversible (kind := .post) hsel rfl hxb
  case preInc => exact operand_of_reversible (kind := .pre) hsel rfl hxb
  case refused =>
    obtain ⟨-, hsel, hmode | hmode⟩ := hacts.reversible
    · exact operand_of_invalid_modifier hsel hmode hxb
    · exact operand_of_invalid_modifier hsel hmode hxb

end Sys2Proof.Machine
end

/-! ### The reverse-carry addition on the mirrored pointer (R163, R165 to R167, R169) -/

section
namespace Sys2Proof.Machine

/-! #### The mirrored word address -/

/-- The word address of a pointer mirrored: what `RevCarryAdd` adds to (R163). -/
def mirroredWord (p : Word) : BitVec 15 := (p.extractLsb' 1 15).reverse

theorem mirroredWord_getLsbD (p : Word) {j : Nat} (hj : j < 15) : (mirroredWord p).getLsbD j = p.getLsbD (15 - j) := by
  rw [mirroredWord, BitVec.getLsbD_reverse, BitVec.getMsbD_eq_getLsbD, BitVec.getLsbD_extractLsb']
  have h₁ : 15 - 1 - j < 15 := by omega
  have h₂ : 1 + (15 - 1 - j) = 15 - j := by omega
  simp [hj, h₁, h₂]

theorem getLsbD_eq_mirroredWord (p : Word) {i : Nat} (h₁ : 1 ≤ i) (h₁₅ : i ≤ 15) :
    p.getLsbD i = (mirroredWord p).getLsbD (15 - i) := by
  rw [mirroredWord_getLsbD p (by omega), Nat.sub_sub_self h₁₅]

/-- On the mirrored word address the reverse-carry addition is an ordinary one (R163). -/
theorem mirroredWord_revCarrySum (p : Word) (xb : BitVec 15) :
    mirroredWord (revCarrySum p xb) = mirroredWord p + xb.reverse := by
  have hword : (revCarrySum p xb).extractLsb' 1 15 = (mirroredWord p + xb.reverse).reverse :=
    BitVec.extractLsb'_append_eq_left
  rw [mirroredWord, hword, BitVec.reverse_reverse_eq]

/-- Bit 0 is not modified (R162). -/
theorem revCarrySum_getLsbD_zero (p : Word) (xb : BitVec 15) : (revCarrySum p xb).getLsbD 0 = p.getLsbD 0 := by
  rw [revCarrySum, BitVec.getLsbD_append, if_pos Nat.one_pos]
  simp

/-- The modifier for `2^k` words mirrored: the lowest bit of the top `k` (R165). -/
theorem reverse_modifier {k : Nat} (h₁ : 1 ≤ k) (h₁₅ : k ≤ 15) :
    (BitVec.twoPow 15 (k - 1)).reverse = BitVec.twoPow 15 (15 - k) := by
  refine BitVec.eq_of_getLsbD_eq fun j hj => ?_
  rw [BitVec.getLsbD_reverse, BitVec.getMsbD_eq_getLsbD, BitVec.getLsbD_twoPow, BitVec.getLsbD_twoPow, Bool.eq_iff_iff]
  simp only [Bool.and_eq_true, decide_eq_true_eq]
  omega

/-! #### The mirrored field of `k` bits -/

/-- The field `p[k:1]` of a pointer mirrored, the number that the updates of a buffer of `2^k` words count (R165): the
top `k` bits of the mirrored word address. -/
def mirroredField (k : Nat) (p : Word) : Nat := (mirroredWord p).toNat / 2 ^ (15 - k)

section Field

variable {k : Nat} (h₁₅ : k ≤ 15)
include h₁₅

theorem mirroredField_lt (p : Word) : mirroredField k p < 2 ^ k := by
  have hsplit : 2 ^ 15 = 2 ^ k * 2 ^ (15 - k) := by rw [← pow_add, Nat.add_sub_cancel' h₁₅]
  exact Nat.div_lt_of_lt_mul (by rw [mul_comm, ← hsplit]; exact (mirroredWord p).isLt)

/-- The bits of the field, from the far end. -/
theorem mirroredField_testBit (p : Word) {j : Nat} (hj : j < k) :
    (mirroredField k p).testBit j = p.getLsbD (k - j) := by
  rw [mirroredField, Nat.testBit_div_two_pow, BitVec.testBit_toNat, mirroredWord_getLsbD p (by omega)]
  congr 1
  omega

variable (h₁ : 1 ≤ k)
include h₁

theorem mirroredWord_update (p : Word) :
    (mirroredWord (revCarrySum p (BitVec.twoPow 15 (k - 1)))).toNat =
      ((mirroredWord p).toNat + 2 ^ (15 - k)) % 2 ^ 15 := by
  rw [mirroredWord_revCarrySum, reverse_modifier h₁ h₁₅, BitVec.toNat_add, BitVec.toNat_twoPow_of_lt (by omega)]

/-- An update counts the mirrored field up by one, modulo the buffer's size (R165). -/
theorem mirroredField_update (p : Word) :
    mirroredField k (revCarrySum p (BitVec.twoPow 15 (k - 1))) = (mirroredField k p + 1) % 2 ^ k := by
  have hsplit : 2 ^ 15 = 2 ^ (15 - k) * 2 ^ k := by rw [← pow_add, Nat.sub_add_cancel h₁₅]
  rw [mirroredField, mirroredWord_update h₁₅ h₁, hsplit, Nat.mod_mul_right_div_self,
    Nat.add_div_right _ (Nat.two_pow_pos _), mirroredField]

/-- An update adds nothing to the bits of the mirrored word address below its top `k` (R165). -/
theorem mirroredWord_update_getLsbD (p : Word) {j : Nat} (hj : j < 15 - k) :
    (mirroredWord (revCarrySum p (BitVec.twoPow 15 (k - 1)))).getLsbD j = (mirroredWord p).getLsbD j := by
  have hj₁₅ : j < 15 := by omega
  rw [← BitVec.testBit_toNat, mirroredWord_update h₁₅ h₁, Nat.testBit_mod_two_pow, decide_eq_true hj₁₅,
    Bool.true_and, Nat.add_comm, Nat.testBit_two_pow_add_gt hj, BitVec.testBit_toNat]

/-- An update keeps bit 0 and the bits above the field (R165). -/
theorem update_getLsbD_outside (p : Word) {i : Nat} (hi : i = 0 ∨ k < i) :
    (revCarrySum p (BitVec.twoPow 15 (k - 1))).getLsbD i = p.getLsbD i := by
  rcases hi with rfl | hki
  · exact revCarrySum_getLsbD_zero p _
  · rcases Nat.lt_or_ge i 16 with hi | hi
    · rw [getLsbD_eq_mirroredWord _ (by omega) (by omega), getLsbD_eq_mirroredWord p (by omega) (by omega)]
      exact mirroredWord_update_getLsbD h₁₅ h₁ p (by omega)
    · rw [BitVec.getLsbD_of_ge _ i hi, BitVec.getLsbD_of_ge _ i hi]

end Field

/-! #### The closed form (R165) -/

theorem mirror_lt (k v : Nat) : mirror k v < 2 ^ k := by
  induction k generalizing v with
  | zero => exact Nat.one_pos
  | succ k ih =>
    have hbit : v % 2 * 2 ^ k ≤ 1 * 2 ^ k := Nat.mul_le_mul_right _ (by omega)
    have hrest := ih (v / 2)
    rw [mirror, pow_succ]
    omega

theorem mirror_testBit {k j : Nat} (v : Nat) (hj : j < k) : (mirror k v).testBit j = v.testBit (k - 1 - j) := by
  induction k generalizing v with
  | zero => exact absurd hj j.not_lt_zero
  | succ k ih =>
    rw [mirror, mul_comm, Nat.testBit_two_pow_mul_add _ (mirror_lt k _)]
    split
    next hjk =>
      have hback : k + 1 - 1 - j = k - 1 - j + 1 := by omega
      rw [ih _ hjk, hback, Nat.testBit_add_one]
    next hjk =>
      obtain rfl : j = k := by omega
      simp

/-- Two numbers of `k` bits with the same bits are the same. -/
theorem eq_of_testBit_of_lt {k a b : Nat} (ha : a < 2 ^ k) (hb : b < 2 ^ k)
    (h : ∀ j < k, a.testBit j = b.testBit j) : a = b := by
  refine Nat.eq_of_testBit_eq fun j => ?_
  rcases Nat.lt_or_ge j k with hj | hj
  · exact h j hj
  · have hpow : 2 ^ k ≤ 2 ^ j := Nat.pow_le_pow_right (by decide) hj
    rw [Nat.testBit_lt_two_pow (ha.trans_le hpow), Nat.testBit_lt_two_pow (hb.trans_le hpow)]

theorem mirror_mirror {k v : Nat} (hv : v < 2 ^ k) : mirror k (mirror k v) = v := by
  refine eq_of_testBit_of_lt (mirror_lt k _) hv fun j hj => ?_
  have hback : k - 1 - (k - 1 - j) = j := by omega
  rw [mirror_testBit _ hj, mirror_testBit v (by omega), hback]

/-- The mirrored field is the mirror image of the field `p[k:1]`. -/
theorem mirror_field {k : Nat} (h₁₅ : k ≤ 15) (p : Word) : mirror k (p.toNat / 2 % 2 ^ k) = mirroredField k p := by
  refine eq_of_testBit_of_lt (mirror_lt k _) (mirroredField_lt h₁₅ p) fun j hj => ?_
  have hback : k - 1 - j + 1 = k - j := by omega
  rw [mirror_testBit _ hj, mirroredField_testBit h₁₅ p hj, Nat.testBit_mod_two_pow,
    decide_eq_true (by omega : k - 1 - j < k), Bool.true_and, ← Nat.testBit_add_one, hback, BitVec.testBit_toNat]

/-- Settles O27: mirrored, the field is counted up by one, and the other bits take no part in the addition. -/
theorem reverseCarryClosedForm : Obligations.ReverseCarryClosedForm := by
  intro k p h₁ h₁₅
  refine ⟨?field, fun i hi => update_getLsbD_outside h₁₅ h₁ p hi⟩
  case field =>
    rw [mirror_field h₁₅, ← mirroredField_update h₁₅ h₁, ← mirror_field h₁₅,
      mirror_mirror (Nat.mod_lt _ (Nat.two_pow_pos k))]

/-! #### Successive updates (R166, R167, R169) -/

/-- A field of zeros is 0 mirrored. -/
theorem mirroredField_eq_zero {k : Nat} (h₁₅ : k ≤ 15) {p : Word}
    (hzero : ∀ j, 1 ≤ j → j ≤ k → p.getLsbD j = false) : mirroredField k p = 0 := by
  refine eq_of_testBit_of_lt (mirroredField_lt h₁₅ p) (Nat.two_pow_pos k) fun j hj => ?_
  rw [mirroredField_testBit h₁₅ p hj, hzero (k - j) (by omega) (by omega), Nat.zero_testBit]

section Updates

variable {k : Nat} (h₁₅ : k ≤ 15) (h₁ : 1 ≤ k)
include h₁₅ h₁

/-- `i` updates count the mirrored field up by `i`. -/
theorem mirroredField_reversedUpdates (i : Nat) (p : Word) :
    mirroredField k (reversedUpdates (BitVec.twoPow 15 (k - 1)) i p) = (mirroredField k p + i) % 2 ^ k := by
  induction i with
  | zero => exact (Nat.mod_eq_of_lt (mirroredField_lt h₁₅ p)).symm
  | succ i ih => rw [reversedUpdates, mirroredField_update h₁₅ h₁, ih, Nat.mod_add_mod, Nat.add_assoc]

theorem reversedUpdates_getLsbD_outside (i : Nat) (p : Word) {j : Nat} (hj : j = 0 ∨ k < j) :
    (reversedUpdates (BitVec.twoPow 15 (k - 1)) i p).getLsbD j = p.getLsbD j := by
  induction i with
  | zero => rfl
  | succ i ih => rw [reversedUpdates, update_getLsbD_outside h₁₅ h₁ _ hj, ih]

/-- From a field of zeros the bits of the count stand mirrored in the field (R166). -/
theorem reversedUpdates_getLsbD {p : Word} (hzero : ∀ j, 1 ≤ j → j ≤ k → p.getLsbD j = false) (i j : Nat) :
    (reversedUpdates (BitVec.twoPow 15 (k - 1)) i p).getLsbD j =
      if 1 ≤ j ∧ j ≤ k then i.testBit (k - j) else p.getLsbD j := by
  split
  next hin =>
    have hlt : k - j < k := by omega
    have hback : k - (k - j) = j := by omega
    have hbit := mirroredField_testBit h₁₅ (reversedUpdates (BitVec.twoPow 15 (k - 1)) i p) hlt
    rw [hback] at hbit
    rw [← hbit, mirroredField_reversedUpdates h₁₅ h₁, mirroredField_eq_zero h₁₅ hzero, Nat.zero_add,
      Nat.testBit_mod_two_pow, decide_eq_true hlt, Bool.true_and]
  next hout => exact reversedUpdates_getLsbD_outside h₁₅ h₁ i p (by omega)

/-- After `2^k` updates the count is 0 in the field again (R166). -/
theorem reversedUpdates_pow {p : Word} (hzero : ∀ j, 1 ≤ j → j ≤ k → p.getLsbD j = false) :
    reversedUpdates (BitVec.twoPow 15 (k - 1)) (2 ^ k) p = p := by
  refine BitVec.eq_of_getLsbD_eq fun j _ => ?_
  rw [reversedUpdates_getLsbD h₁₅ h₁ hzero]
  split
  next hin => rw [Nat.testBit_two_pow_of_ne (by omega), hzero j hin.1 hin.2]
  next => rfl

end Updates

/-- Settles O28, by induction over the updates: each counts the mirrored field up by one. -/
theorem bitReversedSequence : Obligations.BitReversedSequence := by
  intro k i p h₁ h₁₅ hzero
  exact ⟨reversedUpdates_getLsbD h₁₅ h₁ hzero i, reversedUpdates_pow h₁₅ h₁ hzero⟩

/-- Settles O29 by running the five updates. -/
theorem exampleXbAddressCalculation : Obligations.ExampleXbAddressCalculation := by
  unfold Obligations.ExampleXbAddressCalculation
  decide +kernel

end Sys2Proof.Machine
end

/-! ### Where an instruction leaves the pc and the repeat counter (R181 c, R190) -/

section
namespace Sys2Proof.Machine

@[simp] theorem State.dmaTurns_pc (s : State) (k : Nat) : (s.dmaTurns k).pc = s.pc := by
  rw [State.dmaTurns_eq]

@[simp] theorem State.dmaTurns_rc (s : State) (k : Nat) : (s.dmaTurns k).rc = s.rc := by
  rw [State.dmaTurns_eq]

/-- What an instruction touches, and its store, leave the pc and the repeat counter alone. -/
theorem Effect.counters {i : Instr} {s m w : State} (h : Effect i s m w) : w.pc = s.pc ∧ w.rc = s.rc := by
  have htouched : m.pc = s.pc ∧ m.rc = s.rc :=
    ⟨(congrArg State.pc h.touched.same).trans (s.dmaTurns_pc _),
      (congrArg State.rc h.touched.same).trans (s.dmaTurns_rc _)⟩
  obtain ⟨-, rfl⟩ | ⟨u, a, sz, -, -, -, hs⟩ := h.stored
  · exact htouched
  · obtain ⟨-, -, ⟨hpc, hrc⟩, -⟩ := hs.keeps
    exact ⟨hpc.trans htouched.1, hrc.trans htouched.2⟩

theorem movedOn_advance {s w : State} (hpc : w.pc = s.pc) (hrc : w.rc = s.rc) : MovedOn s w.advance := by
  simp only [MovedOn, State.advance_pc, State.advance_rc, hpc, hrc, and_self]

/-- Settles O38: until its end no instruction moves the pc, and every one but REPEAT ends by the advance. -/
theorem instructionsMoveOn : Obligations.InstructionsMoveOn := by
  intro i s t hi h
  obtain ⟨m, w, he, ⟨-, rfl⟩ | ⟨lit, rfl, -, -⟩⟩ := exec_effect h
  · obtain ⟨hpc, hrc⟩ := he.counters
    exact movedOn_advance hpc hrc
  · exact absurd rfl (hi lit)

theorem execTimes_succ_eq_some {i : Instr} {k : Nat} {s u : State} (h : execTimes i (k + 1) s = some u) :
    ∃ t, execTimes i k s = some t ∧ exec i t = .next u := by
  rw [execTimes] at h
  split at h
  · cases h
  · next t ht =>
    split at h
    · next u' hu => cases h; exact ⟨t, ht, hu⟩
    · cases h
    · cases h

/-- While the repeat counter holds out the repeated instruction stays and counts it down; once more and it moves on. -/
theorem execTimes_counts {i : Instr} {k : Nat} {s u : State} (hi : ∀ l, i ≠ .repeatLit l)
    (h : execTimes i k s = some u) :
    (k ≤ s.rc → u.pc = s.pc ∧ u.rc = s.rc - k) ∧ (k = s.rc + 1 → u.pc = s.pc + 1 ∧ u.rc = 0) := by
  induction k generalizing u with
  | zero => cases h; exact ⟨fun _ => ⟨rfl, rfl⟩, nofun⟩
  | succ k ih =>
    obtain ⟨t, ht, hu⟩ := execTimes_succ_eq_some h
    obtain ⟨hpc, hrc⟩ := instructionsMoveOn i t u hi hu
    obtain ⟨ihstay, -⟩ := ih ht
    refine ⟨fun hk => ?stay, fun hk => ?moveOn⟩
    case stay =>
      obtain ⟨htpc, htrc⟩ := ihstay (by omega)
      rw [if_neg (by omega)] at hpc
      exact ⟨hpc.trans htpc, by omega⟩
    case moveOn =>
      obtain ⟨htpc, htrc⟩ := ihstay (by omega)
      rw [if_pos (by omega)] at hpc
      exact ⟨by omega, by omega⟩

theorem exec_repeatLit (lit : Nat) (s : State) :
    exec (.repeatLit lit) s = .next { s.start with rc := lit, pc := s.pc + 1 } := rfl

/-- Settles O39, by induction over the executions from the state that REPEAT leaves. -/
theorem repeatedInstructionRuns : Obligations.RepeatedInstructionRuns := by
  intro i s t u lit k hi hrepeat htimes
  cases (exec_repeatLit lit s).symm.trans hrepeat
  exact execTimes_counts hi htimes

end Sys2Proof.Machine
end

/-! ### What an instruction that touched registers and stored at most one cell has completed (R115, R181, R250) -/

section
namespace Sys2Proof.Machine

/-- An error raised upon what has been touched touches the record too, and nothing else. -/
theorem OnlyTouched.raise {rs : List Reg} {s t : State} (h : OnlyTouched rs s t) (c : AddressErrorCause) :
    OnlyTouched rs s (t.raise c) := h.trans (.onlyRaised (.raise t c)) fun _ hr => hr

theorem State.raise_records {s : State} (c : AddressErrorCause) (h : s.faultRecord = none) :
    (s.raise c).faultRecord = some c := by
  rw [State.raise_faultRecord, h]

section Touched

variable {rs : List Reg} {s m : State} (h : OnlyTouched rs s.start m)
include h

theorem OnlyTouched.movedOn : MovedOn s m.advance := by
  rw [h.same]; exact ⟨rfl, rfl⟩

theorem OnlyTouched.latchEmptied : LatchEmptied s m := by
  rw [h.same]; exact ⟨rfl, rfl, rfl⟩

/-- A begun instruction that has touched registers, the record and what a read may draw has kept everything else. -/
theorem OnlyTouched.kept : RegsKeptBut rs s m ∧ MemKept s m ∧ CtrlKept s m :=
  ⟨h.regs, fun b => congrArg (Memory.read · b) h.mem, fun r => (h.readCtrl r).trans (s.start_readCtrl r)⟩

theorem OnlyTouched.advance_kept :
    RegsKeptBut rs s m.advance ∧ MemKept s m.advance ∧ CtrlKept s m.advance ∧ MovedOn s m.advance := by
  obtain ⟨hregs, hmem, hctrl⟩ := h.kept
  exact ⟨hregs, hmem, fun r => (m.advance_readCtrl r).trans (hctrl r), h.movedOn⟩

theorem OnlyTouched.completedChanging (hn : NothingRaised s m) : CompletedChanging rs s m.advance := by
  obtain ⟨hregs, hmem, hctrl, hmoved⟩ := h.advance_kept
  exact ⟨hregs, hmem, hctrl, h.paramsKept, hmoved, h.latchEmptied, hn⟩

/-- A word stored over what has been touched changes the two bytes of its access and nothing else. -/
theorem OnlyTouched.setWord_kept (a v : Word) :
    RegsKeptBut rs s (m.setWord a.toNat v).advance ∧ MemKeptOutside a .word s (m.setWord a.toNat v).advance ∧
      CtrlKept s (m.setWord a.toNat v).advance ∧ ParamsKept s (m.setWord a.toNat v).advance ∧
      MovedOn s (m.setWord a.toNat v).advance ∧ LatchEmptied s (m.setWord a.toNat v).advance := by
  obtain ⟨hregs, hmem, hctrl, hmoved⟩ := h.advance_kept
  refine ⟨hregs, fun b hb => ?outside, fun r => ?ctrl, h.paramsKept, hmoved, h.latchEmptied⟩
  case outside =>
    obtain ⟨hlo, hhi⟩ : b ≠ a.toNat ∧ b ≠ a.toNat + 1 := by simpa [inAccess] using hb
    calc Memory.read (m.setWord a.toNat v).mem b
      _ = Memory.read m.mem b := (Memory.read_write_other _ _ hhi).trans (Memory.read_write_other _ _ hlo)
      _ = Memory.read s.mem b := hmem b
  case ctrl => exact (State.advance_readCtrl _ r).trans ((State.setWord_readCtrl m _ v r).trans (hctrl r))

theorem OnlyTouched.completedStoring (hn : NothingRaised s m) (a v : Word) :
    CompletedStoring rs a .word s (m.setWord a.toNat v).advance := by
  obtain ⟨hregs, hmem, hctrl, hparams, hmoved, hlatch⟩ := h.setWord_kept a v
  exact ⟨hregs, hmem, hctrl, hparams, hmoved, hlatch, hn⟩

end Touched

theorem HazardLatch.has_add_empty (j k : CtrlReg) : (HazardLatch.empty.add k).has j = true ↔ j = k := by
  cases j <;> cases k <;> decide

/-- A control register written over what has been touched holds the value's writable bits and is the latch. -/
theorem OnlyTouched.completedControlWrite {rs : List Reg} {s m : State} (h : OnlyTouched rs s.start m)
    (hn : NothingRaised s m) (k : CtrlReg) (v : Word) :
    CompletedControlWrite rs k v s (m.writeCtrl k v).advance := by
  obtain ⟨hregs, hmem, hctrl, hpc, hrc⟩ := h.advance_kept
  refine ⟨fun i hi => ?written, fun j => ?latch, fun j hj => ?others, fun r hr => ?regs, fun b => ?mem, ?params,
    ⟨?pc, ?rc⟩, ?raised⟩
  case written => rw [State.advance_readCtrl, State.writeCtrl_readCtrl, if_pos rfl, CtrlReg.fix_getLsbD k v hi]
  case latch =>
    rw [State.advance_hz, State.writeCtrl_hz, h.hz]
    exact HazardLatch.has_add_empty j k
  case others =>
    rw [State.advance_readCtrl, State.writeCtrl_readCtrl, if_neg hj]
    exact hctrl j
  case regs => exact (State.writeCtrl_getW m k v r).trans (hregs r hr)
  case mem => exact (congrArg (Memory.read · b) (State.writeCtrl_mem m k v)).trans (hmem b)
  case params => cases k <;> exact h.paramsKept
  case pc => cases k <;> exact hpc
  case rc => cases k <;> exact hrc
  case raised => cases k <;> exact hn

end Sys2Proof.Machine
end

/-! ### NOP, REPEAT, DO and the implicit indirect reads (R189 to R191, R200 to R204) -/

section
namespace Sys2Proof.Machine

theorem guarded_of_not_violation {p : ReadPointers} {s : State} (effect : State → StepResult) (h : ¬Violation s p) :
    guarded p s effect = effect s.start := guarded_of_safe effect (hazardViolated_of_not_violation h)

theorem guarded_of_violation {p : ReadPointers} {s : State} (effect : State → StepResult) (h : Violation s p) :
    guarded p s effect = .fault .hazardViolated := if_pos (hazardViolated_iff.mpr h)

/-- Settles O54: NOP touches nothing. -/
theorem nopCompletes : Obligations.NopCompletes := fun s =>
  ⟨s.start.advance, rfl, (OnlyTouched.refl [] s.start).completedChanging ⟨rfl, rfl, rfl, rfl⟩⟩

/-- Settles O55: from the begun state REPEAT sets the pc and the counter and no other field. -/
theorem repeatLoadsCounter : Obligations.RepeatLoadsCounter := fun s lit =>
  ⟨_, exec_repeatLit lit s, rfl, rfl, fun _ _ => rfl, fun _ => rfl, s.start_readCtrl, ⟨rfl, rfl, rfl, rfl⟩,
    ⟨rfl, rfl, rfl⟩, ⟨rfl, rfl, rfl, rfl⟩⟩

/-- Settles O56: DO reads nothing indirectly, so its hazard check passes, and past it there is the refusal. -/
theorem doRefused : Obligations.DoRefused := fun s _ _ =>
  guarded_of_safe (fun _ => .refused .doNotDescribed) (hazardViolated_noRead s)

/-- An instruction that is a hazard check and a refusal is refused where the check passes, else a hazard violation. -/
theorem exec_of_refusing {i : Instr} {p : ReadPointers} {q : Refusal}
    (hi : ∀ s, exec i s = guarded p s fun _ => .refused q) (s : State) :
    (¬Violation s p → exec i s = .refused q) ∧ (Violation s p → exec i s = .fault .hazardViolated) :=
  ⟨fun h => (hi s).trans (guarded_of_not_violation _ h), fun h => (hi s).trans (guarded_of_violation _ h)⟩

/-- Settles O57: each of the five is a hazard check and a refusal, and MODCON in the latch fails every such check. -/
theorem implicitReadsRefused : Obligations.ImplicitReadsRefused := by
  have pop := fun dst => exec_of_refusing (i := .pop dst) fun _ => rfl
  have returnCall := exec_of_refusing (i := .returnCall) fun _ => rfl
  have retfie := exec_of_refusing (i := .retfie) fun _ => rfl
  have retlw := fun lit d => exec_of_refusing (i := .retlw lit d) fun _ => rfl
  have ulnk := exec_of_refusing (i := .ulnk) fun _ => rfl
  refine ⟨fun s dst => (pop dst s).1, fun s h => ?every, fun s hmodcon => ?violated⟩
  case every =>
    exact ⟨(returnCall s).1 h, (retfie s).1 h, fun lit d => (retlw lit d s).1 h, (ulnk s).1 h⟩
  case violated =>
    have hpop : Violation s (.through [15]) := ⟨nofun, .inl hmodcon⟩
    have hevery : Violation s .every := ⟨nofun, .inl hmodcon⟩
    exact ⟨fun dst => (pop dst s).2 hpop, (returnCall s).2 hevery, (retfie s).2 hevery,
      fun lit d => (retlw lit d s).2 hevery, (ulnk s).2 hevery⟩

end Sys2Proof.Machine
end

/-! ### Accesses that trap nothing: what they find and what they store (R14, R60, R61) -/

section
namespace Sys2Proof.Machine

/-- A read of a size in the combined view delivers `v` (R60): RAM holds it, or a control register, or one of its halves,
reads as it. For words this is `WordDelivers`. -/
abbrev Delivers (s : State) (sz : Size) (a v : Word) : Prop :=
  HoldsAt s sz a v ∨ (s.dev.wf = true ∧ CtrlReadsAs s sz a v)

/-! #### Where a control register or one of its halves is accessed -/

/-- A control register, or a half of it, is read at an address in its word. -/
theorem ctrlReadsAs_onBus {s : State} {sz : Size} {a v : Word} (hw : s.dev.wf = true) (h : CtrlReadsAs s sz a v) :
    ∃ k, wordAddr a = s.dev.addrOf k ∧ (sz = .word → isOdd a = false) ∧ v = onBus sz a (s.readCtrl k) := by
  have heven := Dev.isOdd_addrOf hw
  cases sz with
  | word =>
    obtain ⟨k, rfl, rfl⟩ := h
    exact ⟨k, wordAddr_of_even (heven k), fun _ => heven k, rfl⟩
  | byte =>
    obtain ⟨k, ⟨rfl, rfl⟩ | ⟨rfl, rfl⟩⟩ := h
    · exact ⟨k, wordAddr_of_even (heven k), nofun, (onBus_byte_of_even _ (heven k)).symm⟩
    · exact ⟨k, wordAddr_add_one (heven k), nofun, (onBus_byte_of_odd _ (isOdd_add_one (heven k))).symm⟩

/-- A control register, or a half of it, is written at an address in its word. -/
theorem ctrlWritten_merged {s t : State} {sz : Size} {a v : Word} (hw : s.dev.wf = true)
    (h : CtrlWritten s sz a v t) :
    ∃ k, wordAddr a = s.dev.addrOf k ∧ (sz = .word → isOdd a = false) ∧
      t = s.writeCtrl k (merged sz a (s.readCtrl k) v) := by
  have heven := Dev.isOdd_addrOf hw
  cases sz with
  | word =>
    obtain ⟨k, rfl, rfl⟩ := h
    exact ⟨k, wordAddr_of_even (heven k), fun _ => heven k, rfl⟩
  | byte =>
    obtain ⟨k, ⟨rfl, rfl⟩ | ⟨rfl, rfl⟩⟩ := h
    · exact ⟨k, wordAddr_of_even (heven k), nofun, by rw [merged_byte_of_even _ _ (heven k)]⟩
    · exact ⟨k, wordAddr_add_one (heven k), nofun, by rw [merged_byte_of_odd _ _ (isOdd_add_one (heven k))]⟩

/-! #### Something is behind the address -/

theorem kind_ne_absent_of_isRam {d : Dev} {a : Nat} (h : isRam d a = true) : d.kind a ≠ .absent := by
  rcases isRam_iff.mp h with h | h <;> simp [h]

theorem kind_ne_absent_of_ctrl {d : Dev} {a : Word} {k : CtrlReg} (hw : d.wf = true) (h : wordAddr a = d.addrOf k) :
    d.kind (wordAddr a).toNat ≠ .absent := by
  simp [h, Dev.kind_addrOf hw k]

theorem readTrap_of_accessible {d : Dev} {a : Word} {sz : Size} (hal : sz = .word → isOdd a = false)
    (hk : d.kind (wordAddr a).toNat ≠ .absent) : readTrap d a sz = none := by
  rw [readTrap, if_neg (not_misaligned hal), if_neg hk]

theorem writableAt_accessible {d : Dev} {a : Word} {sz : Size} (h : WritableAt d sz a) :
    (sz = .word → isOdd a = false) ∧ isRam d (wordAddr a).toNat = true := by
  cases sz with
  | word =>
    obtain ⟨heven, hram⟩ := h
    exact ⟨fun _ => heven, by rwa [wordAddr_of_even heven]⟩
  | byte => exact ⟨nofun, h⟩

theorem holdsAt_accessible {s : State} {a v : Word} {sz : Size} (h : HoldsAt s sz a v) :
    (sz = .word → isOdd a = false) ∧ isRam s.dev (wordAddr a).toNat = true := by
  cases sz with
  | word =>
    obtain ⟨heven, hram, -⟩ := h
    exact ⟨fun _ => heven, by rwa [wordAddr_of_even heven]⟩
  | byte =>
    obtain ⟨⟨hram, -⟩, -⟩ := h
    exact ⟨nofun, hram⟩

/-! #### The read and the store -/

/-- A word whose upper byte is zero is its lower byte on the bus (R52). -/
theorem zeroExtend_low_of_high_zero {v : Word} (h : v.extractLsb' 8 8 = 0#8) :
    (v.extractLsb' 0 8).zeroExtend 16 = v := by
  have hlt := v.isLt
  have hhigh : v.toNat / 256 % 256 = 0 := by
    simpa [Nat.shiftRight_eq_div_pow] using congrArg BitVec.toNat h
  refine BitVec.eq_of_toNat_eq ?_
  simp only [BitVec.truncate_eq_setWidth, BitVec.toNat_setWidth, BitVec.extractLsb'_toNat, Nat.shiftRight_zero]
  omega

theorem memRead_of_delivers {s : State} {sz : Size} {a v : Word} (h : Delivers s sz a v) :
    memRead s a sz = .next (v, s) := by
  obtain hram | ⟨hw, hctrl⟩ := h
  · cases sz with
    | word => exact memRead_of_holdsWord hram
    | byte => rw [memRead_of_holdsByte hram.1, zeroExtend_low_of_high_zero hram.2]
  · obtain ⟨k, hat, hal, rfl⟩ := ctrlReadsAs_onBus hw hctrl
    exact memRead_at_ctrl hw hal hat

theorem readTrap_of_delivers {s : State} {sz : Size} {a v : Word} (h : Delivers s sz a v) :
    readTrap s.dev a sz = none := by
  obtain hram | ⟨hw, hctrl⟩ := h
  · obtain ⟨hal, hram⟩ := holdsAt_accessible hram
    exact readTrap_of_accessible hal (kind_ne_absent_of_isRam hram)
  · obtain ⟨k, hat, hal, -⟩ := ctrlReadsAs_onBus hw hctrl
    exact readTrap_of_accessible hal (kind_ne_absent_of_ctrl hw hat)

theorem readOperand_of_delivers {s : State} {sz : Size} {a v : Word} (rs : List Reg) (h : Delivers s sz a v) :
    readOperand s a sz rs (memRead · a sz) = .next (v, s) := by
  rw [readOperand_of_none rs _ (readTrap_of_delivers h)]
  exact memRead_of_delivers h

theorem storeOperand_of_none {s : State} {a : Word} {sz : Size} (v : Word) (rs : List Reg)
    (h : writeTrap s.dev a sz = none) : storeOperand s a sz v rs = memWrite s a sz v := by
  simp only [storeOperand, h]

theorem storeOperand_of_trap {s : State} {a : Word} {sz : Size} {c : AddressErrorCause} (v : Word) (rs : List Reg)
    (h : writeTrap s.dev a sz = some c) : storeOperand s a sz v rs = .next ((s.drawAll rs).raise c) := by
  simp only [storeOperand, h]
  exact memWrite_of_trap v (by rwa [State.drawAll_dev])

theorem memWrite_of_writableAt {s : State} {sz : Size} {a : Word} (v : Word) (h : WritableAt s.dev sz a) :
    memWrite s a sz v = .next (writeRam s a sz v) := by
  cases sz with
  | word => exact memWrite_ram v h
  | byte => exact memWrite_byte_of_ram v h

/-- A store that reaches RAM or a control register leaves the registers its instruction has updated (R61). -/
theorem storeOperand_of_stored {s t : State} {sz : Size} {a v : Word} (rs : List Reg) (h : Stored s sz a v t) :
    storeOperand s a sz v rs = .next t := by
  obtain ⟨hram, rfl⟩ | ⟨hw, hctrl⟩ := h
  · obtain ⟨hal, hk⟩ := writableAt_accessible hram
    rw [storeOperand_of_none v rs (writeTrap_of_present hal rfl (kind_ne_absent_of_isRam hk)),
      memWrite_of_writableAt v hram]
  · obtain ⟨k, hat, hal, rfl⟩ := ctrlWritten_merged hw hctrl
    rw [storeOperand_of_none v rs (writeTrap_of_present hal rfl (kind_ne_absent_of_ctrl hw hat)),
      memWrite_at_ctrl v hw hal hat]

/-- A store at another SFR of a device that gives SfrWrite a behaviour changes what those SFRs hold (R41). -/
theorem storeOperand_of_otherSfr {s : State} {sz : Size} {a : Word} (v : Word) (rs : List Reg)
    (h : AtOtherSfr s.dev sz a) (hd : s.dev.sfrWrite = .given) :
    ∃ q, storeOperand s a sz v rs = .next (s.setSfrs q) := by
  obtain ⟨hsfr, hnone, hal⟩ := h
  rw [storeOperand_of_none v rs (writeTrap_of_present hal hsfr nofun),
    memWrite_of_otherSfr v hal hsfr (Dev.ctrlAt_eq_none_iff.mpr hnone)]
  exact writeOtherSfr_of_given hd

/-! #### What was found before registers were touched is found after it -/

section Touched

variable {rs : List Reg} {s t : State} (h : OnlyTouched rs s t)
include h

theorem OnlyTouched.delivers {sz : Size} {a v : Word} (hv : Delivers s sz a v) : Delivers t sz a v := by
  rw [h.same]; exact hv

theorem OnlyTouched.xModSel (n : Reg) : t.xModSel n = s.xModSel n := by rw [h.same]; rfl

theorem OnlyTouched.bitRevSel (n : Reg) : t.bitRevSel n = s.bitRevSel n := by rw [h.same]; rfl

theorem OnlyTouched.postIncTo {agu : Agu} {n : Reg} {p : Word} (hn : n ∉ rs) (hp : PostIncTo s agu n p) :
    PostIncTo t agu n p := by
  have hxb : t.xb = s.xb := by rw [h.same]; rfl
  simpa only [PostIncTo, h.xModSel, h.bitRevSel, h.readCtrl, h.regs n hn, hxb] using hp

end Touched

end Sys2Proof.Machine
end

/-! ### Reads that trap (R53, R56, R115, R222; decisions D4 and D5) -/

section
namespace Sys2Proof.Machine

/-- From `s` a read that traps with `c` has delivered `v` and left `t`: it touched the pointers updated before it,
recorded its error where none was recorded, and delivered zeros where nothing stands. -/
structure TrappedRead (c : AddressErrorCause) (rs : List Reg) (s t : State) (v : Word) : Prop where
  touched : OnlyTouched rs s t
  recorded : s.faultRecord = none → t.faultRecord = some c
  zeros : c = .unimplementedRead → v = 0

/-- A trapped read after registers alone have been touched. -/
theorem TrappedRead.after {c : AddressErrorCause} {rs : List Reg} {s m t : State} {v : Word}
    (h : TrappedRead c [] m t v) (htouched : OnlyTouched rs s m) (hrecord : m.faultRecord = s.faultRecord) :
    TrappedRead c rs s t v where
  touched := htouched.trans (h.touched.mono nofun) fun _ hr => hr
  recorded := fun hnone => h.recorded (hrecord.trans hnone)
  zeros := h.zeros

theorem TrappedRead.unimplemented (s : State) :
    TrappedRead .unimplementedRead [] s (s.raise .unimplementedRead) 0 where
  touched := .onlyRaised (.raise s _)
  recorded := State.raise_records _
  zeros := fun _ => rfl

theorem completeMisaligned_traps (s : State) {aligned : State → Result Word}
    (hal : ∀ u v t, aligned u = .next (v, t) → OnlyRaised u t) :
    ∃ v t, completeMisaligned s aligned = .next (v, t) ∧ TrappedRead .misalignedRead [] s t v := by
  obtain ⟨v, t, h, hraised, c, hc, ht⟩ := completeMisaligned_next s aligned hal
  refine ⟨v, t, h, .onlyRaised hraised, fun hf => ?_, nofun⟩
  rw [ht, ← hc, State.raise_records _ hf]

/-- A read, in the combined or a split view, traps where its alignment test finds an odd address, or where nothing
stands behind an aligned one. -/
theorem read_traps {s : State} {a : Word} {sz : Size} {c : AddressErrorCause} {read : Result Word}
    {aligned : State → Result Word} (h : ReadTraps s.dev a sz c)
    (hodd : sz = .word → isOdd a = true → read = completeMisaligned s aligned)
    (hraised : ∀ u v t, aligned u = .next (v, t) → OnlyRaised u t)
    (habsent : (sz = .word → isOdd a = false) → s.dev.kind (wordAddr a).toNat = .absent →
      read = .next (0, s.raise .unimplementedRead)) :
    ∃ v t, read = .next (v, t) ∧ TrappedRead c [] s t v := by
  cases c with
  | misalignedRead =>
    rw [hodd h.1 h.2]
    exact completeMisaligned_traps s hraised
  | unimplementedRead => exact ⟨0, _, habsent h.1 h.2, .unimplemented s⟩
  | misalignedWrite => exact h.elim
  | unimplementedWrite => exact h.elim

theorem memRead_traps {s : State} {a : Word} {sz : Size} {c : AddressErrorCause} (h : ReadTraps s.dev a sz c) :
    ∃ v t, memRead s a sz = .next (v, t) ∧ TrappedRead c [] s t v :=
  read_traps h (fun hsz hodd => hsz ▸ memRead_of_odd s hodd) (fun _ _ _ => readAligned_onlyRaised)
    fun hal habsent => (unimplementedAccess.1 s a sz habsent hal).1

theorem readOperand_traps {s : State} {a : Word} {sz : Size} {c : AddressErrorCause} {read : State → Result Word}
    (rs : List Reg) (h : ReadTraps s.dev a sz c)
    (hread : ∀ t, t.dev = s.dev → ∃ v u, read t = .next (v, u) ∧ TrappedRead c [] t u v) :
    ∃ v u, readOperand s a sz rs read = .next (v, u) ∧ TrappedRead c rs s u v := by
  rw [readOperand_of_some rs read (readTrap_eq_some.mpr h)]
  obtain ⟨v, u, hu, htrapped⟩ := hread (s.drawAll rs) (s.drawAll_dev rs)
  exact ⟨v, u, hu, htrapped.after (.drawAll s rs) (s.drawAll_faultRecord rs)⟩

theorem readTraps_of_odd (d : Dev) {a : Word} (h : isOdd a = true) : ReadTraps d a .word .misalignedRead := ⟨rfl, h⟩

theorem readTraps_of_absent {d : Dev} {a : Word} (heven : isOdd a = false) (h : d.kind a.toNat = .absent) :
    ReadTraps d a .word .unimplementedRead := ⟨fun _ => heven, by rwa [wordAddr_of_even heven]⟩

theorem writeTrap_of_absent {d : Dev} {a : Word} (heven : isOdd a = false) (h : d.kind a.toNat = .absent) :
    writeTrap d a .word = some .unimplementedWrite := by
  rw [writeTrap_of_aligned d fun _ => heven, wordAddr_of_even heven, if_pos h]

end Sys2Proof.Machine
end

/-! ### A MOV by its operands (R64, R110, R187) -/

section
namespace Sys2Proof.Machine

theorem not_violation_noRead (s : State) : ¬Violation s .noRead := fun h => h.1 rfl

/-- A MOV whose source is read and whose destination is then stored completes. -/
theorem exec_of_mov {i : Instr} {sz : Size} {src : MovSrc} {dst : MovDst} {s u w : State} {v : Word}
    (hp : movParts i = some (sz, src, dst)) (hsafe : ¬Violation s (MovSrc.readPointers src))
    (hbyte : byteFormDescribed sz src dst = true) (hconf : movConflict src dst = false)
    (hload : loadSource s.start sz src = .next (v, u))
    (hstore : storeDestination (turnBetween src dst u) sz v (MovSrc.updates src) dst = .next w) :
    exec i s = .next w.advance := by
  rw [exec_of_movParts hp]
  exact moveOp_eq_next.mpr ⟨hazardViolated_of_not_violation hsafe, hbyte, hconf, v, u, w, hload, hstore, rfl⟩

theorem exec_of_conflict {i : Instr} {sz : Size} {src : MovSrc} {dst : MovDst} {s : State}
    (hp : movParts i = some (sz, src, dst)) (hsafe : ¬Violation s (MovSrc.readPointers src))
    (hbyte : byteFormDescribed sz src dst = true) (hconf : movConflict src dst = true) :
    exec i s = .refused .registerConflict := by
  rw [exec_of_movParts hp, moveOp, guarded_of_not_violation _ hsafe, if_neg (by simp [hbyte]), if_pos hconf]

theorem loadSource_mem {s t : State} {sz : Size} {o : MemOperand} {ea : Word}
    (h : operand s .xRagu (.mcu o.mode) o.ptr sz = .next (ea, t)) :
    loadSource s sz (.mem o) = readOperand t ea sz (MemOperand.updates o) (memRead · ea sz) := by
  rw [loadSource, h, andThen_next]

theorem storeDestination_mem {s t : State} {sz : Size} {o : MemOperand} {ea : Word} (v : Word) (rs : List Reg)
    (h : operand s .xWagu (.mcu o.mode) o.ptr sz = .next (ea, t)) :
    storeDestination s sz v rs (.mem o) = storeOperand t ea sz v (rs ++ MemOperand.updates o) := by
  rw [storeDestination, h, andThen_next]

/-- `[Wn]` is read at its pointer, whatever the buffer (R105, R141). -/
theorem loadSource_indirect (s : State) (r : Reg) :
    loadSource s .word (.mem ⟨r, .indirect⟩) = memRead s (s.getW r) .word := by
  rw [loadSource_mem (operand_of_unmoved rfl nofun)]
  exact readOperand_nil s _ _ _

/-- `[Wn++]` is accessed at its pointer and leaves it where `PostIncTo` says (R110). -/
theorem operand_of_postIncTo {s : State} {agu : Agu} {n : Reg} {p : Word} (hagu : agu ≠ .yAgu)
    (h : PostIncTo s agu n p) : operand s agu (.mcu .postInc) n .word = .next (s.getW n, s.setW n p) := by
  have hbounds : moduloBounds s agu n =
      if s.xModSel n = true then some (s.readCtrl .xmodsrt, s.readCtrl .xmodend) else none := by
    cases agu with
    | xRagu | xWagu => rfl
    | yAgu => exact absurd rfl hagu
  unfold PostIncTo at h
  split_ifs at h with hrev hmod
  · obtain ⟨rfl, hsel⟩ := hrev
    obtain ⟨hxb, rfl⟩ := h
    exact operand_of_reversible (kind := .post) hsel rfl hxb
  · rw [operand_of_not_reversed _ _ hrev]
    exact plainOperand_of_bounded (hbounds.trans (if_pos hmod)) (stepOf_ne_zero .word) h
  · rw [operand_of_not_reversed _ _ hrev, plainOperand_of_unbounded _ _ (hbounds.trans (if_neg hmod)), h]
    rfl

theorem loadSource_postInc {s : State} {r : Reg} {p : Word} (h : PostIncTo s .xRagu r p) :
    loadSource s .word (.mem ⟨r, .postInc⟩) =
      readOperand (s.setW r p) (s.getW r) .word [r] (memRead · (s.getW r) .word) :=
  loadSource_mem (operand_of_postIncTo nofun h)

theorem storeDestination_postInc {s : State} {d : Reg} {p : Word} (v : Word) (rs : List Reg)
    (h : PostIncTo s .xWagu d p) :
    storeDestination s .word v rs (.mem ⟨d, .postInc⟩) = storeOperand (s.setW d p) (s.getW d) .word v (rs ++ [d]) :=
  storeDestination_mem v rs (operand_of_postIncTo nofun h)

end Sys2Proof.Machine
end

/-! ### The general MOV (R187, decisions D1, D21, D22, D25 and D27) -/

section
namespace Sys2Proof.Machine

theorem loadSource_of_sourceGives {s u : State} {sz : Size} {src : MovSrc} {v : Word}
    (h : SourceGives s sz src v u) : loadSource s sz src = .next (v, u) := by
  cases src with
  | reg r => obtain ⟨rfl, rfl⟩ := h; rfl
  | lit k => obtain ⟨rfl, rfl⟩ := h; rfl
  | direct f =>
    obtain ⟨hv, rfl⟩ := h
    exact memRead_of_delivers hv
  | mem o =>
    obtain ⟨hunmodified, rfl, hv⟩ := h
    have ho := operand_of_unmodified (.mcu o.mode) sz hunmodified
    rw [loadSource_mem ho]
    exact readOperand_of_delivers _ ((OnlyTouched.operand ho).delivers hv)

theorem storeDestination_of_takes {u t : State} {sz : Size} {v : Word} {dst : MovDst} (rs : List Reg)
    (h : DestinationTakes u sz v dst t) : storeDestination u sz v rs dst = .next t := by
  cases dst with
  | reg d => rw [show t = u.setW d v from h]; rfl
  | direct f => exact storeOperand_of_stored rs h
  | mem o =>
    obtain ⟨hunmodified, hstored⟩ := h
    rw [storeDestination_mem v rs (operand_of_unmodified (.mcu o.mode) sz hunmodified)]
    exact storeOperand_of_stored _ hstored

/-- Settles O51: the source is read as it gives, and the destination takes what is stored. -/
theorem movGeneralCompletes : Obligations.MovGeneralCompletes := by
  intro s sz src dst v u t hbyte hconf hsafe hsrc hdst
  exact exec_of_mov rfl hsafe hbyte hconf (loadSource_of_sourceGives hsrc) (storeDestination_of_takes _ hdst)

theorem turnBetween_reg (src : MovSrc) (d : Reg) (u : State) : turnBetween src (.reg d) u = u := by
  simp [turnBetween, MovDst.accesses]

/-- An absolute address names and updates no register (R113). -/
theorem movConflict_direct (src : MovSrc) (f : Word) : movConflict src (.direct f) = false := by
  simp [movConflict, MovDst.names, MovDst.updates]

/-- Whatever way a general MOV has read its source, what it read is stored by its destination (R187). -/
theorem movStores_of_loadSource {s u : State} {sz : Size} {src : MovSrc} {v : Word}
    (hsafe : ¬Violation s (MovSrc.readPointers src)) (hload : loadSource s.start sz src = .next (v, u)) :
    MovStores s sz src v u := by
  have complete := fun dst w hbyte hconf =>
    exec_of_mov (i := .movGeneral sz src dst) (w := w) rfl hsafe hbyte hconf hload
  refine ⟨fun d hsz hconf => ?register, fun f w hsz hw => ?address, fun o a w hbyte hconf ho => ?memory⟩
  case register =>
    refine complete _ _ (by rw [hsz]; rfl) hconf ?_
    rw [turnBetween_reg]; rfl
  case address =>
    subst hw
    have store := fun w => complete (.direct f) w (by rw [hsz]; rfl) (movConflict_direct src f)
    refine ⟨fun t ht => store t (storeOperand_of_stored _ ht), fun hat hd => ?_⟩
    obtain ⟨q, hq⟩ := storeOperand_of_otherSfr v (MovSrc.updates src) hat hd
    exact ⟨q, store _ hq⟩
  case memory =>
    have store := fun w => complete (.mem o) w hbyte hconf
    rw [storeDestination_mem v (MovSrc.updates src) ho] at store
    refine ⟨fun t ht => store t (storeOperand_of_stored _ ht), fun hat hd => ?_⟩
    obtain ⟨q, hq⟩ := storeOperand_of_otherSfr v (MovSrc.updates src ++ MemOperand.updates o) hat hd
    exact ⟨q, store _ hq⟩

theorem loadSource_of_sourceReads {s u : State} {sz : Size} {src : MovSrc} {v : Word}
    (h : SourceReads s sz src v u) : loadSource s sz src = .next (v, u) := by
  cases src with
  | reg r => obtain ⟨rfl, rfl⟩ := h; rfl
  | lit k => obtain ⟨rfl, rfl⟩ := h; rfl
  | direct f => exact h
  | mem o =>
    obtain ⟨ea, t, ho, hnone, hread⟩ := h
    have htrap : readTrap t.dev ea sz = none :=
      Option.eq_none_iff_forall_ne_some.mpr fun c hc => hnone c (readTrap_eq_some.mp hc)
    rw [loadSource_mem ho, readOperand_of_none _ _ htrap]
    exact hread

/-- Settles O52: a source that is read where Operand points is loaded, and its destination stores the value. -/
theorem movGeneralUnderModifiers : Obligations.MovGeneralUnderModifiers := fun _ _ _ _ _ hsafe hreads =>
  movStores_of_loadSource hsafe (loadSource_of_sourceReads hreads)

/-- Settles O53: past its hazard check a MOV is refused for its form first, then for a register its operands share. -/
theorem refusedMovForms : Obligations.RefusedMovForms := by
  intro s src dst hsafe
  refine ⟨fun hmem => ?form, fun sz hbyte hshared => exec_of_conflict rfl hsafe hbyte ?conflict⟩
  case form =>
    have hform : byteFormDescribed .byte src dst = false := by
      rwa [byteFormDescribed, Bool.and_eq_false_iff]
    rw [exec_of_movParts rfl, moveOp, guarded_of_not_violation _ hsafe, if_pos hform]
  case conflict =>
    obtain ⟨r, ⟨hr, hother⟩ | ⟨hr, hother⟩⟩ := hshared
    · exact Bool.or_eq_true_iff.mpr (.inl (List.any_eq_true.mpr ⟨r, hr, List.contains_iff_mem.mpr hother⟩))
    · exact Bool.or_eq_true_iff.mpr (.inr (List.any_eq_true.mpr ⟨r, hr, List.contains_iff_mem.mpr hother⟩))

/-! #### A source whose read traps -/

/-- An operand touches at most the pointer its mode updates, and no record. -/
theorem operand_touches {s t : State} {agu : Agu} {o : MemOperand} {sz : Size} {ea : Word}
    (h : operand s agu (.mcu o.mode) o.ptr sz = .next (ea, t)) :
    OnlyTouched (MemOperand.updates o) s t ∧ t.faultRecord = s.faultRecord := by
  obtain rfl | ⟨hptr, a, rfl⟩ := operand_mcu_state h
  · exact ⟨.refl _ t, rfl⟩
  · exact ⟨.setW s a hptr, rfl⟩

/-- A source in the data space is read at its address, where it traps with a free value in the pointer its mode updates
(R115). -/
theorem loadSource_of_address {s : State} {sz : Size} {src : MovSrc} {ea : Word} {c : AddressErrorCause}
    (haddr : SourceAddress s sz src ea) (h : ReadTraps s.dev ea sz c) :
    ∃ m, OnlyTouched (MovSrc.updates src) s m ∧ m.faultRecord = s.faultRecord ∧
      loadSource s sz src = memRead m ea sz := by
  cases src with
  | reg r => exact haddr.elim
  | lit k => exact haddr.elim
  | direct f => exact ⟨s, .refl _ s, rfl, by rw [show ea = f from haddr]; rfl⟩
  | mem o =>
    obtain ⟨t, ho⟩ := haddr
    obtain ⟨htouched, hrecord⟩ := operand_touches ho
    rw [← htouched.dev] at h
    refine ⟨t.drawAll (MemOperand.updates o), htouched.trans (.drawAll t _) fun _ hr => hr,
      (t.drawAll_faultRecord _).trans hrecord, ?_⟩
    rw [loadSource_mem ho, readOperand_of_some _ _ (readTrap_eq_some.mpr h)]

/-- What a trapping read delivers where it is known does not depend on what has been touched. -/
theorem OnlyTouched.trapDelivers {rs : List Reg} {s t : State} (h : OnlyTouched rs s t) {a v : Word}
    {c : AddressErrorCause} (hv : TrapDelivers s a v c) : TrapDelivers t a v c := by
  cases c with
  | misalignedRead => exact h.delivers (sz := .word) hv
  | unimplementedRead => exact hv
  | misalignedWrite => exact hv
  | unimplementedWrite => exact hv

theorem memRead_trapDelivers {s t : State} {a v x : Word} {sz : Size} {c : AddressErrorCause}
    (h : ReadTraps s.dev a sz c) (hread : memRead s a sz = .next (v, t)) (hx : TrapDelivers s a x c) : v = x := by
  cases c with
  | misalignedRead =>
    obtain ⟨rfl, hodd⟩ := h
    obtain ⟨-, hmisaligned, -⟩ := misalignedWordAccess s a hodd
    cases (hmisaligned x hx).symm.trans hread
    rfl
  | unimplementedRead =>
    obtain ⟨hal, habsent⟩ := h
    obtain ⟨hzeros, -⟩ := unimplementedAccess.1 s a sz habsent hal
    cases hzeros.symm.trans hread
    exact hx.symm
  | misalignedWrite => exact h.elim
  | unimplementedWrite => exact h.elim

/-- A source whose read traps is loaded all the same, with the error on record (R222). -/
theorem loadSource_traps {s : State} {sz : Size} {src : MovSrc} {ea : Word} {c : AddressErrorCause}
    (haddr : SourceAddress s sz src ea) (h : ReadTraps s.dev ea sz c) :
    ∃ v u, loadSource s sz src = .next (v, u) ∧ TrappedRead c (MovSrc.updates src) s u v ∧
      ∀ x, TrapDelivers s ea x c → v = x := by
  obtain ⟨m, htouched, hrecord, hload⟩ := loadSource_of_address haddr h
  rw [← htouched.dev] at h
  obtain ⟨v, u, hread, hu⟩ := memRead_traps h
  exact ⟨v, u, hload.trans hread, hu.after htouched hrecord,
    fun x hx => memRead_trapDelivers h hread (htouched.trapDelivers hx)⟩

/-- Settles O60: the trapped read leaves the begun state but for what it touched, and its value is then stored. -/
theorem movGeneralTrappedRead : Obligations.MovGeneralTrappedRead := by
  intro s sz src ea c hsafe hnone haddr htraps
  obtain ⟨v, u, hload, htrapped, hdelivers⟩ := loadSource_traps haddr (show ReadTraps s.start.dev ea sz c from htraps)
  have htouched := htrapped.touched
  obtain ⟨hregs, hmem, hctrl⟩ := htouched.kept
  refine ⟨v, u, htrapped.recorded hnone, fun x hx => hdelivers x hx, hregs, hmem, hctrl,
    htouched.paramsKept, htouched.latchEmptied, htouched.acc, ?pc, ?rc, movStores_of_loadSource hsafe hload⟩
  case pc => rw [htouched.same]; rfl
  case rc => rw [htouched.same]; rfl

end Sys2Proof.Machine
end

/-! ### The six shown forms of MOV (R180 to R186) -/

section
namespace Sys2Proof.Machine

/-! #### A word loaded into a working register -/

section WordLoad

variable {i : Instr} {src : MovSrc} {d : Reg} {s : State} (hp : movParts i = some (.word, src, .reg d))
  (hsafe : ¬Violation s (MovSrc.readPointers src)) (hconf : movConflict src (.reg d) = false)
include hp hsafe hconf

theorem exec_of_wordLoad {u : State} {v : Word} (hload : loadSource s.start .word src = .next (v, u)) :
    exec i s = .next (u.setW d v).advance :=
  exec_of_mov hp hsafe rfl hconf hload (by rw [turnBetween_reg]; rfl)

theorem wordLoad_completes {u : State} {v : Word} (hload : loadSource s.start .word src = .next (v, u))
    (hn : NothingRaised s u) :
    ∃ t, exec i s = .next t ∧ t.getW d = v ∧ (∀ r, r ≠ d → t.getW r = u.getW r) ∧
      CompletedChanging (MovSrc.updates src ++ [d]) s t := by
  have htouched : OnlyTouched (MovSrc.updates src ++ [d]) s.start (u.setW d v) :=
    (OnlyTouched.loadSource hload).trans (.setW u v (by simp)) fun r hr => by simp [hr]
  exact ⟨_, exec_of_wordLoad hp hsafe hconf hload, State.setW_getW_same u d v,
    fun r hr => State.setW_getW_other u v hr, htouched.completedChanging hn⟩

theorem wordLoad_traps {ea : Word} {c : AddressErrorCause} (haddr : SourceAddress s.start .word src ea)
    (htraps : ReadTraps s.dev ea .word c) (hnone : s.faultRecord = none) :
    ∃ t, exec i s = .next t ∧ t.faultRecord = some c ∧ (c = .unimplementedRead → t.getW d = 0) ∧
      RegsKeptBut (MovSrc.updates src ++ [d]) s t ∧ MemKept s t ∧ CtrlKept s t ∧ MovedOn s t := by
  obtain ⟨v, u, hload, hread, -⟩ := loadSource_traps haddr htraps
  have htouched : OnlyTouched (MovSrc.updates src ++ [d]) s.start (u.setW d v) :=
    hread.touched.trans (.setW u v (by simp)) fun r hr => by simp [hr]
  exact ⟨_, exec_of_wordLoad hp hsafe hconf hload, hread.recorded hnone,
    fun hc => (State.setW_getW_same u d v).trans (hread.zeros hc), htouched.advance_kept⟩

end WordLoad

/-- Settles O45: a literal is loaded from the begun state, which it leaves. -/
theorem movLiteral : Obligations.MovLiteral := by
  intro s lit d
  obtain ⟨t, ht, hd, -, hdone⟩ := wordLoad_completes (i := .movLitW lit d) rfl (not_violation_noRead s)
    rfl rfl ⟨rfl, rfl, rfl, rfl⟩
  exact ⟨t, ht, hd, hdone⟩

/-- `[Ws]` updates no register, so `s = d` is no conflict (R114, R183). -/
theorem movConflict_indirect_reg (r d : Reg) : movConflict (.mem ⟨r, .indirect⟩) (.reg d) = false := rfl

/-- Settles O47: the read is at Ws, and no pointer is updated. -/
theorem movIndirect : Obligations.MovIndirect := by
  intro s r d
  refine ⟨fun hsafe => ⟨fun v hv => ?loads, fun hnone hodd => ?odd, fun hnone heven habsent => ?absent⟩,
    fun hviolated => ?violated⟩
  case violated => exact (exec_of_movParts (i := .movIndW r d) rfl s).trans (guarded_of_violation _ hviolated)
  case loads =>
    have hload : loadSource s.start .word (.mem ⟨r, .indirect⟩) = .next (v, s.start) :=
      (loadSource_indirect s.start r).trans (memRead_of_delivers (sz := .word) hv)
    obtain ⟨t, ht, hd, -, hdone⟩ := wordLoad_completes (i := .movIndW r d) rfl hsafe (movConflict_indirect_reg r d)
      hload ⟨rfl, rfl, rfl, rfl⟩
    exact ⟨t, ht, hd, hdone⟩
  all_goals
    have haddr : SourceAddress s.start .word (.mem ⟨r, .indirect⟩) (s.getW r) := ⟨_, operand_of_unmoved rfl nofun⟩
    have traps := fun c => wordLoad_traps (i := .movIndW r d) (c := c) rfl hsafe (movConflict_indirect_reg r d) haddr
  case odd =>
    obtain ⟨t, ht, hrecord, -, hkept⟩ := traps _ (readTraps_of_odd s.dev hodd) hnone
    exact ⟨t, ht, hrecord, hkept⟩
  case absent =>
    obtain ⟨t, ht, hrecord, hzeros, hkept⟩ := traps _ (readTraps_of_absent heven habsent) hnone
    exact ⟨t, ht, hrecord, hzeros rfl, hkept⟩

/-- `[Ws++]` updates Ws, which Wd may not be (R114, R184). -/
theorem movConflict_postInc_reg (r d : Reg) : movConflict (.mem ⟨r, .postInc⟩) (.reg d) = decide (r = d) := by
  simp [movConflict, MovSrc.updates, MovDst.updates, MemOperand.updates, MovDst.names]

/-- Settles O48: the read is at Ws, which is then moved on, or, where the read traps, free. -/
theorem movPostincLoad : Obligations.MovPostincLoad := by
  intro s r d hsafe
  refine ⟨fun v p hne hv hp => ?loads, fun p hne hnone hp hodd => ?odd, fun p hne hnone hp heven habsent => ?absent,
    fun heq => ?conflict⟩
  case conflict =>
    exact exec_of_conflict (i := .movPostincW r d) rfl hsafe rfl
      ((movConflict_postInc_reg r d).trans (decide_eq_true heq))
  all_goals have hconf := (movConflict_postInc_reg r d).trans (decide_eq_false hne)
  case loads =>
    have hload : loadSource s.start .word (.mem ⟨r, .postInc⟩) = .next (v, s.start.setW r p) :=
      (loadSource_postInc (s := s.start) hp).trans (readOperand_of_delivers (sz := .word) [r] hv)
    obtain ⟨t, ht, hd, hothers, hdone⟩ := wordLoad_completes (i := .movPostincW r d) rfl hsafe hconf hload
      ⟨rfl, rfl, rfl, rfl⟩
    exact ⟨t, ht, hd, (hothers r hne).trans (State.setW_getW_same _ r p), hdone⟩
  all_goals
    have haddr : SourceAddress s.start .word (.mem ⟨r, .postInc⟩) (s.getW r) :=
      ⟨_, operand_of_postIncTo (s := s.start) nofun hp⟩
    have traps := fun c => wordLoad_traps (i := .movPostincW r d) (c := c) rfl hsafe hconf haddr
  case odd =>
    obtain ⟨t, ht, hrecord, -, hkept⟩ := traps _ (readTraps_of_odd s.dev hodd) hnone
    exact ⟨t, ht, hrecord, hkept⟩
  case absent =>
    obtain ⟨t, ht, hrecord, hzeros, hkept⟩ := traps _ (readTraps_of_absent heven habsent) hnone
    exact ⟨t, ht, hrecord, hzeros rfl, hkept⟩

/-! #### A word stored -/

section WordStore

variable {rs : List Reg} {s m : State} {a v : Word} {e : StepResult} (hm : OnlyTouched rs s.start m)
  (hstore : ∀ w, storeOperand m a .word v rs = .next w → e = .next w.advance)
include hm hstore

/-- An instruction that touched registers and then stores a word in RAM. -/
theorem wordStore_ram (hn : NothingRaised s m) (ha : RamWritable s.dev a) :
    ∃ t, e = .next t ∧ HoldsWord t a v ∧ t.getW = m.getW ∧ CompletedStoring rs a .word s t := by
  have ha' : RamWritable m.dev a := hm.dev.symm ▸ ha
  exact ⟨_, hstore _ (storeOperand_of_stored rs (.inl ⟨ha', rfl⟩)), HoldsWord.setWord v ha', rfl,
    hm.completedStoring hn a v⟩

/-- An instruction that touched registers and then stores a word in a control register. -/
theorem wordStore_ctrl (hn : NothingRaised s m) {k : CtrlReg} (hw : s.dev.wf = true) (ha : a = s.dev.addrOf k) :
    ∃ t, e = .next t ∧ t.getW = m.getW ∧ CompletedControlWrite rs k v s t := by
  have hdev : m.dev = s.dev := hm.dev
  exact ⟨_, hstore _ (storeOperand_of_stored rs (.inr ⟨hdev ▸ hw, k, hdev ▸ ha, rfl⟩)),
    funext (State.writeCtrl_getW m k v), hm.completedControlWrite hn k v⟩

/-- An instruction that touched registers and whose store is an offending one (log 12). -/
theorem wordStore_traps {c : AddressErrorCause} (hnone : m.faultRecord = none)
    (hc : writeTrap s.dev a .word = some c) :
    ∃ t, e = .next t ∧ t.faultRecord = some c ∧ RegsKeptBut rs s t ∧ MemKept s t ∧ CtrlKept s t ∧ MovedOn s t := by
  have hc' : writeTrap m.dev a .word = some c := hm.dev.symm ▸ hc
  have htouched := (hm.trans (.drawAll m rs) fun _ hr => hr).raise c
  exact ⟨_, hstore _ (storeOperand_of_trap v rs hc'),
    State.raise_records c ((m.drawAll_faultRecord rs).trans hnone), htouched.advance_kept⟩

end WordStore

/-- Settles O46: Wn is stored from the begun state at the address. -/
theorem movToAddress : Obligations.MovToAddress := by
  intro s r f
  have hm := OnlyTouched.refl [] s.start
  have hstore : ∀ w, storeOperand s.start f .word (s.getW r) [] = .next w →
      exec (.movWF r f) s = .next w.advance := fun w =>
    exec_of_mov rfl (not_violation_noRead s) rfl (movConflict_direct (.reg r) f) rfl
  refine ⟨fun hram => ?ram, fun hw k hk => ?ctrl, fun hnone hodd => ?odd, fun hnone heven habsent => ?absent⟩
  case ram =>
    obtain ⟨t, ht, hheld, -, hdone⟩ := wordStore_ram hm hstore ⟨rfl, rfl, rfl, rfl⟩ hram
    exact ⟨t, ht, hheld, hdone⟩
  case ctrl =>
    obtain ⟨t, ht, -, hdone⟩ := wordStore_ctrl hm hstore ⟨rfl, rfl, rfl, rfl⟩ hw hk
    exact ⟨t, ht, hdone⟩
  case odd =>
    obtain ⟨t, ht, hrecord, hregs, hmem, hctrl, hmoved⟩ :=
      wordStore_traps hm hstore hnone (writeTrap_of_odd s.dev hodd)
    exact ⟨t, ht, hrecord, hmem, hctrl, hregs, hmoved⟩
  case absent =>
    obtain ⟨t, ht, hrecord, hregs, hmem, hctrl, hmoved⟩ :=
      wordStore_traps hm hstore hnone (writeTrap_of_absent heven habsent)
    exact ⟨t, ht, hrecord, hmem, hctrl, hregs, hmoved⟩

/-- `[Wd++]` updates Wd, which Ws may not be (R114, R185). -/
theorem movConflict_reg_postInc (r d : Reg) : movConflict (.reg r) (.mem ⟨d, .postInc⟩) = decide (r = d) := by
  simp [movConflict, MovSrc.updates, MovDst.updates, MemOperand.updates, MovSrc.names, eq_comm]

theorem exec_movWPostinc_of_store {s w : State} {r d : Reg} {p : Word} (hne : r ≠ d) (hp : PostIncTo s .xWagu d p)
    (hw : storeOperand (s.start.setW d p) (s.getW d) .word (s.getW r) [d] = .next w) :
    exec (.movWPostinc r d) s = .next w.advance :=
  exec_of_mov rfl (not_violation_noRead s) rfl ((movConflict_reg_postInc r d).trans (decide_eq_false hne)) rfl
    ((storeDestination_postInc (s := s.start) (s.getW r) [] hp).trans hw)

/-- Settles O49: the store is at Wd, which has been moved on, or, where the store is an offending one, is free. -/
theorem movPostincStore : Obligations.MovPostincStore := by
  intro s r d
  have hm := fun p => OnlyTouched.setW s.start p (List.mem_singleton.mpr (rfl : d = d))
  refine ⟨fun p hne hram hp => ?ram, fun p k hne hw hk hp => ?ctrl, fun p hne hnone hp hodd => ?odd,
    fun p hne hnone hp heven habsent => ?absent, fun heq => ?conflict⟩
  case conflict =>
    exact exec_of_conflict (i := .movWPostinc r d) rfl (not_violation_noRead s) rfl
      ((movConflict_reg_postInc r d).trans (decide_eq_true heq))
  all_goals have hstore := fun w => exec_movWPostinc_of_store (w := w) hne hp
  case ram =>
    obtain ⟨t, ht, hheld, hregs, hdone⟩ := wordStore_ram (hm p) hstore ⟨rfl, rfl, rfl, rfl⟩ hram
    exact ⟨t, ht, hheld, (congrFun hregs d).trans (State.setW_getW_same _ d p), hdone⟩
  case ctrl =>
    obtain ⟨t, ht, hregs, hdone⟩ := wordStore_ctrl (hm p) hstore ⟨rfl, rfl, rfl, rfl⟩ hw hk
    exact ⟨t, ht, (congrFun hregs d).trans (State.setW_getW_same _ d p), hdone⟩
  case odd => exact wordStore_traps (hm p) hstore hnone (writeTrap_of_odd s.dev hodd)
  case absent => exact wordStore_traps (hm p) hstore hnone (writeTrap_of_absent heven habsent)

/-! #### A word copied -/

/-- Both operands update their pointer, which the other may not be (R114, R186). -/
theorem movConflict_postInc_postInc (r d : Reg) :
    movConflict (.mem ⟨r, .postInc⟩) (.mem ⟨d, .postInc⟩) = decide (r = d) := by
  simp [movConflict, MovSrc.updates, MovDst.updates, MemOperand.updates, MovSrc.names, MovDst.names,
    MemOperand.names, eq_comm]

section WordCopy

variable {s u : State} {r d : Reg} {q v : Word}
  (hload : loadSource s.start .word (.mem ⟨r, .postInc⟩) = .next (v, u))
include hload

theorem postincCopy_touched : OnlyTouched [r, d] s.dmaTurn.start (u.dmaTurn.setW d q) :=
  (OnlyTouched.loadSource hload).dmaTurn.trans (.setW _ q (by simp)) fun _ hr => List.mem_append_left [d] hr

/-- After the read and the DMA controller's turn the store is at Wd, which the read has left alone. -/
theorem exec_movPostincPostinc_of_store {w : State} (hne : r ≠ d) (hsafe : ¬Violation s (.through [r]))
    (hq : PostIncTo s .xWagu d q)
    (hw : storeOperand (u.dmaTurn.setW d q) (s.getW d) .word v [r, d] = .next w) :
    exec (.movPostincPostinc r d) s = .next w.advance := by
  have hturn : OnlyTouched [r] s.start.dmaTurn u.dmaTurn := (OnlyTouched.loadSource hload).dmaTurn
  have hd : d ∉ [r] := by simpa using hne.symm
  have hptr : u.dmaTurn.getW d = s.getW d := hturn.regs d hd
  refine exec_of_mov rfl hsafe rfl ((movConflict_postInc_postInc r d).trans (decide_eq_false hne)) hload ?_
  refine (storeDestination_postInc (s := u.dmaTurn) v [r] (hturn.postIncTo hd hq)).trans ?_
  rw [hptr]
  exact hw

end WordCopy

/-- A store keeps the record of an earlier error (R32, R224). -/
theorem StoreEffect.record {d : Dev} {a : Word} {sz : Size} {m w : State} {c : AddressErrorCause}
    (h : StoreEffect d a sz m w) (hc : m.faultRecord = some c) : w.faultRecord = some c := by
  cases h with
  | trap c' _ => rw [State.raise_faultRecord, hc]
  | ctrl r v _ => rwa [State.writeCtrl_faultRecord]
  | other q _ _ _ _ => exact hc
  | ram v _ _ => cases sz <;> exact hc

theorem storeOperand_record {s w : State} {a v : Word} {sz : Size} {rs : List Reg} {c : AddressErrorCause}
    (h : storeOperand s a sz v rs = .next w) (hc : s.faultRecord = some c) : w.faultRecord = some c := by
  obtain ⟨m, -, hrecord, heffect⟩ := storeOperand_effect h
  exact heffect.record (hrecord.trans hc)

/-- A word store at an odd or an unimplemented address, in RAM or in a control register gives a next state. -/
theorem storeOperand_completes {s : State} {a : Word} (v : Word) (rs : List Reg)
    (h : isOdd a = true ∨ isRam s.dev a.toNat = true ∨ s.dev.kind a.toNat = .absent ∨
      (s.dev.wf = true ∧ ∃ k, a = s.dev.addrOf k)) :
    ∃ w, storeOperand s a .word v rs = .next w := by
  cases hodd : isOdd a with
  | true => exact ⟨_, storeOperand_of_trap v rs (writeTrap_of_odd s.dev hodd)⟩
  | false =>
    obtain htrue | hram | habsent | ⟨hw, k, hk⟩ := h
    · exact absurd (hodd.symm.trans htrue) nofun
    · exact ⟨_, storeOperand_of_stored rs (.inl ⟨⟨hodd, hram⟩, rfl⟩)⟩
    · exact ⟨_, storeOperand_of_trap v rs (writeTrap_of_absent hodd habsent)⟩
    · exact ⟨_, storeOperand_of_stored rs (.inr ⟨hw, k, hk, rfl⟩)⟩

/-- Settles O50: the word read at Ws is stored, after the turn, at Wd; a read that traps is followed by the store, which
keeps its record. -/
theorem movPostincCopy : Obligations.MovPostincCopy := by
  intro s r d hsafe
  refine ⟨fun heq => ?conflict, fun p q hne hp hq => ⟨fun v hv => ?copies, fun hnone hdst => ?trapped⟩⟩
  case conflict =>
    exact exec_of_conflict (i := .movPostincPostinc r d) rfl hsafe rfl
      ((movConflict_postInc_postInc r d).trans (decide_eq_true heq))
  case copies =>
    have hload : loadSource s.start .word (.mem ⟨r, .postInc⟩) = .next (v, s.start.setW r p) :=
      (loadSource_postInc (s := s.start) hp).trans (readOperand_of_delivers (sz := .word) [r] hv)
    have hm : OnlyTouched [r, d] s.dmaTurn.start ((s.start.setW r p).dmaTurn.setW d q) :=
      postincCopy_touched hload
    have hstore := fun w => exec_movPostincPostinc_of_store (w := w) hload hne hsafe hq
    have hr : ((s.start.setW r p).dmaTurn.setW d q).getW r = p :=
      (State.setW_getW_other _ q hne).trans (State.setW_getW_same s.start r p)
    have hd : ((s.start.setW r p).dmaTurn.setW d q).getW d = q := State.setW_getW_same _ d q
    refine ⟨fun hram => ?ram, fun k hw hk => ?ctrl, fun hnone hodd => ?odd, fun hnone heven habsent => ?absent⟩
    case ram =>
      obtain ⟨t, ht, hheld, hregs, hdone⟩ := wordStore_ram hm hstore ⟨rfl, rfl, rfl, rfl⟩ hram
      exact ⟨t, ht, hheld, (congrFun hregs r).trans hr, (congrFun hregs d).trans hd, hdone⟩
    case ctrl =>
      obtain ⟨t, ht, hregs, hdone⟩ := wordStore_ctrl hm hstore ⟨rfl, rfl, rfl, rfl⟩ hw hk
      exact ⟨t, ht, (congrFun hregs r).trans hr, (congrFun hregs d).trans hd, hdone⟩
    case odd => exact wordStore_traps hm hstore hnone (writeTrap_of_odd s.dev hodd)
    case absent => exact wordStore_traps hm hstore hnone (writeTrap_of_absent heven habsent)
  case trapped =>
    have haddr : SourceAddress s.start .word (.mem ⟨r, .postInc⟩) (s.getW r) :=
      ⟨_, operand_of_postIncTo (s := s.start) nofun hp⟩
    have records : ∀ c, ReadTraps s.dev (s.getW r) .word c →
        ∃ t, exec (.movPostincPostinc r d) s = .next t ∧ t.faultRecord = some c := by
      intro c hc
      obtain ⟨v, u, hload, hread, -⟩ := loadSource_traps haddr hc
      have hdev : (u.dmaTurn.setW d q).dev = s.dev := hread.touched.dev
      rw [← hdev] at hdst
      obtain ⟨w, hw⟩ := storeOperand_completes v [r, d] hdst
      have hrecord : w.faultRecord = some c := storeOperand_record hw (hread.recorded hnone)
      exact ⟨_, exec_movPostincPostinc_of_store hload hne hsafe hq hw, hrecord⟩
    exact ⟨fun hodd => records _ (readTraps_of_odd s.dev hodd),
      fun heven habsent => records _ (readTraps_of_absent heven habsent)⟩

end Sys2Proof.Machine
end

/-! ### MAC (R195, R62, R63, R114, R115, decisions D4 and D24) -/

section
namespace Sys2Proof

/-! #### The registers of a MAC -/

theorem XPtr.reg_ne_yPtr (x : XPtr) (y : YPtr) : x.reg ≠ y.reg := by cases x <;> cases y <;> decide

theorem XPtr.reg_ne_w13 (x : XPtr) : x.reg ≠ 13 := by cases x <;> decide

theorem YPtr.reg_ne_w13 (y : YPtr) : y.reg ≠ 13 := by cases y <;> decide

end Sys2Proof
end

section
namespace Sys2Proof.Machine

/-- The register conflicts of a MAC as R114 lists them (log 17). -/
theorem macConflict_iff {m n x xd y yd : Reg} :
    macConflict m n x xd y yd = true ↔
      m ∈ [x, y, 13] ∨ n ∈ [x, y, 13] ∨ xd ∈ [x, y, 13] ∨ yd ∈ [x, y, 13] ∨ xd = yd := by
  simp only [macConflict, Bool.or_eq_true, beq_iff_eq, List.any_cons, List.any_nil, Bool.or_false,
    List.contains_iff_mem, or_assoc]

/-- Without a conflict the prefetch destinations are none of the pointers and differ. -/
theorem not_mem_of_macConflict {m n x xd y yd : Reg} (h : macConflict m n x xd y yd = false) :
    xd ∉ [x, y, 13] ∧ yd ∉ [x, y, 13] ∧ xd ≠ yd := by
  have hnot := mt macConflict_iff.mpr (ne_true_of_eq_false h)
  simp only [not_or] at hnot
  obtain ⟨-, -, hxd, hyd, hne⟩ := hnot
  exact ⟨hxd, hyd, hne⟩

/-- Without a conflict W13 is no prefetch pointer and no prefetch destination. -/
theorem w13_not_mem_of_macConflict {m n xd yd : Reg} {x : XPtr} {y : YPtr}
    (h : macConflict m n x.reg xd y.reg yd = false) : (13 : Reg) ∉ [x.reg, y.reg, xd, yd] := by
  obtain ⟨hxd, hyd, -⟩ := not_mem_of_macConflict h
  simp only [List.mem_cons, List.not_mem_nil, or_false, not_or] at hxd hyd ⊢
  obtain ⟨-, -, hxd13⟩ := hxd
  obtain ⟨-, -, hyd13⟩ := hyd
  exact ⟨x.reg_ne_w13.symm, y.reg_ne_w13.symm, Ne.symm hxd13, Ne.symm hyd13⟩

/-! #### The prefetches, delivering and trapping -/

/-- A word read at an even address that something is behind does not trap. -/
theorem readOperand_of_present {s : State} {a : Word} (rs : List Reg) (read : State → Result Word)
    (heven : isOdd a = false) (hk : s.dev.kind a.toNat ≠ .absent) : readOperand s a .word rs read = read s :=
  readOperand_of_none rs read (readTrap_of_accessible (fun _ => heven) (by rwa [wordAddr_of_even heven]))

theorem readOperand_of_xDelivers {s : State} {a v : Word} (rs : List Reg) (h : XDelivers s a v) :
    readOperand s a .word rs (memReadX · a) = .next (v, s) := by
  have hpresent : s.dev.kind a.toNat ≠ .absent := by
    obtain ⟨-, ⟨hram, -⟩ | ⟨-, -, hram, -⟩ | ⟨hsfr, -⟩⟩ := h
    · exact kind_ne_absent_of_isRam hram
    · exact kind_ne_absent_of_isRam hram
    · simp [hsfr]
  exact (readOperand_of_present rs _ h.1 hpresent).trans (splitView.1 s a v h)

theorem readOperand_of_yDelivers {s : State} {a v : Word} (rs : List Reg) (h : YDelivers s a v) :
    readOperand s a .word rs (memReadY · a) = .next (v, s) := by
  have hpresent : s.dev.kind a.toNat ≠ .absent := by
    obtain ⟨-, ⟨⟨hram, -⟩, -⟩ | ⟨hsfr, -⟩ | ⟨-, -, hram, -⟩⟩ := h
    · exact kind_ne_absent_of_isRam hram
    · simp [hsfr]
    · exact kind_ne_absent_of_isRam hram
  exact (readOperand_of_present rs _ h.1 hpresent).trans (splitView.2 s a v h)

theorem memReadX_traps {s : State} {a : Word} {c : AddressErrorCause} (h : ReadTraps s.dev a .word c) :
    ∃ v t, memReadX s a = .next (v, t) ∧ TrappedRead c [] s t v :=
  read_traps h (fun _ hodd => memReadX_of_odd s hodd) (fun _ _ _ => readAlignedX_onlyRaised) fun hal habsent =>
    (unimplementedAccess.2 s a (by rwa [wordAddr_of_even (hal rfl)] at habsent) (hal rfl)).1

theorem memReadY_traps {s : State} {a : Word} {c : AddressErrorCause} (h : ReadTraps s.dev a .word c) :
    ∃ v t, memReadY s a = .next (v, t) ∧ TrappedRead c [] s t v :=
  read_traps h (fun _ hodd => memReadY_of_odd s hodd) (fun _ _ _ => readAlignedY_onlyRaised) fun hal habsent =>
    (unimplementedAccess.2 s a (by rwa [wordAddr_of_even (hal rfl)] at habsent) (hal rfl)).2

section Touched

variable {rs : List Reg} {s t : State} (h : OnlyTouched rs s t)
include h

theorem OnlyTouched.yDelivers {a v : Word} (hv : YDelivers s a v) : YDelivers t a v := by
  rw [h.same]; exact hv

theorem OnlyTouched.postModTo {agu : Agu} {n : Reg} {k : Int} {p : Word} (hn : n ∉ rs) (hp : PostModTo s agu n k p) :
    PostModTo t agu n k p := by
  have hbounds : moduloBounds t agu n = moduloBounds s agu n := by rw [h.same]; cases agu <;> rfl
  simpa only [PostModTo, hbounds, h.regs n hn] using hp

end Touched

/-- A write's post-modification is linear or modulo, where R112 does not refuse it (R110). -/
theorem operand_of_postModTo_write {s : State} {n : Reg} {k : Int} {p : Word} (sz : Size)
    (hrev : s.bitRevSel n = true → s.xModSel n = false) (h : PostModTo s .xWagu n k p) :
    operand s .xWagu (.postMod k) n sz = .next (s.getW n, s.setW n p) := by
  by_cases hsel : s.bitRevSel n = true
  · have hmod := ne_true_of_eq_false (hrev hsel)
    have hbounds : moduloBounds s .xWagu n = none := if_neg hmod
    have hp : p = s.getW n + BitVec.ofInt 16 k := by simpa only [PostModTo, hbounds] using h
    rw [operand_of_irreversible hsel (by cases sz <;> rfl), if_neg hmod, plainOperand_of_unbounded _ sz hbounds, hp]
    rfl
  · exact operand_of_postModTo sz (fun hboth => hsel hboth.2) h

/-- The Y prefetch's post-modification where no reserved setting of YWM refuses it (R110, R134). -/
theorem operandY_of_postModTo {s : State} {n : Reg} {k : Int} {p : Word}
    (hres : ¬(s.ymoden = true ∧ ywmReserved s.ywm = true)) (h : PostModTo s .yAgu n k p) :
    operandY s k n = .next (s.getW n, s.setW n p) := by
  rw [operandY, if_neg hres]
  exact operand_of_postModTo .word (fun hboth => nomatch hboth.1) h

/-! #### A MAC, by what its prefetches have read -/

/-- The X prefetch of a MAC begun at `s`, its pointer moved to `px`, delivers `v` and leaves `t` (R62, R195). -/
abbrev XPrefetch (s : State) (x : XPtr) (px v : Word) (t : State) : Prop :=
  readOperand (s.start.setW x.reg px) (s.getW x.reg) .word [x.reg] (memReadX · (s.getW x.reg)) = .next (v, t)

/-- The Y prefetch of a MAC begun at `s`, after the X prefetch has left `t` and the DMA controller has had its turn, its
pointer moved to `py`, delivers `v` and leaves `u` (R63, R70, R195). -/
abbrev YPrefetch (s t : State) (y : YPtr) (py v : Word) (u : State) : Prop :=
  readOperand (t.dmaTurn.setW y.reg py) (s.getW y.reg) .word [y.reg] (memReadY · (s.getW y.reg)) = .next (v, u)

section Prefetches

variable {s t₂ t₄ : State} {x : XPtr} {y : YPtr} {px py xv yv : Word}

theorem xPrefetch_delivers (hxv : XDelivers s (s.getW x.reg) xv) : XPrefetch s x px xv (s.start.setW x.reg px) :=
  readOperand_of_xDelivers [x.reg] hxv

/-- Of the pointer after an X prefetch that traps nothing is said (R115). -/
theorem xPrefetch_traps {c : AddressErrorCause} (hc : ReadTraps s.dev (s.getW x.reg) .word c) :
    ∃ xv t₂, XPrefetch s x px xv t₂ ∧ TrappedRead c [x.reg] (s.start.setW x.reg px) t₂ xv :=
  readOperand_traps [x.reg] hc fun _ ht => memReadX_traps (ht ▸ hc)

theorem XPrefetch.touched (h : XPrefetch s x px xv t₂) : OnlyTouched [x.reg] s.start t₂ :=
  (OnlyTouched.setW s.start px (by simp)).trans (.readOperand (fun _ _ _ => memReadX_onlyRaised) h) fun _ hr => hr

theorem YPrefetch.touched (h : YPrefetch s t₂ y py yv t₄) : OnlyTouched [y.reg] (t₂.dmaTurn.setW y.reg py) t₄ :=
  .readOperand (fun _ _ _ => memReadY_onlyRaised) h

theorem yPrefetch_delivers (hx : XPrefetch s x px xv t₂) (hyv : YDelivers s.dmaTurn (s.getW y.reg) yv) :
    YPrefetch s t₂ y py yv (t₂.dmaTurn.setW y.reg py) := by
  have hyv' : YDelivers t₂.dmaTurn (s.getW y.reg) yv := hx.touched.dmaTurn.yDelivers hyv
  exact readOperand_of_yDelivers [y.reg] hyv'

theorem yPrefetch_traps {c : AddressErrorCause} (hx : XPrefetch s x px xv t₂)
    (hc : ReadTraps s.dev (s.getW y.reg) .word c) :
    ∃ yv t₄, YPrefetch s t₂ y py yv t₄ ∧ TrappedRead c [y.reg] (t₂.dmaTurn.setW y.reg py) t₄ yv := by
  have hdev : (t₂.dmaTurn.setW y.reg py).dev = s.dev := hx.touched.dev
  rw [← hdev] at hc
  exact readOperand_traps [y.reg] hc fun _ ht => memReadY_traps (ht ▸ hc)

end Prefetches

section Mac

variable {s t₂ t₄ u : State} {m n xd yd : Reg} {x : XPtr} {y : YPtr} {kx ky kw : Int} {px py pw xv yv : Word}

/-- The prefetches load what they have read and leave the pointers where their reads left them (R195). -/
theorem macPrefetches_of_reads (hres : ¬(s.ymoden = true ∧ ywmReserved s.ywm = true))
    (hpx : PostModTo s .xRagu x.reg kx px) (hpy : PostModTo s .yAgu y.reg ky py)
    (hx : XPrefetch s x px xv t₂) (hy : YPrefetch s t₂ y py yv t₄) :
    macPrefetches s.start x kx xd y ky yd = .next ((), (t₄.dmaTurn.setW xd xv).setW yd yv) := by
  have hturn : OnlyTouched [x.reg] s.start.dmaTurn t₂.dmaTurn := hx.touched.dmaTurn
  have hyx : y.reg ∉ [x.reg] := by simpa using (x.reg_ne_yPtr y).symm
  have hptr : t₂.dmaTurn.getW y.reg = s.getW y.reg := hturn.regs _ hyx
  have hmodcon : t₂.dmaTurn.readCtrl .modcon = s.readCtrl .modcon := hturn.readCtrl .modcon
  have hres' : ¬(t₂.dmaTurn.ymoden = true ∧ ywmReserved t₂.dmaTurn.ywm = true) := by
    rwa [State.ymoden, State.ywm, hmodcon]
  have hopx : operand s.start .xRagu (.postMod kx) x.reg .word = .next (s.getW x.reg, s.start.setW x.reg px) :=
    operand_of_postModTo .word (fun h => nomatch h.1) hpx
  have hopy : operandY t₂.dmaTurn ky y.reg = .next (s.getW y.reg, t₂.dmaTurn.setW y.reg py) := by
    rw [operandY_of_postModTo hres' (hturn.postModTo hyx hpy), hptr]
  rw [macPrefetches, hopx, andThen_next, hx, andThen_next, hopy, andThen_next, hy, andThen_next]

theorem macWriteBack_of_ramWritable {a : Word} (wb : Word) (acc : Accumulators) (rs : List Reg)
    (h : RamWritable u.dev a) :
    macWriteBack u a wb acc rs = .next (({ u with acc := acc } : State).setWord a.toNat wb) := by
  simp only [macWriteBack, writeTrap_of_ramWritable h]
  exact memWrite_ram wb h

variable (hsafe : ¬Violation s (.through [x.reg, y.reg])) (hconf : macConflict m n x.reg xd y.reg yd = false)
  (hrev : s.bitRevSel 13 = true → s.xModSel 13 = false) (hpw : PostModTo s .xWagu 13 kw pw)
  (hram : RamWritable s.dev (s.getW 13))
include hsafe hconf hrev hpw hram

/-- A MAC whose prefetches have left `u` stores the written-back word through W13 and ends. -/
theorem exec_mac_of_prefetches (h : macPrefetches s.start x kx xd y ky yd = .next ((), u)) :
    ∃ t, exec (.macPrefetchWb m n x kx xd y ky yd kw) s = .next t ∧ (∀ r, r ≠ 13 → t.getW r = u.getW r) ∧
      t.faultRecord = u.faultRecord ∧ t.sfrs = u.sfrs ∧ t.freeCount = u.freeCount ∧
      ParamsKept s.dmaTurn.dmaTurn t ∧ MacWroteBack m n [x.reg, y.reg, xd, yd] pw s t := by
  have hu : OnlyTouched [x.reg, y.reg, xd, yd] s.start.dmaTurn.dmaTurn u := OnlyTouched.macPrefetches h
  have h13 := w13_not_mem_of_macConflict hconf
  have hptr : u.getW 13 = s.getW 13 := hu.regs 13 h13
  have hop : operand u .xWagu (.postMod kw) 13 .word = .next (s.getW 13, u.setW 13 pw) := by
    rw [operand_of_postModTo_write .word (by rw [hu.bitRevSel, hu.xModSel]; exact hrev) (hu.postModTo h13 hpw), hptr]
  have hram' : RamWritable (u.setW 13 pw).dev (s.getW 13) := hu.dev.symm ▸ hram
  have htouched : OnlyTouched [13, x.reg, y.reg, xd, yd] s.dmaTurn.dmaTurn.start (u.setW 13 pw) :=
    hu.trans (.setW u pw (by simp)) fun r hr => List.mem_cons_of_mem 13 hr
  obtain ⟨hregs, hmem, hctrl, hparams, hmoved, hlatch⟩ :=
    htouched.setWord_kept (s.getW 13) (Config.macArith (s.getW m) (s.getW n) s.acc).2
  rw [exec_macPrefetchWb_of_safe hsafe hconf, h, andThen_next, hop, andThen_next,
    macWriteBack_of_ramWritable _ _ _ hram', finish_next]
  exact ⟨_, rfl, fun r hr => State.setW_getW_other u pw hr, rfl, rfl, rfl, hparams, HoldsWord.setWord _ hram', rfl,
    State.setW_getW_same u 13 pw, hregs, hmem, hctrl, hmoved, hlatch⟩

/-- A MAC ends with its destinations loaded, its prefetch pointers and the record as its reads left them. -/
theorem exec_mac_of_reads (hres : ¬(s.ymoden = true ∧ ywmReserved s.ywm = true))
    (hpx : PostModTo s .xRagu x.reg kx px) (hpy : PostModTo s .yAgu y.reg ky py)
    (hx : XPrefetch s x px xv t₂) (hy : YPrefetch s t₂ y py yv t₄) :
    ∃ t, exec (.macPrefetchWb m n x kx xd y ky yd kw) s = .next t ∧ t.getW xd = xv ∧ t.getW yd = yv ∧
      t.getW x.reg = t₂.getW x.reg ∧ t.getW y.reg = t₄.getW y.reg ∧ t.faultRecord = t₄.faultRecord ∧
      t.sfrs = t₄.sfrs ∧ t.freeCount = t₄.freeCount ∧ ParamsKept s.dmaTurn.dmaTurn t ∧
      MacWroteBack m n [x.reg, y.reg, xd, yd] pw s t := by
  obtain ⟨hxd, hyd, hne⟩ := not_mem_of_macConflict hconf
  simp only [List.mem_cons, List.not_mem_nil, or_false, not_or] at hxd hyd
  obtain ⟨hxdx, hxdy, hxd13⟩ := hxd
  obtain ⟨hydx, hydy, hyd13⟩ := hyd
  have hxy := x.reg_ne_yPtr y
  have hxkept : t₄.getW x.reg = t₂.getW x.reg :=
    (hy.touched.regs _ (by simpa using hxy)).trans (State.setW_getW_other _ py hxy)
  obtain ⟨t, ht, hregs, hrecord, hsfrs, hfree, hparams, hwrote⟩ :=
    exec_mac_of_prefetches hsafe hconf hrev hpw hram (macPrefetches_of_reads hres hpx hpy hx hy)
  have others : ∀ r, r ≠ 13 → r ≠ xd → r ≠ yd → t.getW r = t₄.getW r := fun r hr hrx hry => by
    rw [hregs r hr, State.setW_getW_other _ yv hry, State.setW_getW_other _ xv hrx, State.dmaTurn_getW]
  refine ⟨t, ht, ?xd, ?yd, ?x, ?y, hrecord, hsfrs, hfree, hparams, hwrote⟩
  case xd => rw [hregs xd hxd13, State.setW_getW_other _ yv hne, State.setW_getW_same]
  case yd => rw [hregs yd hyd13, State.setW_getW_same]
  case x => exact (others _ x.reg_ne_w13 (Ne.symm hxdx) (Ne.symm hydx)).trans hxkept
  case y => exact others _ y.reg_ne_w13 (Ne.symm hxdy) (Ne.symm hydy)

end Mac

/-- Settles O58: each prefetch delivers in the state it finds and leaves that state. -/
theorem macCompletes : Obligations.MacCompletes := by
  intro s m n x kx xd y ky yd kw px py pw xv yv hsafe hconf hres hpx hxv hpy hyv hrev hpw hram
  have hx : XPrefetch s x px xv _ := xPrefetch_delivers hxv
  have hy : YPrefetch s _ y py yv _ := yPrefetch_delivers hx hyv
  obtain ⟨t, ht, htxd, htyd, htx, hty, hrecord, hsfrs, hfree, hparams, hheld, hacc, htw, hregs, hmem, hctrl, hmoved,
    hlatch⟩ := exec_mac_of_reads hsafe hconf hrev hpw hram hres hpx hpy hx hy
  have htregs : RegsKeptBut [x.reg, y.reg, xd, yd, 13] s t := fun r hr =>
    hregs r (mt (List.perm_append_comm (l₁ := [13])).mem_iff.mp hr)
  exact ⟨t, ht, htxd, htyd, htx.trans (State.setW_getW_same _ _ px), hty.trans (State.setW_getW_same _ _ py), htw,
    hheld, hacc, htregs, hmem, hctrl, hparams, hmoved, hlatch, hrecord, hsfrs, hfree⟩

/-- Settles O59: a prefetch that traps delivers too and leaves its record, which the Y prefetch keeps if it is the X
prefetch's. -/
theorem macTrapsAndConflicts : Obligations.MacTrapsAndConflicts := by
  refine ⟨fun s m n x kx xd y ky yd kw px py pw hsafe hconf hres hpx hpy hrev hpw hram hnone => ?traps,
    fun s m n x kx xd y ky yd kw hsafe hshared => ?conflict⟩
  case traps =>
    refine ⟨fun c yv hc hyv => ?x, fun c xv hxv hc => ?y, fun c c' hc hc' => ?both⟩
    case x =>
      obtain ⟨xv, t₂, hx, hxt⟩ := xPrefetch_traps (px := px) hc
      have hy : YPrefetch s t₂ y py yv _ := yPrefetch_delivers hx hyv
      obtain ⟨t, ht, htxd, htyd, -, hty, hrecord, -, -, -, hwrote⟩ :=
        exec_mac_of_reads hsafe hconf hrev hpw hram hres hpx hpy hx hy
      exact ⟨t, ht, hrecord.trans (hxt.recorded hnone), fun h0 => htxd.trans (hxt.zeros h0), htyd,
        hty.trans (State.setW_getW_same _ _ py), hwrote⟩
    case y =>
      have hx : XPrefetch s x px xv _ := xPrefetch_delivers hxv
      obtain ⟨yv, t₄, hy, hyt⟩ := yPrefetch_traps (py := py) hx hc
      obtain ⟨t, ht, htxd, htyd, htx, -, hrecord, -, -, -, hwrote⟩ :=
        exec_mac_of_reads hsafe hconf hrev hpw hram hres hpx hpy hx hy
      exact ⟨t, ht, hrecord.trans (hyt.recorded hnone), htxd, fun h0 => htyd.trans (hyt.zeros h0),
        htx.trans (State.setW_getW_same _ _ px), hwrote⟩
    case both =>
      obtain ⟨xv, t₂, hx, hxt⟩ := xPrefetch_traps (px := px) hc
      obtain ⟨yv, t₄, hy, hyt⟩ := yPrefetch_traps (py := py) hx hc'
      obtain ⟨t, ht, htxd, htyd, -, -, hrecord, -, -, -, hwrote⟩ :=
        exec_mac_of_reads hsafe hconf hrev hpw hram hres hpx hpy hx hy
      exact ⟨t, ht, hrecord.trans (hyt.touched.record c (hxt.recorded hnone)), fun h0 => htxd.trans (hxt.zeros h0),
        fun h0 => htyd.trans (hyt.zeros h0), hwrote⟩
  case conflict =>
    rw [exec, execMacPrefetchWb, guarded_of_not_violation _ hsafe, if_pos (macConflict_iff.mpr hshared)]

end Sys2Proof.Machine
end

/-! ### A recorded address error stays and ends the run (R223, R32, decision D18) -/

section
namespace Sys2Proof.Machine

theorem step_of_faultRecord {s : State} {c : AddressErrorCause} (hc : s.faultRecord = some c) :
    step s = .fault (.addressError c) := by
  simp only [step, hc]

@[simp] theorem State.dmaTurns_faultRecord (s : State) (k : Nat) : (s.dmaTurns k).faultRecord = s.faultRecord := by
  induction k with
  | zero => rfl
  | succ k ih => exact ih

/-- Neither what an instruction touches nor its store clears or replaces a recorded error (R224, log 14). -/
theorem Effect.record {i : Instr} {s m w : State} {c : AddressErrorCause} (h : Effect i s m w)
    (hc : s.faultRecord = some c) : w.faultRecord = some c := by
  have hm : m.faultRecord = some c := h.touched.record c ((s.dmaTurns_faultRecord _).trans hc)
  rcases h.stored with ⟨-, rfl⟩ | ⟨u, a, sz, -, -, -, hs⟩
  · exact hm
  · exact hs.record hm

/-- Settles O35: the step tests the record before it fetches, and every effect of an instruction keeps it. -/
theorem addressErrorIsTerminal : Obligations.AddressErrorIsTerminal := by
  refine ⟨fun s c hc => step_of_faultRecord hc, fun i s t c h hc => ?kept⟩
  case kept =>
    obtain ⟨m, w, he, -, -, hrecord, -⟩ := exec_effect_kept h
    exact hrecord.trans (he.record hc)

end Sys2Proof.Machine
end

/-! ### The reset state (R240, R13, R14) -/

section
namespace Sys2Proof.Machine

/-- Every state R240 allows meets the invariant where its device is an admitted one: no byte of RAM has been written. -/
theorem AfterReset.inv {s : State} (h : AfterReset s) (hdev : s.dev.wf = true) : Inv s where
  memCanonical := by rw [h.ramUnwritten]; rfl
  memBacked := by
    intro c hc
    rw [h.ramUnwritten] at hc
    cases hc
  ctrlFixed := h.ctrlFixed
  devAdmitted := hdev

theorem afterReset_reset : AfterReset State.reset where
  modconZero := rfl
  ctrlFixed := fun r => by cases r <;> rfl
  ramUnwritten := rfl
  latchEmpty := rfl
  notRepeating := rfl
  noFault := rfl
  firstStatement := rfl

theorem exampleDev_wf : Config.exampleDev.wf = true := by decide

/-- Settles O2: the reset state is one R240 allows, on the example device, which R3 admits. -/
theorem resetMeetsInvariant : Obligations.ResetMeetsInvariant :=
  ⟨afterReset_reset, afterReset_reset.inv exampleDev_wf⟩

end Sys2Proof.Machine
end

/-! ### The latch after an instruction (R250, R30) -/

section
namespace Sys2Proof.Machine

/-- Neither what an instruction touches nor its store changes `hz_old` (R250). -/
theorem Effect.hzOld {i : Instr} {s m w : State} (h : Effect i s m w) :
    w.hzOldModcon = s.hzOldModcon ∧ w.hzOldXbrev = s.hzOldXbrev := by
  have htouched : m.hzOldModcon = s.hzOldModcon ∧ m.hzOldXbrev = s.hzOldXbrev :=
    ⟨(congrArg State.hzOldModcon h.touched.same).trans (by rw [State.dmaTurns_eq]),
      (congrArg State.hzOldXbrev h.touched.same).trans (by rw [State.dmaTurns_eq])⟩
  obtain ⟨-, rfl⟩ | ⟨u, a, sz, -, -, -, hs⟩ := h.stored
  · exact htouched
  · obtain ⟨-, -, -, ⟨hmodcon, hxbrev⟩, -⟩ := hs.keeps
    exact ⟨hmodcon.trans htouched.1, hxbrev.trans htouched.2⟩

/-- After each executed instruction `hz_old` holds MODCON and XBREV as they were before it. -/
theorem exec_hzOld {i : Instr} {s t : State} (h : exec i s = .next t) :
    t.hzOldModcon = s.readCtrl .modcon ∧ t.hzOldXbrev = s.readCtrl .xbrev := by
  obtain ⟨m, w, he, ⟨-, rfl⟩ | ⟨lit, -, -, rfl⟩⟩ := exec_effect h
  · exact he.hzOld
  · exact he.hzOld

@[simp] theorem HazardLatch.has_empty (r : CtrlReg) : HazardLatch.empty.has r = false := by
  cases r <;> rfl

/-- A store fills an empty latch with the control register it reaches, if it reaches one. -/
theorem StoreEffect.has_iff {d : Dev} {a : Word} {sz : Size} {m w : State} (h : StoreEffect d a sz m w)
    (hempty : m.hz = HazardLatch.empty) (r : CtrlReg) : w.hz.has r = true ↔ ReachesCtrl d a sz r := by
  have unreached (hw : w.hz = HazardLatch.empty) (hr : ¬ReachesCtrl d a sz r) :
      w.hz.has r = true ↔ ReachesCtrl d a sz r := iff_of_false (by simp [hw]) hr
  cases h with
  | trap c hc => exact unreached hempty (by simp [hc])
  | ctrl k v hreach =>
    obtain ⟨htrap, hkind, hat⟩ := hreach
    rw [State.writeCtrl_hz, hempty, HazardLatch.has_add_empty]
    simp [ReachesCtrl, htrap, hkind, hat, eq_comm]
  | other q _ _ hat _ => exact unreached hempty (by simp [hat])
  | ram v _ hr =>
    refine unreached (by cases sz <;> exact hempty) ?_
    rintro ⟨-, hkind, -⟩
    simp [isRam, hkind] at hr

/-- Settles O33: an instruction begins with the latch emptied and `hz_old` set, and its store alone fills the latch. -/
theorem latchHoldsWrites : Obligations.LatchHoldsWrites := by
  intro i s t _ h
  obtain ⟨hmodcon, hxbrev⟩ := exec_hzOld h
  obtain ⟨m, w, he, -, hhz, -, -⟩ := exec_effect_kept h
  obtain ⟨-, hempty, -⟩ := he.untilStore
  refine ⟨hmodcon, hxbrev, fun r => ?latch⟩
  obtain ⟨hnone, rfl⟩ | ⟨u, a, sz, -, -, hsome, hs⟩ := he.stored
  · simp [hhz, hempty, hnone]
  · rw [hhz, hs.has_iff hempty r, hsome]
    constructor
    · exact fun hr => ⟨a, sz, rfl, hr⟩
    · rintro ⟨_, _, ⟨⟩, hr⟩
      exact hr

end Sys2Proof.Machine
end

/-! ### What an instruction can fault with past its hazard check (R240, D31) -/

section
namespace Sys2Proof.Machine

/-- A computation that faults, if at all, by reading a byte of RAM nothing has written (D31). -/
def OnlyUnwritten {α : Type} (r : Host.Outcome α Fault Refusal) : Prop := ∀ f, r = .fault f → f = .unwrittenRead

theorem OnlyUnwritten.next {α : Type} (a : α) : OnlyUnwritten (.next a) := nofun

theorem OnlyUnwritten.refused {α : Type} (q : Refusal) : OnlyUnwritten (α := α) (.refused q) := nofun

theorem OnlyUnwritten.unwritten {α : Type} : OnlyUnwritten (α := α) (.fault .unwrittenRead) := by
  rintro f ⟨⟩
  rfl

theorem OnlyUnwritten.andThen {α β : Type} {r : Result α} {k : α → State → Host.Outcome β Fault Refusal}
    (hr : OnlyUnwritten r) (hk : ∀ a s, OnlyUnwritten (k a s)) : OnlyUnwritten (andThen r k) := by
  cases r with
  | next p => exact hk p.1 p.2
  | fault f => rw [hr f rfl]; exact .unwritten
  | refused q => exact .refused q

theorem OnlyUnwritten.finish {r : StepResult} (hr : OnlyUnwritten r) : OnlyUnwritten (finish r) := by
  cases r with
  | next s => exact .next s.advance
  | fault f => rw [hr f rfl]; exact .unwritten
  | refused q => exact .refused q

/-! #### Reads -/

theorem readRam_onlyUnwritten (s : State) (a : Word) (sz : Size) : OnlyUnwritten (readRam s a sz) := by
  cases sz with
  | byte =>
    rw [readRam]
    split
    · exact .next _
    · exact .unwritten
  | word =>
    rw [readRam]
    split
    · exact .next _
    · exact .unwritten

theorem readOtherSfr_onlyUnwritten (s : State) (a : Word) (sz : Size) : OnlyUnwritten (readOtherSfr s a sz) := by
  unfold readOtherSfr
  split
  · exact .refused _
  · exact .next _

theorem readPsv_onlyUnwritten (s : State) (a : Word) (sz : Size) : OnlyUnwritten (readPsv s a sz) := by
  unfold readPsv
  split
  · exact .refused _
  · exact .next _

theorem readAligned_onlyUnwritten (s : State) (a : Word) (sz : Size) : OnlyUnwritten (readAligned s a sz) := by
  unfold readAligned
  split
  · exact .next _
  · exact readPsv_onlyUnwritten s a sz
  · split
    · exact .next _
    · exact readOtherSfr_onlyUnwritten s a sz
  · exact readRam_onlyUnwritten s a sz
  · exact readRam_onlyUnwritten s a sz

theorem readAlignedX_onlyUnwritten (s : State) (a : Word) : OnlyUnwritten (readAlignedX s a) := by
  unfold readAlignedX
  split
  · exact .next _
  · exact readPsv_onlyUnwritten s a .word
  · exact readAligned_onlyUnwritten s a .word
  · split
    · exact .next _
    · exact readAligned_onlyUnwritten s a .word
  · split
    · exact .next _
    · exact readAligned_onlyUnwritten s a .word

theorem readAlignedY_onlyUnwritten (s : State) (a : Word) : OnlyUnwritten (readAlignedY s a) := by
  unfold readAlignedY
  split
  · exact .next _
  · exact .refused _
  · exact .next _
  · split
    · exact .next _
    · exact readRam_onlyUnwritten s a .word
  · split
    · exact .next _
    · exact readRam_onlyUnwritten s a .word

/-- A misaligned read completes, whatever the aligned read does (R53). -/
theorem completeMisaligned_onlyUnwritten (s : State) (aligned : State → Result Word) :
    OnlyUnwritten (completeMisaligned s aligned) := by
  unfold completeMisaligned
  split <;> exact .next _

theorem memRead_onlyUnwritten (s : State) (a : Word) (sz : Size) : OnlyUnwritten (memRead s a sz) := by
  unfold memRead
  split
  · exact completeMisaligned_onlyUnwritten s _
  · exact readAligned_onlyUnwritten s a sz

theorem memReadX_onlyUnwritten (s : State) (a : Word) : OnlyUnwritten (memReadX s a) := by
  unfold memReadX
  split
  · exact completeMisaligned_onlyUnwritten s _
  · exact readAlignedX_onlyUnwritten s a

theorem memReadY_onlyUnwritten (s : State) (a : Word) : OnlyUnwritten (memReadY s a) := by
  unfold memReadY
  split
  · exact completeMisaligned_onlyUnwritten s _
  · exact readAlignedY_onlyUnwritten s a

theorem readOperand_onlyUnwritten {read : State → Result Word} (hread : ∀ u, OnlyUnwritten (read u)) (s : State)
    (a : Word) (sz : Size) (rs : List Reg) : OnlyUnwritten (readOperand s a sz rs read) := by
  unfold readOperand
  split
  · exact hread _
  · exact hread _

/-! #### Writes -/

theorem writeOtherSfr_onlyUnwritten (s : State) (a : Word) (sz : Size) (v : Word) :
    OnlyUnwritten (writeOtherSfr s a sz v) := by
  unfold writeOtherSfr
  split
  · exact .refused _
  · exact .next _

theorem memWrite_onlyUnwritten (s : State) (a : Word) (sz : Size) (v : Word) : OnlyUnwritten (memWrite s a sz v) := by
  unfold memWrite
  split
  · exact .next _
  · split
    · exact .next _
    · exact .refused _
    · split
      · exact .next _
      · exact writeOtherSfr_onlyUnwritten s a sz v
    · exact .next _
    · exact .next _

theorem storeOperand_onlyUnwritten (s : State) (a : Word) (sz : Size) (v : Word) (rs : List Reg) :
    OnlyUnwritten (storeOperand s a sz v rs) := by
  unfold storeOperand
  split
  · exact memWrite_onlyUnwritten _ a sz v
  · exact memWrite_onlyUnwritten s a sz v

theorem macWriteBack_onlyUnwritten (s : State) (wa wb : Word) (acc : Accumulators) (rs : List Reg) :
    OnlyUnwritten (macWriteBack s wa wb acc rs) := by
  unfold macWriteBack
  split
  · exact memWrite_onlyUnwritten _ wa .word wb
  · exact memWrite_onlyUnwritten _ wa .word wb

/-! #### Operands -/

theorem plainOperand_onlyUnwritten (s : State) (agu : Agu) (mode : AddrMode) (n : Reg) (sz : Size) :
    OnlyUnwritten (plainOperand s agu mode n sz) := by
  unfold plainOperand
  dsimp only
  split
  · exact .next _
  · split
    · exact .next _
    · split
      · exact .refused _
      · exact .next _

theorem operand_onlyUnwritten (s : State) (agu : Agu) (mode : AddrMode) (n : Reg) (sz : Size) :
    OnlyUnwritten (operand s agu mode n sz) := by
  unfold operand
  split
  · split
    · split
      · exact .refused _
      · exact .next _
    · split
      · exact .refused _
      · exact plainOperand_onlyUnwritten s agu mode n sz
  · exact plainOperand_onlyUnwritten s agu mode n sz

theorem operandY_onlyUnwritten (s : State) (k : Int) (n : Reg) : OnlyUnwritten (operandY s k n) := by
  unfold operandY
  split
  · exact .refused _
  · exact operand_onlyUnwritten s .yAgu (.postMod k) n .word

theorem loadSource_onlyUnwritten (s : State) (sz : Size) (src : MovSrc) : OnlyUnwritten (loadSource s sz src) := by
  cases src with
  | reg r => exact .next _
  | lit k => exact .next _
  | direct f => exact memRead_onlyUnwritten s f sz
  | mem o =>
    exact (operand_onlyUnwritten s .xRagu (.mcu o.mode) o.ptr sz).andThen fun ea t =>
      readOperand_onlyUnwritten (fun u => memRead_onlyUnwritten u ea sz) t ea sz _

theorem storeDestination_onlyUnwritten (s : State) (sz : Size) (v : Word) (rs : List Reg) (dst : MovDst) :
    OnlyUnwritten (storeDestination s sz v rs dst) := by
  cases dst with
  | reg d => exact .next _
  | direct f => exact storeOperand_onlyUnwritten s f sz v rs
  | mem o =>
    exact (operand_onlyUnwritten s .xWagu (.mcu o.mode) o.ptr sz).andThen fun ea t => storeOperand_onlyUnwritten t ea sz v _

theorem macPrefetches_onlyUnwritten (s : State) (x : XPtr) (kx : Int) (xd : Reg) (y : YPtr) (ky : Int) (yd : Reg) :
    OnlyUnwritten (macPrefetches s x kx xd y ky yd) :=
  (operand_onlyUnwritten s .xRagu (.postMod kx) x.reg .word).andThen fun xa t₁ =>
    (readOperand_onlyUnwritten (fun u => memReadX_onlyUnwritten u xa) t₁ xa .word [x.reg]).andThen fun _ t₂ =>
      (operandY_onlyUnwritten t₂.dmaTurn ky y.reg).andThen fun ya t₃ =>
        (readOperand_onlyUnwritten (fun u => memReadY_onlyUnwritten u ya) t₃ ya .word [y.reg]).andThen fun _ _ => .next _

/-! #### Instructions -/

/-- An instruction is its hazard check over the pointers of R205, and past it an effect that violates no hazard. -/
def ChecksHazard (p : ReadPointers) (run : State → StepResult) : Prop :=
  ∃ effect : State → StepResult, (∀ t, OnlyUnwritten (effect t)) ∧ ∀ s, run s = guarded p s effect

theorem moveOp_checksHazard (sz : Size) (src : MovSrc) (dst : MovDst) :
    ChecksHazard (MovSrc.readPointers src) fun s => moveOp s sz src dst := by
  refine ⟨_, fun t => ?_, fun s => rfl⟩
  split
  · exact .refused _
  · split
    · exact .refused _
    · exact ((loadSource_onlyUnwritten t sz src).andThen fun v u => storeDestination_onlyUnwritten _ sz v _ dst).finish

theorem execMac_checksHazard (m n : Reg) (x : XPtr) (kx : Int) (xd : Reg) (y : YPtr) (ky : Int) (yd : Reg) (kw : Int) :
    ChecksHazard (.through [x.reg, y.reg]) (execMacPrefetchWb m n x kx xd y ky yd kw) := by
  refine ⟨_, fun t => ?_, fun s => rfl⟩
  split
  · exact .refused _
  · exact ((macPrefetches_onlyUnwritten t x kx xd y ky yd).andThen fun _ u =>
      (operand_onlyUnwritten u .xWagu (.postMod kw) 13 .word).andThen fun wa w =>
        macWriteBack_onlyUnwritten w wa _ _ _).finish

theorem exec_checksHazard (i : Instr) : ChecksHazard (readPointersOf i) (exec i) := by
  cases i with
  | movLitW k d => exact moveOp_checksHazard .word (.lit k) (.reg d)
  | movWF r f => exact moveOp_checksHazard .word (.reg r) (.direct f)
  | movIndW r d => exact moveOp_checksHazard .word (.mem ⟨r, .indirect⟩) (.reg d)
  | movPostincW r d => exact moveOp_checksHazard .word (.mem ⟨r, .postInc⟩) (.reg d)
  | movWPostinc r d => exact moveOp_checksHazard .word (.reg r) (.mem ⟨d, .postInc⟩)
  | movPostincPostinc r d => exact moveOp_checksHazard .word (.mem ⟨r, .postInc⟩) (.mem ⟨d, .postInc⟩)
  | movGeneral sz src dst => exact moveOp_checksHazard sz src dst
  | macPrefetchWb m n x kx xd y ky yd kw => exact execMac_checksHazard m n x kx xd y ky yd kw
  | nop => exact ⟨_, fun t => .next t.advance, fun _ => rfl⟩
  | repeatLit lit => exact ⟨_, fun t => .next { t with rc := lit, pc := t.pc + 1 }, fun _ => rfl⟩
  | doLitLabel _ _ => exact ⟨_, fun _ => .refused .doNotDescribed, fun _ => rfl⟩
  | pop _ => exact ⟨_, fun _ => .refused .popNotDescribed, fun _ => rfl⟩
  | returnCall => exact ⟨_, fun _ => .refused .returnNotDescribed, fun _ => rfl⟩
  | retfie => exact ⟨_, fun _ => .refused .retfieNotDescribed, fun _ => rfl⟩
  | retlw _ _ => exact ⟨_, fun _ => .refused .retlwNotDescribed, fun _ => rfl⟩
  | ulnk => exact ⟨_, fun _ => .refused .ulnkNotDescribed, fun _ => rfl⟩

end Sys2Proof.Machine
end

/-! ### When an instruction stops as a hazard violation (R205, R252, R253, decision D14) -/

section
namespace Sys2Proof.Machine

/-- Settles O31: the hazard check comes first, and no effect past it faults as one. -/
theorem hazardFaultExactly : Obligations.HazardFaultExactly := by
  intro i s
  obtain ⟨effect, heffect, hrun⟩ := exec_checksHazard i
  rw [hrun]
  refine ⟨fun h => by_contra fun hsafe => ?safe, guarded_of_violation effect⟩
  case safe =>
    rw [guarded_of_not_violation effect hsafe] at h
    exact absurd (heffect s.start _ h) nofun

theorem exec_ne_hazard_of_not_violation {i : Instr} {s : State} (h : ¬Violation s (readPointersOf i)) :
    exec i s ≠ .fault .hazardViolated := fun hf => h ((hazardFaultExactly i s).mp hf)

theorem not_violation_after_bounds {s : State} {p : ReadPointers} (hmodcon : s.hz.modcon = false)
    (hxbrev : s.hz.xbrev = false)
    (h : (¬p.Designates s.xwm ∧ ¬p.Designates s.ywm) ∨ (s.xmoden = false ∧ s.ymoden = false)) : ¬Violation s p := by
  rintro ⟨-, hm | ⟨-, hen, hsel⟩ | ⟨-, hen, hsel⟩ | ⟨hx, -⟩⟩
  · simp [hmodcon] at hm
  · exact h.elim (fun hnot => hnot.1 hsel) fun hoff => Bool.eq_false_iff.mp hoff.1 hen
  · exact h.elim (fun hnot => hnot.2 hsel) fun hoff => Bool.eq_false_iff.mp hoff.2 hen
  · simp [hxbrev] at hx

theorem not_violation_after_xbrev {s : State} {p : ReadPointers} (hmodcon : s.hz.modcon = false)
    (hxmodsrt : s.hz.xmodsrt = false) (hxmodend : s.hz.xmodend = false) (hymodsrt : s.hz.ymodsrt = false)
    (hymodend : s.hz.ymodend = false) (h : ¬p.Designates s.bwm ∨ s.hzOldXbrev.getLsbD 15 = false) :
    ¬Violation s p := by
  rintro ⟨-, hm | ⟨hx, -⟩ | ⟨hy, -⟩ | ⟨-, hbren, hsel⟩⟩
  · simp [hmodcon] at hm
  · simp [hxmodsrt, hxmodend] at hx
  · simp [hymodsrt, hymodend] at hy
  · exact h.elim (fun hnot => hnot hsel) fun hclear => Bool.eq_false_iff.mp hclear hbren

/-- Settles O32: in each clause R252's condition fails, so by `hazardFaultExactly` the instruction does not stop so. -/
theorem safeAfterControlWrite : Obligations.SafeAfterControlWrite := by
  refine ⟨fun s i hnone => ?noRead, fun _ _ _ _ _ _ => ⟨rfl, rfl, rfl, rfl, rfl⟩, fun s i hm hx h => ?bounds,
    fun s i hm h₁ h₂ h₃ h₄ h => ?xbrev⟩
  case noRead => exact exec_ne_hazard_of_not_violation (hnone ▸ not_violation_noRead s)
  case bounds => exact exec_ne_hazard_of_not_violation (not_violation_after_bounds hm hx h)
  case xbrev => exact exec_ne_hazard_of_not_violation (not_violation_after_xbrev hm h₁ h₂ h₃ h₄ h)

end Sys2Proof.Machine
end
